-- ==== Sys2Proof/Word.lean ====
section
/-! DEFINITION. The units the engine moves: bytes, 32-bit words and byte strings
(00_scope.md section 5, 20_memory.md R60, R64). -/

namespace Sys2Proof

/-- A byte: 8 bits, bit 7 the most significant (20_memory.md R63). -/
abbrev Byte := BitVec 8

/-- A command word, a STATUS word or an outcnt word (20_memory.md R60). -/
abbrev Word := BitVec 32

/-- A byte string, byte 0 first; a block is one of exactly B bytes (00_scope.md section 5). -/
abbrev Bytes := List Byte

end Sys2Proof
end

