-- ==== Sys2Proof/Config.lean ====
section
/-! DEFINITION. What an implementation fixes (00_scope.md R5 to R10, 93_implementation_defined.md part 3), and the free values:
constants without a body, of which nothing can be proved. -/

namespace Sys2Proof

/-- The engine's identity string (00_scope.md R1). A label: no rule depends on it. -/
def Config.identity : String := "MCME-1"

/-- INDEX_BITS: the width of both OCB3 block indexes and the number of L-table entries (00_scope.md R8). -/
def Config.indexBits : Nat := 64

/-- The order of a 32-bit word's bytes on the host's carrier. The spec leaves it OPEN in HOST_BINDING (20_memory.md R65).
DESIGN CHOICE, log entry 5: the model's carrier is byte-wide and has either order. -/
inductive ByteOrder where
  | big
  | little
deriving DecidableEq, Repr

/-- One answer of a cipher given as a table: under `key`, `plain` encrypts to `cipher`. -/
structure CodebookEntry where
  key : Bytes
  plain : Bytes
  cipher : Bytes
deriving DecidableEq, Repr

/-- Which block cipher is attached: the parameter CIPHER (00_scope.md R7). `attached` is the hardware's own, of which nothing is
known. `toyrot` is the test cipher of 95_test_vectors.md (93 I22). `codebook` lists known answers, every other request going to
the attached cipher. DESIGN CHOICE, log entry 4. -/
inductive CipherSelect where
  | attached
  | toyrot
  | codebook (entries : List CodebookEntry)
deriving DecidableEq, Repr

/-- The parameters of one engine (93_implementation_defined.md part 3). Constant: no step writes them (log entry 1). -/
structure Params where
  /-- BLOCK_BYTES, written B in every rule (00_scope.md R5). -/
  blockBytes : Nat
  /-- KEY_LENGTHS (00_scope.md R6). -/
  keyLengths : List Nat
  /-- CIPHER (00_scope.md R7). -/
  cipher : CipherSelect
  /-- NONCE_TAGLEN_FIELD (00_scope.md R9). -/
  nonceTaglenField : Bool
  /-- The word byte order of HOST_BINDING (00_scope.md R10, 20_memory.md R65). -/
  wordOrder : ByteOrder
deriving DecidableEq, Repr

/-- The engine is specified for every B in 1..255 (00_scope.md R5). -/
abbrev Params.Wf (p : Params) : Prop := 1 ≤ p.blockBytes ∧ p.blockBytes ≤ 255

/-- The instance `State.reset` has: B = 16 and no tag length in the nonce block are the spec's defaults (00_scope.md R5, R9),
KEY_LENGTHS = {16} is that of the spec's vectors (R6). DESIGN CHOICE, log entry 2. -/
def Params.default : Params where
  blockBytes := 16
  keyLengths := [16]
  cipher := .attached
  nonceTaglenField := false
  wordOrder := .big

/-- A row of the table of field constants (45_ocb3_nonce.md R202). -/
structure FieldConstants where
  residue : Nat
  shift : Nat
  m0 : Byte
  m1 : Byte
deriving DecidableEq, Repr, Inhabited

/-- Free value: the attached cipher's Enc at block size b, an uninterpreted parameter (00_scope.md R7). Log entry 3. -/
opaque Config.attachedEnc (b : Nat) (key : Bytes) : BitVec (8 * b) → BitVec (8 * b)

/-- Free value: the attached cipher's Dec (00_scope.md R7). Log entry 3. -/
opaque Config.attachedDec (b : Nat) (key : Bytes) : BitVec (8 * b) → BitVec (8 * b)

/-- Free value: the field constants at a block size the spec gives none for (45_ocb3_nonce.md R202). INIT_MODE refuses OCB3
there (R201), so no session reads it. Log entry 11. -/
opaque Config.unlistedConstants (b : Nat) : FieldConstants

/-- Free value: what an L-table entry at or above LCOUNT holds; "the others are never read" (10_state.md R37). Log entry 11. -/
opaque Config.invalidEntry (b : Nat) : BitVec (8 * b)

end Sys2Proof
end

