-- ==== Sys2Proof/Syntax.lean ====
section
/-! DEFINITION. The commands as syntax: one constructor per row of spec/opcode_table.json (30_encoding.md R90). Data operands are
not part of a command word (R86): they come on data-in. -/

namespace Sys2Proof

/-- The cipher direction: 0 = Encrypt, 1 = Decrypt (10_state.md R24). -/
inductive Dir where
  | encrypt
  | decrypt
deriving DecidableEq, Repr

/-- A decoded command word. Every field is an unsigned integer (30_encoding.md R86). -/
inductive Instr where
  /-- INIT_CIPHER: bind a key of `klen` bytes (41_engine.md R111). -/
  | initCipher (klen : Nat)
  /-- INIT_MODE with MODE = 0 (43_ecb.md R160). -/
  | initModeEcb (dir : Dir) (pad : Bool) (taglen ivlen : Nat)
  /-- INIT_MODE with MODE = 1 (44_ctr.md R180). -/
  | initModeCtr (dir : Dir) (pad : Bool) (taglen ivlen : Nat)
  /-- INIT_MODE with MODE = 2 (45_ocb3_nonce.md R200). -/
  | initModeOcb3 (dir : Dir) (pad : Bool) (taglen ivlen : Nat)
  /-- UPDATE_AAD with `len` bytes of associated data (41_engine.md R116). -/
  | updateAad (len : Nat)
  /-- UPDATE with `len` message bytes (41_engine.md R117). -/
  | update (len : Nat)
  /-- DO_FINAL with `len` message bytes (41_engine.md R118). -/
  | doFinal (len : Nat)
deriving DecidableEq, Repr

end Sys2Proof
end

