-- ==== Sys2Proof/Machine/State.lean ====
section
/-! DEFINITION. The state of one engine with its host and cipher channels, as plain data: the registers of 10_state.md (`Engine`),
and beside them the model's own fields (`State`). -/

namespace Sys2Proof.Machine

/-- STATE, 3 bits (10_state.md R22). Value 7 is never held. -/
inductive Session where
  | uninit
  | keyBound
  | modeConfigured
  | aadAccepting
  | messageAccepting
  | finalized
  | failed
deriving DecidableEq, Repr

/-- CFG_MODE, 2 bits (10_state.md R23). Value 3 is never held. -/
inductive Mode where
  | ecb
  | ctr
  | ocb3
deriving DecidableEq, Repr

/-- The error codes (60_exceptions.md R270). -/
inductive Err where
  | ok
  | configError
  | illegalLength
  | invalidPadding
  | sequenceError
  | illegalCommand
deriving DecidableEq, Repr

/-- The registers, exactly those of 10_state.md (R20). BUFLEN, ABUFLEN, KLEN and LCOUNT are views of `buf`, `abuf`, `key` and `lt`
(log entry 10). -/
structure Engine where
  /-- STATE (R22). -/
  session : Session
  /-- CFG_MODE (R23). -/
  cfgMode : Mode
  /-- CFG_DIR (R24). -/
  cfgDir : Dir
  /-- CFG_PAD (R25). -/
  cfgPad : Bool
  /-- CFG_TAGLEN (R26). -/
  cfgTaglen : BitVec 8
  /-- KEY, `none` when unbound (R27). -/
  key : Option Bytes
  /-- BUF[0..BUFLEN) (R29, R30). -/
  buf : Bytes
  /-- ABUF[0..ABUFLEN) (R31). -/
  abuf : Bytes
  /-- CTR (R32). -/
  ctr : Bytes
  /-- LSTAR (R33). -/
  lstar : Bytes
  /-- LDOLLAR (R34). -/
  ldollar : Bytes
  /-- DELTA (R35). -/
  delta : Bytes
  /-- DELTA_AAD (R36). -/
  deltaAad : Bytes
  /-- LT[0..LCOUNT) (R37). -/
  lt : List Bytes
  /-- CHECKSUM (R38). -/
  checksum : Bytes
  /-- AUTH_ACC (R39). -/
  authAcc : Bytes
  /-- MIDX (R40). -/
  midx : BitVec 64
  /-- AIDX (R40). -/
  aidx : BitVec 64
deriving DecidableEq, Repr

/-- KLEN (R27): 0 when the key is unbound. -/
def Engine.klen (e : Engine) : Nat := (e.key.getD []).length

/-- BUFLEN, an 8-bit count (R30). -/
def Engine.buflen (e : Engine) : BitVec 8 := BitVec.ofNat 8 e.buf.length

/-- ABUFLEN, an 8-bit count (R31). -/
def Engine.abuflen (e : Engine) : BitVec 8 := BitVec.ofNat 8 e.abuf.length

/-- LCOUNT, a 7-bit count (R37). -/
def Engine.lcount (e : Engine) : BitVec 7 := BitVec.ofNat 7 e.lt.length

/-- The response to one command (20_memory.md R60). -/
structure Response where
  status : Word
  outcnt : Word
  dout : Bytes
deriving DecidableEq, Repr

/-- The two requests of the cipher interface (60_exceptions.md R285). -/
inductive CipherOp where
  | enc
  | dec
deriving DecidableEq, Repr

/-- One request to the attached cipher (60_exceptions.md R285). -/
structure CipherRequest where
  op : CipherOp
  key : Bytes
  block : Bytes
deriving DecidableEq, Repr

/-- What the host puts on its channel: one byte of a command word or of data-in, or an assertion of the reset input
(20_memory.md R60, 70_reset_and_hazards.md R300). -/
inductive HostInput where
  | byte (b : Byte)
  | reset
deriving DecidableEq, Repr

/-- The machine: the engine's registers and the model's own fields. -/
structure State where
  /-- The parameters of this engine; constant (log entry 1). -/
  params : Params
  /-- The registers (10_state.md R20). -/
  engine : Engine
  /-- What the host sends and the engine has not consumed, oldest first (log entry 5). -/
  input : List HostInput
  /-- The responses returned so far, oldest first: what a run shows (70_reset_and_hazards.md R318; log entry 12). -/
  responses : List Response
  /-- The cipher requests issued so far, oldest first (60_exceptions.md R285; log entry 12). -/
  requests : List CipherRequest
deriving DecidableEq, Repr

/-- What stops the machine. -/
inductive Fault where
  /-- Raised by every command (through `State.starved`) when the host has sent fewer than N(w) data-in bytes and no reset abandons
  the command: it is stuck, "not finished and not failed" (70_reset_and_hazards.md R311, 93 I11). Safe: the model has no further
  step where the hardware waits. -/
  | awaitingDataIn
  /-- Raised by the fetch when fewer than four bytes of a command word have come. Safe, as above (log entry 6). -/
  | awaitingCommandWord
deriving DecidableEq, Repr

/-- What the model gives no meaning. -/
inductive Refusal where
  /-- Raised by `exec` for an instruction without a meaning in the model; no arm raises it. Safe. -/
  | notModelled (mnemonic : String)
deriving DecidableEq, Repr

/-- The registers after reset, for any parameters (10_state.md R43). -/
def Engine.reset (p : Params) : Engine where
  session := .uninit
  cfgMode := .ecb
  cfgDir := .encrypt
  cfgPad := false
  cfgTaglen := 0#8
  key := none
  buf := []
  abuf := []
  ctr := List.replicate p.blockBytes 0#8
  lstar := List.replicate p.blockBytes 0#8
  ldollar := List.replicate p.blockBytes 0#8
  delta := List.replicate p.blockBytes 0#8
  deltaAad := List.replicate p.blockBytes 0#8
  lt := []
  checksum := List.replicate p.blockBytes 0#8
  authAcc := List.replicate p.blockBytes 0#8
  midx := 0#64
  aidx := 0#64

/-- The machine right after power-on with the given parameters (70_reset_and_hazards.md R300): nothing sent, nothing answered. -/
def State.resetWith (p : Params) : State where
  params := p
  engine := Engine.reset p
  input := []
  responses := []
  requests := []

/-- The machine right after reset, at the instance of log entry 2. -/
def State.reset : State := State.resetWith Params.default

end Sys2Proof.Machine
end

