-- ==== Sys2Proof/Machine/Blocks.lean ====
section
/-! DEFINITION. Block values: byte strings read as big-endian integers, and the engine's only arithmetic on them: XOR, the counter
increment, the field doubling, ntz and the cut of stretch (00_scope.md section 5, 20_memory.md R62, R63, 44 R182, 45 R202 to
R215, 46 R230). -/

namespace Sys2Proof.Machine

/-- `0^n`. -/
def zeros (n : Nat) : Bytes := List.replicate n 0#8

/-- `x ^ y`, bytewise (00_scope.md section 5). On strings of different lengths the result has the shorter length. -/
def xorBytes (x y : Bytes) : Bytes := List.zipWith (fun a b => a ^^^ b) x y

/-- `int(blk)`: byte 0 is the most significant (20_memory.md R62). -/
def intOf : Bytes → Nat
  | [] => 0
  | x :: xs => x.toNat * 2 ^ (8 * xs.length) + intOf xs

/-- `blk(v)` on n bytes, v taken modulo 2^(8n) (20_memory.md R62). -/
def blkOf : Nat → Nat → Bytes
  | 0, _ => []
  | n + 1, v => BitVec.ofNat 8 (v >>> (8 * n)) :: blkOf n v

/-- `blk << n` for a block: zeros come in, bits shifted past byte 0 are lost (00_scope.md section 5). -/
def shiftLeft (blk : Bytes) (n : Nat) : Bytes := blkOf blk.length (intOf blk <<< n)

/-- The carry loop of `Increment`, least significant byte first (44_ctr.md R182). -/
def incrementLow : Bytes → Bytes
  | [] => []
  | x :: xs => if x + 1#8 = 0#8 then 0#8 :: incrementLow xs else (x + 1#8) :: xs

/-- `Increment(CTR)`, modulo 2^(8B) (44_ctr.md R182, R186). -/
def increment (ctr : Bytes) : Bytes := (incrementLow ctr.reverse).reverse

/-- `Constants(B)` (45_ocb3_nonce.md R202); a free value at the sizes the spec lists no constants for (log entry 11). -/
def constants (b : Nat) : FieldConstants :=
  if b = 16 then ⟨135, 8, 0x00#8, 0x3F#8⟩
  else if b = 32 then ⟨1061, 1, 0x00#8, 0xFF#8⟩
  else Config.unlistedConstants b

/-- `double(S)` on a block of b bytes (45_ocb3_nonce.md R203). -/
def double (b : Nat) (s : Bytes) : Bytes :=
  let v := intOf s
  let shifted := (v <<< 1) % 2 ^ (8 * b)
  blkOf b (if v >>> (8 * b - 1) = 1 then shifted ^^^ (constants b).residue else shifted)

/-- The trailing zero bits of i, counted up to `fuel`. -/
def ntzUpTo : Nat → Nat → Nat
  | 0, _ => 0
  | fuel + 1, i => if i % 2 = 1 then 0 else 1 + ntzUpTo fuel (i / 2)

/-- `ntz(i)` of a block index i ≥ 1 (46_ocb3_data.md R230). -/
def ntz (i : Nat) : Nat := ntzUpTo Config.indexBits i

/-- `Cut(stretch, bytes, bits)` on a stretch of 2b bytes (45_ocb3_nonce.md R215). -/
def cut (b : Nat) (stretch : Bytes) (bytes bits : Nat) : Bytes :=
  (List.range b).map fun i =>
    let hi := stretch.getD (bytes + i) 0#8
    let lo := stretch.getD (bytes + i + 1) 0#8
    if bits = 0 then hi else (hi <<< bits) ||| (lo >>> (8 - bits))

/-- `x ‖ 80 ‖ 0…` up to b bytes (47_ocb3_tag.md R251, R254). -/
def padOne (b : Nat) (x : Bytes) : Bytes := x ++ 0x80#8 :: zeros (b - 1 - x.length)

end Sys2Proof.Machine
end

