-- ==== Sys2Proof/Machine/Cipher.lean ====
section
/-! DEFINITION. The attached block cipher: two total functions on B-byte blocks (00_scope.md R7, 60_exceptions.md R285). -/

namespace Sys2Proof.Machine

/-- TOYROT's E on integers of `n` bits: rotate left by one bit, then XOR the key (95_test_vectors.md, 93 I22). -/
def toyrotEnc (n key v : Nat) : Nat := ((2 * v) % 2 ^ n + v / 2 ^ (n - 1)) ^^^ key

/-- TOYROT's D on integers of `n` bits: XOR the key, then rotate right by one bit (95_test_vectors.md, 93 I22). -/
def toyrotDec (n key v : Nat) : Nat := (v ^^^ key) / 2 + ((v ^^^ key) % 2) * 2 ^ (n - 1)

/-- The attached cipher's Enc on byte strings of b bytes. -/
def attachedEnc (b : Nat) (key blk : Bytes) : Bytes :=
  blkOf b (Config.attachedEnc b key (BitVec.ofNat (8 * b) (intOf blk))).toNat

/-- The attached cipher's Dec on byte strings of b bytes. -/
def attachedDec (b : Nat) (key blk : Bytes) : Bytes :=
  blkOf b (Config.attachedDec b key (BitVec.ofNat (8 * b) (intOf blk))).toNat

/-- `CIPHER.Enc(key, blk)`: always exactly B bytes (60_exceptions.md R285). -/
def cipherEnc (p : Params) (key blk : Bytes) : Bytes :=
  let b := p.blockBytes
  match p.cipher with
  | .attached => attachedEnc b key blk
  | .toyrot => blkOf b (toyrotEnc (8 * b) (intOf key % 2 ^ (8 * b)) (intOf blk))
  | .codebook entries =>
    match entries.find? fun e => e.key == key && e.plain == blk with
    | some e => blkOf b (intOf e.cipher)
    | none => attachedEnc b key blk

/-- `CIPHER.Dec(key, blk)`: always exactly B bytes (60_exceptions.md R285). -/
def cipherDec (p : Params) (key blk : Bytes) : Bytes :=
  let b := p.blockBytes
  match p.cipher with
  | .attached => attachedDec b key blk
  | .toyrot => blkOf b (toyrotDec (8 * b) (intOf key % 2 ^ (8 * b)) (intOf blk))
  | .codebook entries =>
    match entries.find? fun e => e.key == key && e.cipher == blk with
    | some e => blkOf b (intOf e.plain)
    | none => attachedDec b key blk

/-- One cipher request answered (60_exceptions.md R285). -/
def cipherAnswer (p : Params) (q : CipherRequest) : Bytes :=
  match q.op with
  | .enc => cipherEnc p q.key q.block
  | .dec => cipherDec p q.key q.block

/-- The one property the engine assumes of CIPHER, `Dec(k, Enc(k, x)) = x` (00_scope.md R7). No definition of the model rests on
it: a claim that needs it names it (log entry 3). -/
def CipherRoundTrips (p : Params) : Prop :=
  ∀ key blk : Bytes, key.length ∈ p.keyLengths → blk.length = p.blockBytes → cipherDec p key (cipherEnc p key blk) = blk

end Sys2Proof.Machine
end

