-- ==== Sys2Proof/Machine/Flags.lean ====
section
/-! DEFINITION. The STATUS word and its fields' codes (10_state.md R22 to R28, 60_exceptions.md R270). The engine has no condition
flags. -/

namespace Sys2Proof.Machine

/-- STATE's value (10_state.md R22). -/
def Session.code : Session → Nat
  | .uninit => 0
  | .keyBound => 1
  | .modeConfigured => 2
  | .aadAccepting => 3
  | .messageAccepting => 4
  | .finalized => 5
  | .failed => 6

/-- CFG_MODE's value (10_state.md R23). -/
def Mode.code : Mode → Nat
  | .ecb => 0
  | .ctr => 1
  | .ocb3 => 2

/-- CFG_DIR's value (10_state.md R24). -/
def dirCode : Dir → Nat
  | .encrypt => 0
  | .decrypt => 1

/-- ERR's value (60_exceptions.md R270). -/
def Err.code : Err → Nat
  | .ok => 0
  | .configError => 1
  | .illegalLength => 2
  | .invalidPadding => 3
  | .sequenceError => 4
  | .illegalCommand => 5

/-- The STATUS word of a command that ended with `err`, from the registers after it (10_state.md R28, 41_engine.md R110). -/
def statusWord (err : Err) (e : Engine) : Word :=
  BitVec.ofNat 32 e.session.code
    ||| BitVec.ofNat 32 err.code <<< 4
    ||| BitVec.ofNat 32 e.cfgMode.code <<< 8
    ||| BitVec.ofNat 32 (dirCode e.cfgDir) <<< 10
    ||| BitVec.ofNat 32 e.cfgPad.toNat <<< 11
    ||| e.cfgTaglen.setWidth 32 <<< 16
    ||| e.buflen.setWidth 32 <<< 24

end Sys2Proof.Machine
end

