-- ==== Sys2Proof/WellFormed.lean ====
section
/-! DEFINITION. Which commands an encoding exists for: the ranges of 30_encoding.md R86 (KLEN, IVLEN and TAGLEN 0..255,
LEN 0..65535). A field value the selected mode does not admit is well formed: it is a CONFIG_ERROR, no decode error (R87). -/

namespace Sys2Proof

/-- The range of KLEN, IVLEN and TAGLEN (30_encoding.md R86). -/
def fitsByte (n : Nat) : Bool := n < 256

/-- The range of LEN (30_encoding.md R86). -/
def fitsLen (n : Nat) : Bool := n < 65536

/-- Every field lies in the range its bits can hold. -/
def Instr.wf : Instr → Bool
  | .initCipher klen => fitsByte klen
  | .initModeEcb _ _ taglen ivlen => fitsByte taglen && fitsByte ivlen
  | .initModeCtr _ _ taglen ivlen => fitsByte taglen && fitsByte ivlen
  | .initModeOcb3 _ _ taglen ivlen => fitsByte taglen && fitsByte ivlen
  | .updateAad len => fitsLen len
  | .update len => fitsLen len
  | .doFinal len => fitsLen len

end Sys2Proof
end

