-- ==== Sys2Proof/Decode.lean ====
section
/-! DEFINITION. Decoding a 32-bit command word, total, every illegal word rejected by name (30_encoding.md R80 to R90), and the
encoder from the same formats. -/

namespace Sys2Proof

/-- `bits[hi:lo]` of a 32-bit word (00_scope.md section 5). -/
def bits (hi lo : Nat) (w : Word) : Nat := (w.toNat >>> lo) % 2 ^ (hi - lo + 1)

/-- Why a word is illegal (30_encoding.md R88). The engine reports all three alike (60_exceptions.md R275). -/
inductive IllegalWord where
  /-- OPC 0x0 or 0x6..0xF. -/
  | reservedOpcode
  /-- OPC 0x2 with MODE = 3. -/
  | reservedMode
  /-- A reserved field that is not zero. -/
  | reservedField
deriving DecidableEq, Repr

/-- What a word decodes to. -/
inductive Decoded where
  | command (i : Instr)
  | illegal (why : IllegalWord)
deriving DecidableEq, Repr

/-- The DIR bit: 0 = Encrypt, 1 = Decrypt (30_encoding.md R83). -/
def dirOfBit (b : Nat) : Dir := if b = 1 then .decrypt else .encrypt

/-- DIR as a bit (30_encoding.md R83). -/
def Dir.bit : Dir → Nat
  | .encrypt => 0
  | .decrypt => 1

/-- The format F-MODE: MODE selects the row (30_encoding.md R83, R90). -/
def decodeInitMode (w : Word) : Decoded :=
  let dir := dirOfBit (bits 25 25 w)
  let pad := bits 24 24 w == 1
  let taglen := bits 23 16 w
  let ivlen := bits 15 8 w
  if bits 27 26 w = 3 then .illegal .reservedMode
  else if bits 7 0 w ≠ 0 then .illegal .reservedField
  else if bits 27 26 w = 0 then .command (.initModeEcb dir pad taglen ivlen)
  else if bits 27 26 w = 1 then .command (.initModeCtr dir pad taglen ivlen)
  else .command (.initModeOcb3 dir pad taglen ivlen)

/-- The format F-DATA: bits[27:16] must be 0 (30_encoding.md R85). -/
def decodeData (mk : Nat → Instr) (w : Word) : Decoded :=
  if bits 27 16 w = 0 then .command (mk (bits 15 0 w)) else .illegal .reservedField

/-- The decode procedure, total on every 32-bit word (30_encoding.md R89). -/
def decode (w : Word) : Decoded :=
  if bits 31 28 w = 1 then
    if bits 27 8 w = 0 then .command (.initCipher (bits 7 0 w)) else .illegal .reservedField
  else if bits 31 28 w = 2 then decodeInitMode w
  else if bits 31 28 w = 3 then decodeData .updateAad w
  else if bits 31 28 w = 4 then decodeData .update w
  else if bits 31 28 w = 5 then decodeData .doFinal w
  else .illegal .reservedOpcode

/-- The data-in length N(w) of a word that decodes to this command (30_encoding.md R84): KLEN, IVLEN or LEN. -/
def Instr.dataLength : Instr → Nat
  | .initCipher klen => klen
  | .initModeEcb _ _ _ ivlen => ivlen
  | .initModeCtr _ _ _ ivlen => ivlen
  | .initModeOcb3 _ _ _ ivlen => ivlen
  | .updateAad len => len
  | .update len => len
  | .doFinal len => len

/-- N(w) of any word: 0 for an illegal one (30_encoding.md R84). -/
def dataInLength (w : Word) : Nat :=
  match decode w with
  | .command i => i.dataLength
  | .illegal _ => 0

/-- Format F-MODE written out (30_encoding.md R83). -/
def encodeInitMode (mode : Nat) (dir : Dir) (pad : Bool) (taglen ivlen : Nat) : Word :=
  BitVec.ofNat 32 (2 * 2 ^ 28 + mode * 2 ^ 26 + dir.bit * 2 ^ 25 + pad.toNat * 2 ^ 24 + taglen * 2 ^ 16 + ivlen * 2 ^ 8)

/-- The word of a command, from the formats of 30_encoding.md R82, R83 and R85. -/
def encode : Instr → Word
  | .initCipher klen => BitVec.ofNat 32 (1 * 2 ^ 28 + klen)
  | .initModeEcb dir pad taglen ivlen => encodeInitMode 0 dir pad taglen ivlen
  | .initModeCtr dir pad taglen ivlen => encodeInitMode 1 dir pad taglen ivlen
  | .initModeOcb3 dir pad taglen ivlen => encodeInitMode 2 dir pad taglen ivlen
  | .updateAad len => BitVec.ofNat 32 (3 * 2 ^ 28 + len)
  | .update len => BitVec.ofNat 32 (4 * 2 ^ 28 + len)
  | .doFinal len => BitVec.ofNat 32 (5 * 2 ^ 28 + len)

/-- A row of the opcode map (30_encoding.md R90): a word is the row's command exactly when `w & mask = match`. -/
structure OpcodeRow where
  mask : Word
  pattern : Word
deriving DecidableEq, Repr

/-- The row of the opcode map a command belongs to (30_encoding.md R90). -/
def Instr.row : Instr → OpcodeRow
  | .initCipher _ => ⟨0xFFFFFF00#32, 0x10000000#32⟩
  | .initModeEcb _ _ _ _ => ⟨0xFC0000FF#32, 0x20000000#32⟩
  | .initModeCtr _ _ _ _ => ⟨0xFC0000FF#32, 0x24000000#32⟩
  | .initModeOcb3 _ _ _ _ => ⟨0xFC0000FF#32, 0x28000000#32⟩
  | .updateAad _ => ⟨0xFFFF0000#32, 0x30000000#32⟩
  | .update _ => ⟨0xFFFF0000#32, 0x40000000#32⟩
  | .doFinal _ => ⟨0xFFFF0000#32, 0x50000000#32⟩

/-- The complete opcode map (30_encoding.md R90). -/
def opcodeMap : List OpcodeRow :=
  [⟨0xFFFFFF00#32, 0x10000000#32⟩, ⟨0xFC0000FF#32, 0x20000000#32⟩, ⟨0xFC0000FF#32, 0x24000000#32⟩,
   ⟨0xFC0000FF#32, 0x28000000#32⟩, ⟨0xFFFF0000#32, 0x30000000#32⟩, ⟨0xFFFF0000#32, 0x40000000#32⟩,
   ⟨0xFFFF0000#32, 0x50000000#32⟩]

/-- The word matches the row (30_encoding.md R90). -/
def OpcodeRow.matches (r : OpcodeRow) (w : Word) : Bool := w &&& r.mask == r.pattern

/-- The four bytes of a word as the host's carrier has them (20_memory.md R65; log entry 5). -/
def wordBytes (order : ByteOrder) (w : Word) : Bytes :=
  let big : Bytes :=
    [BitVec.ofNat 8 (bits 31 24 w), BitVec.ofNat 8 (bits 23 16 w), BitVec.ofNat 8 (bits 15 8 w), BitVec.ofNat 8 (bits 7 0 w)]
  match order with
  | .big => big
  | .little => big.reverse

/-- The word four carrier bytes stand for: `wordBytes` read back. -/
def wordOfBytes (order : ByteOrder) (bs : Bytes) : Word :=
  let big := match order with
    | .big => bs
    | .little => bs.reverse
  BitVec.ofNat 32 (big.foldl (fun v x => v * 256 + x.toNat) 0)

/-- The host's question: the command the decoder reads from the table's bits, every bit above `nbits` being 0. -/
def decodeTableWord (nbits w : Nat) : Option Instr :=
  match decode (BitVec.ofNat 32 (w % 2 ^ nbits)) with
  | .command i => some i
  | .illegal _ => none

end Sys2Proof
end

