-- ==== Sys2Proof/Machine/Operands.lean ====
section
/-! DEFINITION. The operands of a command: its data-in bytes, taken from the host's channel in order (00_scope.md section 5
`InBytes`, 20_memory.md R64, 30_encoding.md R84). -/

namespace Sys2Proof.Machine

/-- The next n bytes of the host's channel and what follows them; `none` when a reset or the end of what was sent comes first. -/
def takeBytes : Nat → List HostInput → Option (Bytes × List HostInput)
  | 0, input => some ([], input)
  | n + 1, .byte b :: input => (takeBytes n input).map fun r => (b :: r.1, r.2)
  | _ + 1, _ => none

/-- Bytes as the host sends them. -/
def sendBytes (bs : Bytes) : List HostInput := bs.map .byte

/-- What follows the first reset on the host's channel, if there is one (70_reset_and_hazards.md R301). -/
def afterReset : List HostInput → Option (List HostInput)
  | [] => none
  | .reset :: input => some input
  | .byte _ :: input => afterReset input

/-- A command as the host issues it: a word and its data-in (20_memory.md R60). -/
structure Command where
  word : Word
  din : Bytes
deriving DecidableEq, Repr

/-- A command is well formed only if its data-in holds exactly N(w) bytes (30_encoding.md R84). -/
def Command.wf (c : Command) : Bool := c.din.length == dataInLength c.word

/-- A command on the host's carrier: the word's four bytes, then its data-in. -/
def Command.send (order : ByteOrder) (c : Command) : List HostInput := sendBytes (wordBytes order c.word ++ c.din)

end Sys2Proof.Machine
end

