-- ==== Sys2Proof/Machine/Ops.lean ====
section
/-! DEFINITION. The operations every command shares: clearing the session, a command in progress (`Run`) with its outputs and its
cipher requests, taking an error, answering the host, reset, data-in, and fetching a command word. -/

namespace Sys2Proof.Machine

/-- `ClearSession()` (41_engine.md R112): every session register at its reset value; STATE and KEY untouched. -/
def Engine.clearSession (p : Params) (e : Engine) : Engine :=
  { Engine.reset p with session := e.session, key := e.key }

/-- A command in progress: the registers, `dout` so far, the cipher requests so far, and the error that ended it, if any. -/
structure Run where
  engine : Engine
  dout : Bytes
  requests : List CipherRequest
  err : Err
deriving DecidableEq, Repr

/-- A command at its start (41_engine.md R110: dout empty, err OK). -/
def Run.start (e : Engine) : Run := ⟨e, [], [], .ok⟩

/-- Go on unless an error has ended the command: no effect of any later byte happens (60_exceptions.md R279). -/
def Run.andThen (r : Run) (k : Run → Run) : Run :=
  match r.err with
  | .ok => k r
  | _ => r

/-- `REG <- v` for the registers. -/
def Run.modify (r : Run) (k : Engine → Engine) : Run := { r with engine := k r.engine }

/-- `OutBytes(s)` (00_scope.md section 5). -/
def Run.out (r : Run) (bs : Bytes) : Run := { r with dout := r.dout ++ bs }

/-- TAKING AN ERROR: `raise Error(code)` (60_exceptions.md R276, 00_scope.md section 5). A data error sets STATE = FAILED and keeps
every other register and the bytes already in dout; the other errors write no register of their own (the clearing that goes with
CONFIG_ERROR is written by the command before it raises, 41_engine.md R111, R113). There is no trap and nothing to return from
(60_exceptions.md R280). -/
def Run.raise (r : Run) (c : Err) : Run :=
  match c with
  | .illegalLength | .invalidPadding => { r with err := c, engine := { r.engine with session := .failed } }
  | _ => { r with err := c }

/-- The bound key as the cipher sees it; no command calls the cipher with KEY unbound (10_state.md R27). -/
def Engine.boundKey (e : Engine) : Bytes := e.key.getD []

/-- One request to the cipher: its answer, and the run with the request recorded (60_exceptions.md R285). -/
def Run.ask (p : Params) (op : CipherOp) (blk : Bytes) (r : Run) : Bytes × Run :=
  let q : CipherRequest := ⟨op, r.engine.boundKey, blk⟩
  (cipherAnswer p q, { r with requests := r.requests ++ [q] })

/-- The response to a finished command: STATUS taken after the command, outcnt = |dout| (41_engine.md R110, 20_memory.md R60). -/
def Run.response (r : Run) : Response where
  status := statusWord r.err r.engine
  outcnt := BitVec.ofNat 32 r.dout.length
  dout := r.dout

/-- The machine after a command: the registers written back, the response returned. -/
def State.answer (s : State) (r : Run) : State :=
  { s with
    engine := r.engine
    responses := s.responses ++ [r.response]
    requests := s.requests ++ r.requests }

/-- The reset input: every register at its reset value, no response (70_reset_and_hazards.md R300, R301). What the host was shown
before stays shown. `rest` is what the host sends after the reset. -/
def State.hardReset (s : State) (rest : List HostInput) : State :=
  { s with engine := Engine.reset s.params, input := rest }

/-- A command (or a command word) whose bytes are not all there: a reset abandons it (70_reset_and_hazards.md R301); without one it
is stuck (R311, 93 I11). -/
def State.starved (s : State) (why : Fault) : Host.Outcome State Fault Refusal :=
  match afterReset s.input with
  | some rest => .next (s.hardReset rest)
  | none => .fault why

/-- A whole command as one transition (00_scope.md R11): take its n data-in bytes, run it on the registers, answer. -/
def State.command (s : State) (n : Nat) (run : Params → Bytes → Engine → Run) : Host.Outcome State Fault Refusal :=
  match takeBytes n s.input with
  | some (din, rest) => .next ({ s with input := rest }.answer (run s.params din s.engine))
  | none => s.starved .awaitingDataIn

/-- An illegal word: ILLEGAL_COMMAND, no data-in consumed, no register changed (60_exceptions.md R275). -/
def State.illegalCommand (s : State) : State := s.answer ((Run.start s.engine).raise .illegalCommand)

/-- What the host's channel holds at a command boundary. -/
inductive Fetched where
  /-- Nothing was sent: the engine is idle and holds all state (60_exceptions.md R288). -/
  | idle
  /-- A word that decodes; the state is past it. -/
  | command (i : Instr) (s : State)
  /-- An illegal word; the state is past it. -/
  | illegal (s : State)
  /-- The word is not all there. -/
  | partialWord
deriving DecidableEq, Repr

/-- Take the next command word. Surplus data bytes of an earlier command are read as the next word (70_reset_and_hazards.md R311). -/
def State.fetch (s : State) : Fetched :=
  match s.input with
  | [] => .idle
  | _ :: _ =>
    match takeBytes 4 s.input with
    | none => .partialWord
    | some (bs, rest) =>
      match decode (wordOfBytes s.params.wordOrder bs) with
      | .command i => .command i { s with input := rest }
      | .illegal _ => .illegal { s with input := rest }

/-- The sessions UPDATE and DO_FINAL are accepted in, and UPDATE_AAD in OCB3 (41_engine.md R119). -/
def Session.acceptsData : Session → Bool
  | .modeConfigured | .aadAccepting | .messageAccepting => true
  | .uninit | .keyBound | .finalized | .failed => false

end Sys2Proof.Machine
end

