-- ==== Sys2Proof/Machine/InitCipher.lean ====
section
/-! DEFINITION. INIT_CIPHER (41_engine.md R111). -/

namespace Sys2Proof.Machine

/-- INIT_CIPHER on its key bytes: the session is cleared whether or not the length is accepted (41_engine.md R111). -/
def initCipherRun (p : Params) (key : Bytes) (e : Engine) : Run :=
  let r := (Run.start e).modify (Engine.clearSession p)
  if key.length ∈ p.keyLengths then r.modify fun e => { e with key := some key, session := .keyBound }
  else (r.modify fun e => { e with key := none, session := .uninit }).raise .configError

/-- INIT_CIPHER (41_engine.md R111). -/
def execInitCipher (klen : Nat) (s : State) : Host.Outcome State Fault Refusal :=
  s.command klen initCipherRun

end Sys2Proof.Machine
end

