-- ==== Sys2Proof/Machine/InitMode.lean ====
section
/-! DEFINITION. The common part of INIT_MODE (41_engine.md R113 to R115), and its ECB and CTR parts (43_ecb.md R160,
44_ctr.md R180, R181). The OCB3 part is in Machine/Ocb3Init.lean. -/

namespace Sys2Proof.Machine

/-- INIT_MODE's common part round the mode's own `init` (41_engine.md R113): the state check, the clearing of every session field
(R114), STATE = KEY_BOUND until `init` has succeeded, then the configuration. -/
def initModeRun (p : Params) (mode : Mode) (dir : Dir) (pad : Bool) (taglen : Nat) (init : Run → Run) (e : Engine) : Run :=
  if e.session = .uninit then (Run.start e).raise .sequenceError
  else
    (init ((Run.start e).modify fun e => { e.clearSession p with session := .keyBound })).andThen fun r =>
      r.modify fun e =>
        { e with
          cfgMode := mode
          cfgDir := dir
          cfgPad := pad
          cfgTaglen := BitVec.ofNat 8 taglen
          session := .modeConfigured }

/-- `InitECB` (43_ecb.md R160). -/
def initEcb (taglen ivlen : Nat) (r : Run) : Run :=
  if taglen ≠ 0 ∨ ivlen ≠ 0 then r.raise .configError else r

/-- INIT_MODE.ECB (43_ecb.md R160). -/
def execInitModeEcb (dir : Dir) (pad : Bool) (taglen ivlen : Nat) (s : State) : Host.Outcome State Fault Refusal :=
  s.command ivlen fun p iv => initModeRun p .ecb dir pad taglen (initEcb taglen iv.length)

/-- `InitCTR` (44_ctr.md R180): the IV in the most significant bytes of CTR, zeros below (R181). -/
def initCtr (p : Params) (pad : Bool) (taglen : Nat) (iv : Bytes) (r : Run) : Run :=
  if pad ∨ taglen ≠ 0 ∨ p.blockBytes < iv.length then r.raise .configError
  else r.modify fun e => { e with ctr := iv ++ zeros (p.blockBytes - iv.length) }

/-- INIT_MODE.CTR (44_ctr.md R180). -/
def execInitModeCtr (dir : Dir) (pad : Bool) (taglen ivlen : Nat) (s : State) : Host.Outcome State Fault Refusal :=
  s.command ivlen fun p iv => initModeRun p .ctr dir pad taglen (initCtr p pad taglen iv)

end Sys2Proof.Machine
end

