-- ==== Sys2Proof/Machine/Ocb3Init.lean ====
section
/-! DEFINITION. The OCB3 nonce processor: the OCB3 part of INIT_MODE (45_ocb3_nonce.md R200 to R217). -/

namespace Sys2Proof.Machine

/-- The conditions of `CheckOCB3` (45_ocb3_nonce.md R201). -/
def refusesOcb3 (b : Nat) (pad : Bool) (taglen ivlen : Nat) : Bool :=
  taglen == 0 || b < taglen || b - 1 < ivlen || pad || !(b == 16 || b == 32)

/-- `NonceBlock` (45_ocb3_nonce.md R210): zeros, one byte 0x01, the nonce; with NONCE_TAGLEN_FIELD at B = 16 the tag length in the
top 7 bits. -/
def nonceBlock (p : Params) (nonce : Bytes) (taglen : Nat) : Bytes :=
  let n := zeros (p.blockBytes - 1 - nonce.length) ++ 0x01#8 :: nonce
  if p.nonceTaglenField && p.blockBytes == 16 then
    n.set 0 (n.getD 0 0#8 ||| BitVec.ofNat 8 ((8 * taglen % 128) <<< 1))
  else n

/-- `bottom`: the low bits of the nonce block, M0 on byte B-2 and M1 on byte B-1 (45_ocb3_nonce.md R211). -/
def nonceBottom (b : Nat) (n : Bytes) : Nat :=
  ((n.getD (b - 2) 0#8 &&& (constants b).m0).toNat <<< 8) ||| (n.getD (b - 1) 0#8 &&& (constants b).m1).toNat

/-- `top`: the nonce block with those bits cleared (45_ocb3_nonce.md R212). -/
def nonceTop (b : Nat) (n : Bytes) : Bytes :=
  (n.set (b - 2) (n.getD (b - 2) 0#8 &&& ~~~(constants b).m0)).set (b - 1) (n.getD (b - 1) 0#8 &&& ~~~(constants b).m1)

/-- `stretch`, 2B bytes (45_ocb3_nonce.md R213). -/
def stretchOf (b : Nat) (ktop : Bytes) : Bytes := ktop ++ xorBytes ktop (shiftLeft ktop (constants b).shift)

/-- The initial message offset Δ0 from Ktop and bottom (45_ocb3_nonce.md R213 to R216). -/
def initialOffset (b : Nat) (ktop : Bytes) (bottom : Nat) : Bytes := cut b (stretchOf b ktop) (bottom >>> 3) (bottom &&& 7)

/-- `InitOCB3` (45_ocb3_nonce.md R200): two requests to the cipher, L* and then Ktop, whatever the direction (R217). -/
def initOcb3 (p : Params) (pad : Bool) (taglen : Nat) (nonce : Bytes) (r : Run) : Run :=
  let b := p.blockBytes
  if refusesOcb3 b pad taglen nonce.length then r.raise .configError
  else
    let lstar := r.ask p .enc (zeros b)
    let n := nonceBlock p nonce taglen
    let ktop := lstar.2.ask p .enc (nonceTop b n)
    ktop.2.modify fun e =>
      { e with
        lstar := lstar.1
        ldollar := double b lstar.1
        lt := [double b (double b lstar.1)]
        delta := initialOffset b ktop.1 (nonceBottom b n)
        deltaAad := zeros b
        checksum := zeros b
        authAcc := zeros b
        midx := 0#64
        aidx := 0#64
        abuf := [] }

/-- INIT_MODE.OCB3 (45_ocb3_nonce.md R200). -/
def execInitModeOcb3 (dir : Dir) (pad : Bool) (taglen ivlen : Nat) (s : State) : Host.Outcome State Fault Refusal :=
  s.command ivlen fun p nonce => initModeRun p .ocb3 dir pad taglen (initOcb3 p pad taglen nonce)

end Sys2Proof.Machine
end

