-- ==== Sys2Proof/Machine/Padding.lean ====
section
/-! DEFINITION. The PKCS7 padding unit (42_padding.md R150 to R155). -/

namespace Sys2Proof.Machine

/-- `Pad(src, r)` with r = |src| < b: q = b - r copies of the byte q (42_padding.md R150). -/
def pad (b : Nat) (src : Bytes) : Bytes := src ++ List.replicate (b - src.length) (BitVec.ofNat 8 (b - src.length))

/-- `Unpad(blk)`: the bytes before the padding, or `none` for INVALID_PADDING: a pad byte of 0 or above b, or a byte of the last p
that differs from p, all p of them examined (42_padding.md R152 to R154). -/
def unpad (b : Nat) (blk : Bytes) : Option Bytes :=
  let p := blk.getD (b - 1) 0#8
  if p.toNat = 0 ∨ b < p.toNat then none
  else if (blk.drop (b - p.toNat)).all (· == p) then some (blk.take (b - p.toNat))
  else none

end Sys2Proof.Machine
end

