-- ==== Sys2Proof/Machine/EcbCtr.lean ====
section
/-! DEFINITION. The per-block transforms and the Finals of ECB (43_ecb.md R161 to R165) and CTR (44_ctr.md R183 to R186). -/

namespace Sys2Proof.Machine

/-- ECB `BlockOp` (43_ecb.md R161). -/
def ecbBlock (p : Params) (blk : Bytes) (r : Run) : Bytes × Run :=
  match r.engine.cfgDir with
  | .encrypt => r.ask p .enc blk
  | .decrypt => r.ask p .dec blk

/-- CTR `BlockOp` (44_ctr.md R183): the direction is never read, and only Enc is called (R184). -/
def ctrBlock (p : Params) (blk : Bytes) (r : Run) : Bytes × Run :=
  let ks := r.ask p .enc r.engine.ctr
  (xorBytes blk ks.1, ks.2.modify fun e => { e with ctr := increment e.ctr })

/-- ECB Final, Encrypt with PKCS7: always one block (43_ecb.md R163). -/
def finalEcbEncPad (p : Params) (r : Run) : Run :=
  let y := r.ask p .enc (pad p.blockBytes r.engine.buf)
  (y.2.out y.1).modify fun e => { e with buf := [] }

/-- ECB Final, Decrypt with PKCS7 (43_ecb.md R164). -/
def finalEcbDecPad (p : Params) (r : Run) : Run :=
  if r.engine.buf.length ≠ p.blockBytes then r.raise .illegalLength
  else
    let y := r.ask p .dec r.engine.buf
    match unpad p.blockBytes y.1 with
    | none => y.2.raise .invalidPadding
    | some plain => (y.2.out plain).modify fun e => { e with buf := [] }

/-- ECB Final without padding (43_ecb.md R165). -/
def finalEcbNoPad (p : Params) (r : Run) : Run :=
  if r.engine.buf.length = 0 then r
  else if r.engine.buf.length = p.blockBytes then
    let y := ecbBlock p r.engine.buf r
    (y.2.out y.1).modify fun e => { e with buf := [] }
  else r.raise .illegalLength

/-- CTR Final (44_ctr.md R185): the first r keystream bytes; CTR is not incremented. -/
def finalCtr (p : Params) (r : Run) : Run :=
  if r.engine.buf = [] then r
  else
    let ks := r.ask p .enc r.engine.ctr
    (ks.2.out (xorBytes r.engine.buf (ks.1.take r.engine.buf.length))).modify fun e => { e with buf := [] }

end Sys2Proof.Machine
end

