-- ==== Sys2Proof/Machine/Ocb3Data.lean ====
section
/-! DEFINITION. The per-block part of OCB3: offsets, the growth of the doubling cache, AAD and message blocks
(46_ocb3_data.md R230 to R241), and the tag generator (47_ocb3_tag.md R250 to R258). -/

namespace Sys2Proof.Machine

/-- The two streams, each with its own index and offset (46_ocb3_data.md R231). -/
inductive Stream where
  | msg
  | aad
deriving DecidableEq, Repr

/-- `LT[k]`; an entry at or above LCOUNT is a free value (10_state.md R37, log entry 11). -/
def tableEntry (b : Nat) (lt : List Bytes) (k : Nat) : Bytes := lt.getD k (blkOf b (Config.invalidEntry b).toNat)

/-- n appends: `LT[LCOUNT] <- double(LT[LCOUNT-1])` (46_ocb3_data.md R232). -/
def growTable (b : Nat) : Nat → List Bytes → List Bytes
  | 0, lt => lt
  | n + 1, lt => growTable b n (lt ++ [double b (tableEntry b lt (lt.length - 1))])

/-- The loop `while LCOUNT < k + 1` (46_ocb3_data.md R231, R232). -/
def growTo (b k : Nat) (lt : List Bytes) : List Bytes := growTable b (k + 1 - lt.length) lt

/-- The stream's block index. -/
def Engine.index (e : Engine) : Stream → BitVec 64
  | .msg => e.midx
  | .aad => e.aidx

/-- `IncreaseDelta(s)` (46_ocb3_data.md R231): ILLEGAL_LENGTH before any write when the index would pass 2^64 - 1 (R233). -/
def increaseDelta (p : Params) (st : Stream) (r : Run) : Run :=
  let idx := r.engine.index st
  if idx = BitVec.allOnes 64 then r.raise .illegalLength
  else
    let k := ntz (idx + 1#64).toNat
    r.modify fun e =>
      let lt := growTo p.blockBytes k e.lt
      match st with
      | .msg => { e with midx := idx + 1#64, lt := lt, delta := xorBytes e.delta (tableEntry p.blockBytes lt k) }
      | .aad => { e with aidx := idx + 1#64, lt := lt, deltaAad := xorBytes e.deltaAad (tableEntry p.blockBytes lt k) }

/-- `AadFeed(x)` (46_ocb3_data.md R236): a full AAD block is folded at once. -/
def aadFeed (p : Params) (r : Run) (x : Byte) : Run :=
  r.andThen fun r =>
    let r := r.modify fun e => { e with abuf := e.abuf ++ [x] }
    if r.engine.abuf.length = p.blockBytes then
      (increaseDelta p .aad r).andThen fun r =>
        let y := r.ask p .enc (xorBytes r.engine.abuf r.engine.deltaAad)
        y.2.modify fun e => { e with authAcc := xorBytes e.authAcc y.1, abuf := [] }
    else r

/-- Every AAD byte of a command, in order (41_engine.md R116). -/
def aadFeedAll (p : Params) (bs : Bytes) (r : Run) : Run := bs.foldl (aadFeed p) r

/-- OCB3 `BlockOp` (46_ocb3_data.md R238, R240): the block masked before and after the cipher; the checksum tracks plaintext
whatever the direction (R239). -/
def ocb3Block (p : Params) (blk : Bytes) (r : Run) : Bytes × Run :=
  let r := increaseDelta p .msg r
  match r.err, r.engine.cfgDir with
  | .ok, .encrypt =>
    let y := r.ask p .enc (xorBytes blk r.engine.delta)
    (xorBytes y.1 r.engine.delta, y.2.modify fun e => { e with checksum := xorBytes e.checksum blk })
  | .ok, .decrypt =>
    let y := r.ask p .dec (xorBytes blk r.engine.delta)
    let plain := xorBytes y.1 r.engine.delta
    (plain, y.2.modify fun e => { e with checksum := xorBytes e.checksum plain })
  | _, _ => ([], r)

/-- Step (a) of the OCB3 Final: the AAD partial block (47_ocb3_tag.md R250, R251, R252). -/
def foldAad (p : Params) (r : Run) : Run :=
  if r.engine.abuf = [] then r
  else
    let r := r.modify fun e => { e with deltaAad := xorBytes e.deltaAad e.lstar }
    let y := r.ask p .enc (xorBytes (padOne p.blockBytes r.engine.abuf) r.engine.deltaAad)
    y.2.modify fun e => { e with authAcc := xorBytes e.authAcc y.1, abuf := [] }

/-- Step (b) of the OCB3 Final: the message partial block and its checksum (47_ocb3_tag.md R250, R253, R254). -/
def foldMessage (p : Params) (r : Run) : Run :=
  if r.engine.buf = [] then r
  else
    let r := r.modify fun e => { e with delta := xorBytes e.delta e.lstar }
    let y := r.ask p .enc r.engine.delta
    let x := xorBytes r.engine.buf (y.1.take r.engine.buf.length)
    let plain := match r.engine.cfgDir with
      | .encrypt => r.engine.buf
      | .decrypt => x
    (y.2.out x).modify fun e => { e with checksum := xorBytes e.checksum (padOne p.blockBytes plain), buf := [] }

/-- Step (c) of the OCB3 Final: the tag, its leading CFG_TAGLEN bytes (47_ocb3_tag.md R250, R255, R256). No tag is compared
(R258). -/
def emitTag (p : Params) (r : Run) : Run :=
  let r := r.modify fun e => { e with delta := xorBytes e.delta e.ldollar }
  let y := r.ask p .enc (xorBytes r.engine.checksum r.engine.delta)
  y.2.out ((xorBytes y.1 r.engine.authAcc).take r.engine.cfgTaglen.toNat)

/-- OCB3 `Final()` (47_ocb3_tag.md R250). -/
def finalOcb3 (p : Params) (r : Run) : Run := emitTag p (foldMessage p (foldAad p r))

end Sys2Proof.Machine
end

