-- ==== Sys2Proof/Machine/Streaming.lean ====
section
/-! DEFINITION. The streaming engine: block release, per-block and finalize dispatch (41_engine.md R121 to R123), and the data
commands UPDATE_AAD, UPDATE and DO_FINAL (R116 to R118). -/

namespace Sys2Proof.Machine

/-- `BlockOp(blk)` of the configured mode (41_engine.md R121). -/
def blockOp (p : Params) (blk : Bytes) (r : Run) : Bytes × Run :=
  match r.engine.cfgMode with
  | .ecb => ecbBlock p blk r
  | .ctr => ctrBlock p blk r
  | .ocb3 => ocb3Block p blk r

/-- `HoldBack()`: ECB Decrypt with PKCS7, and only that (41_engine.md R122). -/
def Engine.holdBack (e : Engine) : Bool := e.cfgMode == .ecb && e.cfgPad && e.cfgDir == .decrypt

/-- `OutBytes(BlockOp(BUF[0..B))); BUFLEN <- 0` (41_engine.md R122). -/
def release (p : Params) (r : Run) : Run :=
  let y := blockOp p r.engine.buf r
  y.2.andThen fun r => (r.out y.1).modify fun e => { e with buf := [] }

/-- The hold-back half of `Feed`: a full block is released when a further byte comes (41_engine.md R122). -/
def makeRoom (p : Params) (r : Run) : Run :=
  if r.engine.holdBack && r.engine.buf.length == p.blockBytes then release p r else r

/-- The other half of `Feed`: the byte enters BUF, and without hold-back a block that is now full is released (41_engine.md R122). -/
def pushByte (p : Params) (x : Byte) (r : Run) : Run :=
  let r := r.modify fun e => { e with buf := e.buf ++ [x] }
  if !r.engine.holdBack && r.engine.buf.length == p.blockBytes then release p r else r

/-- `Feed(x)` (41_engine.md R122). -/
def feed (p : Params) (r : Run) (x : Byte) : Run := r.andThen fun r => (makeRoom p r).andThen (pushByte p x)

/-- Every message byte of a command, in order (41_engine.md R117, R118). -/
def feedAll (p : Params) (bs : Bytes) (r : Run) : Run := bs.foldl (feed p) r

/-- `Final()` of the configured mode (41_engine.md R123). -/
def final (p : Params) (r : Run) : Run :=
  match r.engine.cfgMode, r.engine.cfgPad, r.engine.cfgDir with
  | .ecb, true, .encrypt => finalEcbEncPad p r
  | .ecb, true, .decrypt => finalEcbDecPad p r
  | .ecb, false, _ => finalEcbNoPad p r
  | .ctr, _, _ => finalCtr p r
  | .ocb3, _, _ => finalOcb3 p r

/-- UPDATE_AAD on its bytes (41_engine.md R116). -/
def updateAadRun (p : Params) (aad : Bytes) (e : Engine) : Run :=
  if e.session.acceptsData && e.cfgMode == .ocb3 then
    (aadFeedAll p aad (Run.start e)).andThen fun r =>
      r.modify fun e => { e with session := if e.session = .modeConfigured then .aadAccepting else e.session }
  else (Run.start e).raise .sequenceError

/-- UPDATE on its bytes (41_engine.md R117). -/
def updateRun (p : Params) (msg : Bytes) (e : Engine) : Run :=
  if e.session.acceptsData then
    (feedAll p msg (Run.start e)).andThen fun r => r.modify fun e => { e with session := .messageAccepting }
  else (Run.start e).raise .sequenceError

/-- DO_FINAL on its bytes (41_engine.md R118). -/
def doFinalRun (p : Params) (msg : Bytes) (e : Engine) : Run :=
  if e.session.acceptsData then
    ((feedAll p msg (Run.start e)).andThen (final p)).andThen fun r => r.modify fun e => { e with session := .finalized }
  else (Run.start e).raise .sequenceError

/-- UPDATE_AAD (41_engine.md R116, 46_ocb3_data.md R235). -/
def execUpdateAad (len : Nat) (s : State) : Host.Outcome State Fault Refusal := s.command len updateAadRun

/-- UPDATE (41_engine.md R117). -/
def execUpdate (len : Nat) (s : State) : Host.Outcome State Fault Refusal := s.command len updateRun

/-- DO_FINAL (41_engine.md R118). -/
def execDoFinal (len : Nat) (s : State) : Host.Outcome State Fault Refusal := s.command len doFinalRun

end Sys2Proof.Machine
end

