-- ==== Sys2Proof/Machine/Dispatch.lean ====
section
/-! DEFINITION. The dispatch of a decoded command to its meaning (41_engine.md R110). -/

namespace Sys2Proof.Machine

/-- One arm per row of the opcode table. -/
def exec (i : Instr) (s : State) : Host.Outcome State Fault Refusal :=
  match i with
  | .initCipher klen => Sys2Proof.Machine.execInitCipher klen s
  | .initModeEcb dir pad taglen ivlen => Sys2Proof.Machine.execInitModeEcb dir pad taglen ivlen s
  | .initModeCtr dir pad taglen ivlen => Sys2Proof.Machine.execInitModeCtr dir pad taglen ivlen s
  | .initModeOcb3 dir pad taglen ivlen => Sys2Proof.Machine.execInitModeOcb3 dir pad taglen ivlen s
  | .updateAad len => Sys2Proof.Machine.execUpdateAad len s
  | .update len => Sys2Proof.Machine.execUpdate len s
  | .doFinal len => Sys2Proof.Machine.execDoFinal len s

end Sys2Proof.Machine
end

