-- ==== Sys2Proof/Machine/Step.lean ====
section
/-! DEFINITION. One step of the machine: one whole command (00_scope.md R11, 41_engine.md R110), or a reset, or an idle step. -/

namespace Sys2Proof.Machine

/-- Fetch a command word from the host's channel and run it (41_engine.md R110). -/
def step (s : State) : Host.Outcome State Fault Refusal :=
  match s.fetch with
  | .idle => .next s
  | .command i s' => exec i s'
  | .illegal s' => .next s'.illegalCommand
  | .partialWord => s.starved .awaitingCommandWord

/-- The state whose very next step runs the command of the table's bits, on data-in of zeros: the host has sent its word and as
many zero bytes as the word asks for, before all else (log entry 9). -/
def State.withFetchWord (s : State) (nbits w : Nat) : State :=
  let word : Word := BitVec.ofNat 32 (w % 2 ^ nbits)
  { s with input := (Command.mk word (zeros (dataInLength word))).send s.params.wordOrder ++ s.input }

end Sys2Proof.Machine
end

