-- ==== Sys2Proof/Machine/Assembler.lean ====
section
/-! DEFINITION. The host's notation: the textual syntax of a command (30_encoding.md R91) and the pseudo-commands (R92). They make
commands for the host to send; the engine never sees them. -/

namespace Sys2Proof.Machine

/-- A command from its decoded form and its data-in, when the encoding holds its fields (30_encoding.md R86). -/
def assemble (i : Instr) (din : Bytes) : Option Command := if i.wf then some ⟨encode i, din⟩ else none

/-- The hex digits; a digit's value is its place. -/
def hexAlphabet : List Char := ['0', '1', '2', '3', '4', '5', '6', '7', '8', '9', 'A', 'B', 'C', 'D', 'E', 'F']

/-- The decimal digits. -/
def decimalAlphabet : List Char := hexAlphabet.take 10

/-- The value of a hex digit, of either case (log entry 14). -/
def nibble (c : Char) : Option Nat := hexAlphabet.idxOf? c.toUpper

/-- An even number of hex digits, high nibble first. -/
def hexDigits : List Char → Option Bytes
  | [] => some []
  | hi :: lo :: cs => do
    let high ← nibble hi
    let low ← nibble lo
    let rest ← hexDigits cs
    pure (BitVec.ofNat 8 (16 * high + low) :: rest)
  | [_] => none

/-- `<hex>`: hex digits, or a single `-` for the empty string. -/
def hexOperand (cs : List Char) : Option Bytes :=
  if cs = ['-'] then some [] else if cs = [] then none else hexDigits cs

/-- A decimal number, each digit read after the value of those before it. -/
def decimal (cs : List Char) : Option Nat := cs.foldlM (fun v c => (decimalAlphabet.idxOf? c).map (10 * v + ·)) 0

/-- `TAG=<bytes>`. -/
def tagOperand : List Char → Option Nat
  | 'T' :: 'A' :: 'G' :: '=' :: c :: cs => decimal (c :: cs)
  | _ => none

/-- `ENC|DEC`. -/
def dirOperand : List Char → Option Dir
  | ['E', 'N', 'C'] => some .encrypt
  | ['D', 'E', 'C'] => some .decrypt
  | _ => none

/-- A line up to its comment. -/
def beforeComment (cs : List Char) : List Char := cs.takeWhile (· ≠ ';')

/-- White space at neither end. -/
def trim (cs : List Char) : List Char := ((cs.dropWhile Char.isWhitespace).reverse.dropWhile Char.isWhitespace).reverse

/-- The parts of a text between separators. -/
def splitOn (sep : Char) : List Char → List (List Char)
  | [] => [[]]
  | c :: cs =>
    if c = sep then [] :: splitOn sep cs
    else match splitOn sep cs with
      | part :: parts => (c :: part) :: parts
      | [] => [[c]]

/-- The operands of `INIT_MODE` (30_encoding.md R91): an omitted `TAG=` is TAGLEN = 0; PAD is 1 exactly when `PKCS7` is there. -/
def initModeLine : List (List Char) → Option Command
  | [['E', 'C', 'B'], d] => do assemble (.initModeEcb (← dirOperand d) false 0 0) []
  | [['E', 'C', 'B'], d, ['P', 'K', 'C', 'S', '7']] => do assemble (.initModeEcb (← dirOperand d) true 0 0) []
  | [['C', 'T', 'R'], d, x] => do
    let iv ← hexOperand x
    assemble (.initModeCtr (← dirOperand d) false 0 iv.length) iv
  | [['O', 'C', 'B', '3'], d, x] => do
    let nonce ← hexOperand x
    assemble (.initModeOcb3 (← dirOperand d) false 0 nonce.length) nonce
  | [['O', 'C', 'B', '3'], d, t, x] => do
    let nonce ← hexOperand x
    assemble (.initModeOcb3 (← dirOperand d) false (← tagOperand t) nonce.length) nonce
  | _ => none

/-- A mnemonic and its operands (30_encoding.md R91). -/
def commandLine (mnemonic : List Char) (operands : List (List Char)) : Option Command :=
  if mnemonic = "INIT_MODE".toList then initModeLine operands
  else if mnemonic = "DO_FINAL".toList ∧ operands = [[]] then assemble (.doFinal 0) []
  else
    match operands with
    | [x] => do
      let data ← hexOperand x
      if mnemonic = "INIT_CIPHER".toList then assemble (.initCipher data.length) data
      else if mnemonic = "UPDATE_AAD".toList then assemble (.updateAad data.length) data
      else if mnemonic = "UPDATE".toList then assemble (.update data.length) data
      else if mnemonic = "DO_FINAL".toList then assemble (.doFinal data.length) data
      else none
    | _ => none

/-- One line: a command, or nothing but white space and a comment (30_encoding.md R91). The outer `none` is a line that is neither. -/
def parseLine (line : List Char) : Option (Option Command) :=
  let text := trim (beforeComment line)
  if text = [] then some none
  else
    let mnemonic := text.takeWhile (!·.isWhitespace)
    let operands := (splitOn ',' (text.dropWhile (!·.isWhitespace))).map trim
    (commandLine mnemonic operands).map some

/-- A program: one command per line (30_encoding.md R91). -/
def parseProgram (text : List Char) : Option (List Command) :=
  ((splitOn '\n' text).mapM parseLine).map fun cs => cs.filterMap id

/-- Data cut into commands of at most 65535 bytes: all parts but the last, and the last (30_encoding.md R92). -/
def splitData : Nat → Bytes → List Bytes × Bytes
  | 0, bs => ([], bs)
  | fuel + 1, bs =>
    if bs.length ≤ 65535 then ([], bs)
    else
      let r := splitData fuel (bs.drop 65535)
      (bs.take 65535 :: r.1, r.2)

/-- `DO_FINAL data`, after UPDATE commands when it is too long for one (30_encoding.md R92). -/
def finalCommands (data : Bytes) : List Command :=
  let parts := splitData data.length data
  parts.1.map (fun d => ⟨encode (.update d.length), d⟩) ++ [⟨encode (.doFinal parts.2.length), parts.2⟩]

/-- `UPDATE_AAD aad`, omitted when aad is empty, in several commands when it is too long for one (30_encoding.md R92). -/
def aadCommands (aad : Bytes) : List Command :=
  let parts := splitData aad.length aad
  if aad = [] then [] else (parts.1 ++ [parts.2]).map fun d => ⟨encode (.updateAad d.length), d⟩

/-- The pseudo-commands (30_encoding.md R92). -/
inductive Pseudo where
  | final
  | seal (key nonce aad msg : Bytes) (tag : Nat)
  | unseal (key nonce aad ct : Bytes) (tag : Nat)
  | ctrXor (key iv data : Bytes)
  | ecbPad (key data : Bytes)
deriving DecidableEq, Repr

/-- The first command of an expansion, `INIT_CIPHER key`, and after it `INIT_MODE` with its operands: none when a field of either
exceeds what its bits hold. -/
def sessionCommands (key : Bytes) (mode : Instr) (iv : Bytes) : Option (List Command) := do
  pure [← assemble (.initCipher key.length) key, ← assemble mode iv]

/-- The host sequence a pseudo-command stands for (30_encoding.md R92); `unseal` is the spec's OPEN. A key, IV or nonce longer than
255 bytes, or a TAG above 255, has no encoding (R86), and R92 gives the pseudo-command no expansion there.
DESIGN CHOICE, log entry 19: it has none in the model either. -/
def Pseudo.expand : Pseudo → Option (List Command)
  | .final => some (finalCommands [])
  | .seal key nonce aad msg tag => do
    let session ← sessionCommands key (.initModeOcb3 .encrypt false tag nonce.length) nonce
    pure (session ++ aadCommands aad ++ finalCommands msg)
  | .unseal key nonce aad ct tag => do
    let session ← sessionCommands key (.initModeOcb3 .decrypt false tag nonce.length) nonce
    pure (session ++ aadCommands aad ++ finalCommands ct)
  | .ctrXor key iv data => do
    let session ← sessionCommands key (.initModeCtr .encrypt false 0 iv.length) iv
    pure (session ++ finalCommands data)
  | .ecbPad key data => do
    let session ← sessionCommands key (.initModeEcb .encrypt true 0 0) []
    pure (session ++ finalCommands data)

end Sys2Proof.Machine
end

