-- ==== Sys2Proof/Safety.lean ====
section
/-! DEFINITION. The terms the claims use: runs as the host makes them, what a run shows, the invariants the rules keep, and the
closed forms of the spec's derived rules (10_state.md R30, R31, R41, R42, 41_engine.md R124 to R127, 44 R187, 46 R234, 47 R260). -/

namespace Sys2Proof.Machine

/-! ### Runs -/

/-- The host issues one command with exactly its data-in, the machine having consumed all it sent before. -/
def issue (i : Instr) (din : Bytes) (s : State) : Host.Outcome State Fault Refusal := exec i { s with input := sendBytes din }

/-- The host issues commands one at a time, each after the response to the one before (70_reset_and_hazards.md R310). -/
def issueAll : List (Instr × Bytes) → State → Host.Outcome State Fault Refusal
  | [], s => .next s
  | c :: cs, s =>
    match issue c.1 c.2 s with
    | .next t => issueAll cs t
    | .fault f => .fault f
    | .refused r => .refused r

/-- The responses of t that s had not yet. -/
def responsesSince (s t : State) : List Response := t.responses.drop s.responses.length

/-- A session's output: the douts in order (70_reset_and_hazards.md R318). -/
def outputSince (s t : State) : Bytes := (responsesSince s t).flatMap Response.dout

/-- The ERR field of a response's STATUS (10_state.md R28). -/
def Response.err (r : Response) : Nat := bits 7 4 r.status

/-- No command between s and t ended in an error. -/
def allOk (s t : State) : Prop := ∀ r ∈ responsesSince s t, r.err = 0

/-- The state after one command: registers `e`, response with error `err` and output `dout`, cipher requests `asked`, and `rest`
left of what the host sent. Every other field is that of s. -/
def State.answered (s : State) (rest : List HostInput) (e : Engine) (err : Err) (dout : Bytes) (asked : List CipherRequest) : State :=
  { s with
    input := rest
    engine := e
    responses := s.responses ++ [⟨statusWord err e, BitVec.ofNat 32 dout.length, dout⟩]
    requests := s.requests ++ asked }

/-- A run of the machine that no fault has stopped: the host has kept its duties (70_reset_and_hazards.md R310, R311). -/
def runsSafely (n : Nat) (s : State) : Prop := ∃ t : State, Host.Core.run Sys2Proof.core n s = .next t

/-! ### Invariants -/

/-- KEY is bound exactly outside UNINIT, with an accepted length (10_state.md R22, R27). -/
structure Engine.KeyInv (p : Params) (e : Engine) : Prop where
  bound : e.session = .uninit ↔ e.key = none
  length : ∀ k, e.key = some k → k.length ∈ p.keyLengths

/-- Every block register holds exactly B bytes, the table at most 64 of them (10_state.md R32 to R39). -/
structure Engine.WidthInv (p : Params) (e : Engine) : Prop where
  ctr : e.ctr.length = p.blockBytes
  lstar : e.lstar.length = p.blockBytes
  ldollar : e.ldollar.length = p.blockBytes
  delta : e.delta.length = p.blockBytes
  deltaAad : e.deltaAad.length = p.blockBytes
  checksum : e.checksum.length = p.blockBytes
  authAcc : e.authAcc.length = p.blockBytes
  entries : ∀ x ∈ e.lt, x.length = p.blockBytes
  lcount : e.lt.length ≤ 64

/-- The ranges of BUFLEN and ABUFLEN (10_state.md R30, R31): below B, but for a held-back block and in FAILED. -/
structure Engine.BufferInv (p : Params) (e : Engine) : Prop where
  buf : e.buf.length ≤ p.blockBytes
  bufEager : e.session ≠ .failed → e.holdBack = false → e.buf.length < p.blockBytes
  abuf : e.abuf.length ≤ p.blockBytes
  abufEager : e.session ≠ .failed → e.abuf.length < p.blockBytes

/-- The configuration registers are those of one INIT_MODE, and registers the mode does not use keep their reset values
(10_state.md R25, R26, 41_engine.md R112, R114). -/
structure Engine.ConfigInv (p : Params) (e : Engine) : Prop where
  padOnlyEcb : e.cfgPad = true → e.cfgMode = .ecb
  taglenOcb3 : e.cfgMode = .ocb3 → 1 ≤ e.cfgTaglen.toNat ∧ e.cfgTaglen.toNat ≤ p.blockBytes
  taglenElse : e.cfgMode ≠ .ocb3 → e.cfgTaglen = 0#8
  noSession : e.session = .uninit ∨ e.session = .keyBound → e = { Engine.reset p with session := e.session, key := e.key }
  ctrElse : e.cfgMode ≠ .ctr → e.ctr = zeros p.blockBytes
  ocb3Else : e.cfgMode ≠ .ocb3 →
    e.lstar = zeros p.blockBytes ∧ e.ldollar = zeros p.blockBytes ∧ e.delta = zeros p.blockBytes ∧
    e.deltaAad = zeros p.blockBytes ∧ e.checksum = zeros p.blockBytes ∧ e.authAcc = zeros p.blockBytes ∧
    e.lt = [] ∧ e.abuf = [] ∧ e.midx = 0#64 ∧ e.aidx = 0#64

/-- `L[k] = double^(k+2)(L*)` (10_state.md R41). -/
def maskL (b : Nat) (lstar : Bytes) (k : Nat) : Bytes := (double b)^[k + 2] lstar

/-- The first n masks. -/
def masks (b : Nat) (lstar : Bytes) (n : Nat) : List Bytes := (List.range n).map (maskL b lstar)

/-- The doubling cache in an OCB3 session is a function of L* and the block indexes (10_state.md R41, R42). -/
structure Engine.TableInv (p : Params) (e : Engine) : Prop where
  size : e.cfgMode = .ocb3 → p.blockBytes = 16 ∨ p.blockBytes = 32
  ldollar : e.cfgMode = .ocb3 → e.ldollar = double p.blockBytes e.lstar
  entries : e.cfgMode = .ocb3 → e.lt = masks p.blockBytes e.lstar e.lt.length
  nonempty : e.cfgMode = .ocb3 → 1 ≤ e.lt.length
  covers : e.cfgMode = .ocb3 → ∀ i, 1 ≤ i → i ≤ max e.midx.toNat e.aidx.toNat → ntz i + 1 ≤ e.lt.length
  exact : e.cfgMode = .ocb3 →
    e.lt.length = 1 ∨ ∃ i, 1 ≤ i ∧ i ≤ max e.midx.toNat e.aidx.toNat ∧ e.lt.length = ntz i + 1

/-! ### Closed forms -/

/-- The cipher function of a direction (43_ecb.md R161). -/
def cipherOf (p : Params) (dir : Dir) (key blk : Bytes) : Bytes :=
  match dir with
  | .encrypt => cipherEnc p key blk
  | .decrypt => cipherDec p key blk

/-- The cipher request of a direction. -/
def opOf : Dir → CipherOp
  | .encrypt => .enc
  | .decrypt => .dec

/-- Block i of a text cut into b-byte blocks (20_memory.md R64). -/
def blockAt (b : Nat) (text : Bytes) (i : Nat) : Bytes := (text.drop (b * i)).take b

/-- How many blocks a text of `len` bytes releases under the two policies (41_engine.md R122, 43_ecb.md R162):
`floor(len/B)`, and `max(0, ceil(len/B) - 1)` with hold-back. -/
def releasedBlocks (hold : Bool) (b len : Nat) : Nat := if hold then (len - 1) / b else len / b

/-- What n released blocks leave in the buffer. -/
def remainder (b : Nat) (text : Bytes) (n : Nat) : Bytes := text.drop (b * n)

/-- The counter i blocks on, modulo 2^(8B) (44_ctr.md R182, R187). -/
def counterAt (b : Nat) (ctr : Bytes) (i : Nat) : Bytes := blkOf b (intOf ctr + i)

/-- An offset n blocks on from block index idx (46_ocb3_data.md R234). -/
def offsetFrom (b : Nat) (lstar base : Bytes) (idx : Nat) : Nat → Bytes
  | 0 => base
  | n + 1 => xorBytes (offsetFrom b lstar base idx n) (maskL b lstar (ntz (idx + n + 1)))

/-- LCOUNT n blocks on from block index idx (46_ocb3_data.md R232). -/
def tableLength (len idx : Nat) : Nat → Nat
  | 0 => len
  | n + 1 => max (tableLength len idx n) (ntz (idx + n + 1) + 1)

/-- The XOR of f 0, …, f (n-1) into a block. -/
def xorUpTo (base : Bytes) (f : Nat → Bytes) : Nat → Bytes
  | 0 => base
  | n + 1 => xorBytes (xorUpTo base f n) (f n)

/-- The OCB3 output of a block under an offset (46_ocb3_data.md R238, R240). -/
def ocb3Out (p : Params) (dir : Dir) (key offset blk : Bytes) : Bytes :=
  xorBytes (cipherOf p dir key (xorBytes blk offset)) offset

/-- The plaintext of a block: the input when encrypting, the output when decrypting (46_ocb3_data.md R239). -/
def plainOf (dir : Dir) (input output : Bytes) : Bytes :=
  match dir with
  | .encrypt => input
  | .decrypt => output

/-- The AAD part of the tag: every full block and the padded remainder (47_ocb3_tag.md R260). -/
def ocb3Sum (p : Params) (key lstar aad : Bytes) : Bytes :=
  let b := p.blockBytes
  let a := aad.length / b
  let off := offsetFrom b lstar (zeros b) 0
  let full := xorUpTo (zeros b) (fun i => cipherEnc p key (xorBytes (blockAt b aad i) (off (i + 1)))) a
  let part := remainder b aad a
  if part = [] then full else xorBytes full (cipherEnc p key (xorBytes (padOne b part) (xorBytes (off a) lstar)))

/-- The message output of a whole OCB3 session: blocks, then the partial block (46_ocb3_data.md R238, R240, 47_ocb3_tag.md
R253). -/
def ocb3Text (p : Params) (dir : Dir) (key lstar delta0 msg : Bytes) : Bytes :=
  let b := p.blockBytes
  let m := msg.length / b
  let off := offsetFrom b lstar delta0 0
  let part := remainder b msg m
  (List.range m).flatMap (fun i => ocb3Out p dir key (off (i + 1)) (blockAt b msg i)) ++
    xorBytes part ((cipherEnc p key (xorBytes (off m) lstar)).take part.length)

/-- The plaintext checksum of a whole OCB3 session (47_ocb3_tag.md R260), from the plaintext. -/
def ocb3Checksum (b : Nat) (plain : Bytes) : Bytes :=
  let m := plain.length / b
  let part := remainder b plain m
  let full := xorUpTo (zeros b) (blockAt b plain) m
  if part = [] then full else xorBytes full (padOne b part)

/-- The tag of a whole OCB3 session before truncation (47_ocb3_tag.md R260). -/
def ocb3Tag (p : Params) (key lstar delta0 aad plain : Bytes) : Bytes :=
  let b := p.blockBytes
  let m := plain.length / b
  let offM := offsetFrom b lstar delta0 0 m
  let offT := xorBytes (if remainder b plain m = [] then offM else xorBytes offM lstar) (double b lstar)
  xorBytes (cipherEnc p key (xorBytes (ocb3Checksum b plain) offT)) (ocb3Sum p key lstar aad)

/-- The low bits of the nonce block that the masks select: 6 at B = 16, 8 at B = 32 (45_ocb3_nonce.md R202, R211). -/
def bottomModulus (b : Nat) : Nat := if b = 16 then 64 else 256

/-- SHIFT (45_ocb3_nonce.md R202). -/
def shiftBits (b : Nat) : Nat := if b = 16 then 8 else 1

/-- Δ0 from the nonce block, by integers: the B bytes of stretch from bit position bottom on (45_ocb3_nonce.md R211 to R216). -/
def delta0 (p : Params) (key n : Bytes) : Bytes :=
  let b := p.blockBytes
  let bottom := intOf n % bottomModulus b
  let ktop := intOf (cipherEnc p key (blkOf b (intOf n - bottom)))
  let stretch := ktop * 2 ^ (8 * b) + (ktop ^^^ (ktop <<< shiftBits b) % 2 ^ (8 * b))
  blkOf b ((stretch >>> (8 * b - bottom)) % 2 ^ (8 * b))

end Sys2Proof.Machine
end

