-- ==== Sys2Proof/Certificates/Slice0/Obligations.lean ====
section
/-! DEFINITION. The statements for the provers. Each is a rule of spec/ (or a consequence of several) about the machine: its docstring
names the rule. A state's command data is always written `sendBytes din ++ rest`: the data-in of the command, then whatever else the
host has sent (that anything may follow before the response is log entry 5). `State.answered` fixes the whole next state, so every result statement is a frame too. -/

open Sys2Proof Sys2Proof.Machine

/-! ### Encoding -/

/-- 30_encoding.md R82 to R90: no bit of an encoding is dropped. -/
def Obligations.EncodedCommandsDecodeBack : Prop :=
  ∀ i : Instr, i.wf = true → decode (encode i) = .command i

/-- 30_encoding.md R89: every word that decodes is the encoding of a well-formed command, and of one only. -/
def Obligations.DecodedWordsEncodeBack : Prop :=
  ∀ (w : Word) (i : Instr), decode w = .command i → i.wf = true ∧ encode i = w

/-- 30_encoding.md R90: a word is the command of a row exactly when `(w & mask) = match`; the rows do not overlap. -/
def Obligations.DecodingFollowsOpcodeMap : Prop :=
  ∀ w : Word,
    (∀ i, decode w = .command i → i.row ∈ opcodeMap ∧ w &&& i.row.mask = i.row.pattern) ∧
    (∀ r ∈ opcodeMap, w &&& r.mask = r.pattern → ∃ i, decode w = .command i ∧ i.row = r) ∧
    (∀ r ∈ opcodeMap, ∀ r' ∈ opcodeMap, w &&& r.mask = r.pattern → w &&& r'.mask = r'.pattern → r = r')

/-- 30_encoding.md R88: when a word decodes. -/
def Obligations.LegalWordsAreExactlyThese : Prop :=
  ∀ w : Word,
    (∃ i, decode w = .command i) ↔
      (bits 31 28 w = 1 ∧ bits 27 8 w = 0) ∨
      (bits 31 28 w = 2 ∧ bits 27 26 w ≠ 3 ∧ bits 7 0 w = 0) ∨
      ((bits 31 28 w = 3 ∨ bits 31 28 w = 4 ∨ bits 31 28 w = 5) ∧ bits 27 16 w = 0)

/-- Words the spec itself writes out: 30_encoding.md R91, 41_engine.md R111, R116, R118, 43 R160, 44 R180, 95 V-ENG-15. -/
def Obligations.SpecWordsDecode : Prop :=
  decode 0x10000010#32 = .command (.initCipher 16) ∧
  decode 0x21000000#32 = .command (.initModeEcb .encrypt true 0 0) ∧
  decode 0x24001000#32 = .command (.initModeCtr .encrypt false 0 16) ∧
  decode 0x2A100C00#32 = .command (.initModeOcb3 .decrypt false 16 12) ∧
  decode 0x30000008#32 = .command (.updateAad 8) ∧
  decode 0x40000020#32 = .command (.update 32) ∧
  decode 0x50000008#32 = .command (.doFinal 8) ∧
  decode 0x2C000000#32 = .illegal .reservedMode

/-- 10_state.md R28: every field of the STATUS word. -/
def Obligations.StatusWordFields : Prop :=
  ∀ (err : Err) (e : Engine),
    let w := statusWord err e
    bits 2 0 w = e.session.code ∧ bits 3 3 w = 0 ∧ bits 7 4 w = err.code ∧ bits 9 8 w = e.cfgMode.code ∧
    bits 10 10 w = dirCode e.cfgDir ∧ bits 11 11 w = e.cfgPad.toNat ∧ bits 15 12 w = 0 ∧
    bits 23 16 w = e.cfgTaglen.toNat ∧ bits 31 24 w = e.buflen.toNat

/-! ### Steps, reset and the host's channel -/

/-- 41_engine.md R110: a step runs the decoded command, past its four bytes. The byte order on the carrier is the model's
parameter (log entry 5). -/
def Obligations.StepRunsDecodedCommand : Prop :=
  ∀ (s : State) (w : Word) (i : Instr) (rest : List HostInput),
    s.input = sendBytes (wordBytes s.params.wordOrder w) ++ rest → decode w = .command i →
    step s = exec i { s with input := rest }

/-- 60_exceptions.md R275: an illegal word is answered, consumes no data-in and changes no register. -/
def Obligations.IllegalWordIsAnswered : Prop :=
  ∀ (s : State) (w : Word) (why : IllegalWord) (rest : List HostInput),
    s.input = sendBytes (wordBytes s.params.wordOrder w) ++ rest → decode w = .illegal why →
    step s = .next (s.answered rest s.engine .illegalCommand [] [])

/-- 60_exceptions.md R288, "Between commands the engine is idle and holds all state". An idle step is the model's (log entry 7). -/
def Obligations.IdleEngineHoldsState : Prop :=
  ∀ s : State, s.input = [] → step s = .next s

/-- 10_state.md R43: the registers after reset, for any parameters. -/
def Obligations.ResetRegisters : Prop :=
  ∀ p : Params,
    let e := Engine.reset p
    let zero := List.replicate p.blockBytes 0#8
    e.session.code = 0 ∧ e.cfgMode.code = 0 ∧ dirCode e.cfgDir = 0 ∧ e.cfgPad = false ∧ e.cfgTaglen = 0#8 ∧
    e.key = none ∧ e.klen = 0 ∧ e.buf = [] ∧ e.buflen = 0#8 ∧ e.abuf = [] ∧ e.abuflen = 0#8 ∧
    e.ctr = zero ∧ e.lstar = zero ∧ e.ldollar = zero ∧ e.delta = zero ∧ e.deltaAad = zero ∧ e.checksum = zero ∧
    e.authAcc = zero ∧ e.lcount = 0#7 ∧ e.midx = 0#64 ∧ e.aidx = 0#64

/-- 70_reset_and_hazards.md R300, R301: a reset before a command is complete abandons it: the reset registers, no response, nothing
of the command left. -/
def Obligations.ResetAbandonsCommand : Prop :=
  ∀ (s : State) (sent : Bytes) (rest : List HostInput),
    s.input = sendBytes sent ++ .reset :: rest →
    (sent.length < 4 ∨
      ∃ w i d, sent = wordBytes s.params.wordOrder w ++ d ∧ decode w = .command i ∧ d.length < i.dataLength) →
    step s = .next { s with engine := Engine.reset s.params, input := rest }

/-- 70_reset_and_hazards.md R311 and 93 I11: with too few data-in bytes and no reset the command is stuck, not finished and not
failed. -/
def Obligations.ShortDataLeavesCommandStuck : Prop :=
  ∀ (s : State) (w : Word) (i : Instr) (d : Bytes),
    s.input = sendBytes (wordBytes s.params.wordOrder w ++ d) → decode w = .command i → d.length < i.dataLength →
    step s = .fault .awaitingDataIn

/-- 70_reset_and_hazards.md R302: after reset every command but INIT_CIPHER answers SEQUENCE_ERROR (STATUS 0x00000040), and an
illegal word ILLEGAL_COMMAND (STATUS 0x00000050). -/
def Obligations.AfterResetOnlyInitCipherSucceeds : Prop :=
  ∀ (p : Params) (din : Bytes) (rest : List HostInput),
    (∀ i : Instr, (∀ k, i ≠ .initCipher k) → din.length = i.dataLength →
      exec i { State.resetWith p with input := sendBytes din ++ rest } =
        .next { State.resetWith p with input := rest, responses := [⟨0x00000040#32, 0#32, []⟩] }) ∧
    (∀ w why, decode w = .illegal why →
      step { State.resetWith p with input := sendBytes (wordBytes p.wordOrder w) ++ rest } =
        .next { State.resetWith p with input := rest, responses := [⟨0x00000050#32, 0#32, []⟩] }) ∧
    (∀ key : Bytes, key.length ∈ p.keyLengths →
      exec (.initCipher key.length) { State.resetWith p with input := sendBytes key ++ rest } =
        .next { State.resetWith p with
          engine := { Engine.reset p with session := .keyBound, key := some key }
          input := rest
          responses := [⟨0x00000001#32, 0#32, []⟩] })

/-- 70_reset_and_hazards.md R315 and 20_memory.md R71: every command whose data-in is fully sent completes; responses come in
command order, one per command. With two or more commands already on the channel this speaks of a host that breaks R310 too: the
spec gives the engine no move for a command issued early, and that the model serves it in order is its own choice (log entry 5). -/
def Obligations.EveryCommandIsAnswered : Prop :=
  ∀ (s : State) (cs : List Command) (rest : List HostInput),
    (∀ c ∈ cs, c.wf = true) → s.input = cs.flatMap (Command.send s.params.wordOrder) ++ rest →
    ∃ t : State, Host.Core.run Sys2Proof.core cs.length s = .next t ∧ t.input = rest ∧
      s.responses <+: t.responses ∧ t.responses.length = s.responses.length + cs.length

/-- The parameters are no state (10_state.md R20), and what the host was shown stays shown: both are the model's own fields (log
entries 1, 12). -/
def Obligations.StepKeepsParametersAndResponses : Prop :=
  ∀ s t : State, step s = .next t → t.params = s.params ∧ s.responses <+: t.responses ∧ s.requests <+: t.requests

/-! ### INIT_CIPHER and INIT_MODE -/

/-- 41_engine.md R111: in every state, a key of an accepted length is bound and the session cleared. -/
def Obligations.InitCipherBindsKey : Prop :=
  ∀ (s : State) (key : Bytes) (rest : List HostInput),
    key.length ∈ s.params.keyLengths → s.input = sendBytes key ++ rest →
    exec (.initCipher key.length) s =
      .next (s.answered rest { Engine.reset s.params with session := .keyBound, key := some key } .ok [] [])

/-- 41_engine.md R111, 60_exceptions.md R276: any other length unbinds the key and clears everything. -/
def Obligations.InitCipherRefusesKeyLength : Prop :=
  ∀ (s : State) (key : Bytes) (rest : List HostInput),
    key.length ∉ s.params.keyLengths → s.input = sendBytes key ++ rest →
    exec (.initCipher key.length) s = .next (s.answered rest (Engine.reset s.params) .configError [] [])

/-- 41_engine.md R113, R119, 60_exceptions.md R274: INIT_MODE in UNINIT is out of sequence, whatever its fields. -/
def Obligations.InitModeNeedsKey : Prop :=
  ∀ (s : State) (dir : Dir) (pad : Bool) (taglen : Nat) (iv : Bytes) (rest : List HostInput),
    s.engine.session = .uninit → s.input = sendBytes iv ++ rest →
    exec (.initModeEcb dir pad taglen iv.length) s = .next (s.answered rest s.engine .sequenceError [] []) ∧
    exec (.initModeCtr dir pad taglen iv.length) s = .next (s.answered rest s.engine .sequenceError [] []) ∧
    exec (.initModeOcb3 dir pad taglen iv.length) s = .next (s.answered rest s.engine .sequenceError [] [])

/-- 43_ecb.md R160, 41_engine.md R113, R114. -/
def Obligations.InitModeEcbConfigures : Prop :=
  ∀ (s : State) (dir : Dir) (pad : Bool),
    s.engine.session ≠ .uninit →
    exec (.initModeEcb dir pad 0 0) s =
      .next (s.answered s.input
        { Engine.reset s.params with session := .modeConfigured, key := s.engine.key, cfgMode := .ecb, cfgDir := dir, cfgPad := pad }
        .ok [] [])

/-- 44_ctr.md R180, R181, 41_engine.md R113, R114: the IV in the most significant bytes of the counter. -/
def Obligations.InitModeCtrConfigures : Prop :=
  ∀ (s : State) (dir : Dir) (iv : Bytes) (rest : List HostInput),
    s.engine.session ≠ .uninit → iv.length ≤ s.params.blockBytes → s.input = sendBytes iv ++ rest →
    ∃ ctr : Bytes, ctr.length = s.params.blockBytes ∧ ctr.take iv.length = iv ∧
      intOf ctr = intOf iv * 2 ^ (8 * (s.params.blockBytes - iv.length)) ∧
      exec (.initModeCtr dir false 0 iv.length) s =
        .next (s.answered rest
          { Engine.reset s.params with
            session := .modeConfigured, key := s.engine.key, cfgMode := .ctr, cfgDir := dir, ctr := ctr }
          .ok [] [])

/-- 45_ocb3_nonce.md R200 to R217, 41_engine.md R113, R114: L*, L$, L[0] and Δ0. The nonce block N is given as an integer, bottom
as its value modulo 64 (B = 16) or 256 (B = 32), and Δ0 as the B bytes of stretch from bit position bottom on (R215). The two
cipher requests are Enc(0^B) and Enc(top), in that order, in both directions (R217). -/
def Obligations.InitModeOcb3Configures : Prop :=
  ∀ (s : State) (dir : Dir) (taglen : Nat) (nonce : Bytes) (rest : List HostInput),
    let p := s.params
    let b := p.blockBytes
    let key := s.engine.boundKey
    let n := nonceBlock p nonce taglen
    let lstar := cipherEnc p key (zeros b)
    s.engine.session ≠ .uninit → b = 16 ∨ b = 32 → 1 ≤ taglen → taglen ≤ b → nonce.length ≤ b - 1 →
    s.input = sendBytes nonce ++ rest →
    n.length = b ∧ (p.nonceTaglenField = false → n = zeros (b - 1 - nonce.length) ++ 0x01#8 :: nonce) ∧
    exec (.initModeOcb3 dir false taglen nonce.length) s =
      .next (s.answered rest
        { Engine.reset p with
          session := .modeConfigured
          key := s.engine.key
          cfgMode := .ocb3
          cfgDir := dir
          cfgTaglen := BitVec.ofNat 8 taglen
          lstar := lstar
          ldollar := double b lstar
          lt := [double b (double b lstar)]
          delta := delta0 p key n }
        .ok [] [⟨.enc, key, zeros b⟩, ⟨.enc, key, blkOf b (intOf n - intOf n % bottomModulus b)⟩])

/-- 60_exceptions.md R271, R276 with 43 R160, 44 R180, 45 R201: the refused configurations clear the session, keep the key and leave
KEY_BOUND. -/
def Obligations.InitModeConfigErrors : Prop :=
  ∀ (s : State) (dir : Dir) (pad : Bool) (taglen : Nat) (iv : Bytes) (rest : List HostInput),
    let b := s.params.blockBytes
    let refused := Host.Outcome.next (φ := Fault) (ρ := Refusal)
      (s.answered rest { Engine.reset s.params with session := .keyBound, key := s.engine.key } .configError [] [])
    s.engine.session ≠ .uninit → s.input = sendBytes iv ++ rest →
    (taglen ≠ 0 ∨ iv.length ≠ 0 → exec (.initModeEcb dir pad taglen iv.length) s = refused) ∧
    (pad = true ∨ taglen ≠ 0 ∨ b < iv.length → exec (.initModeCtr dir pad taglen iv.length) s = refused) ∧
    (taglen = 0 ∨ b < taglen ∨ b - 1 < iv.length ∨ pad = true ∨ (b ≠ 16 ∧ b ≠ 32) →
      exec (.initModeOcb3 dir pad taglen iv.length) s = refused)

/-! ### The data commands -/

/-- 41_engine.md R119, 60_exceptions.md R274: data commands outside MODE_CONFIGURED, AAD_ACCEPTING and MESSAGE_ACCEPTING, and
UPDATE_AAD in an ECB or CTR session, change nothing and discard their data-in. -/
def Obligations.DataCommandsOutOfSequence : Prop :=
  ∀ (s : State) (din : Bytes) (rest : List HostInput),
    let refused := Host.Outcome.next (φ := Fault) (ρ := Refusal) (s.answered rest s.engine .sequenceError [] [])
    s.input = sendBytes din ++ rest →
    (s.engine.session = .uninit ∨ s.engine.session = .keyBound ∨ s.engine.session = .finalized ∨ s.engine.session = .failed →
      exec (.updateAad din.length) s = refused ∧ exec (.update din.length) s = refused ∧ exec (.doFinal din.length) s = refused) ∧
    (s.engine.cfgMode ≠ .ocb3 → exec (.updateAad din.length) s = refused)

/-- 43_ecb.md R161, R162, 41_engine.md R117, R122: UPDATE in ECB, under both release policies. -/
def Obligations.UpdateEcbReleasesBlocks : Prop :=
  ∀ (s : State) (msg : Bytes) (rest : List HostInput),
    let p := s.params
    let e := s.engine
    let b := p.blockBytes
    let text := e.buf ++ msg
    let n := releasedBlocks e.holdBack b text.length
    p.Wf → e.BufferInv p → e.session.acceptsData = true → e.cfgMode = .ecb → s.input = sendBytes msg ++ rest →
    exec (.update msg.length) s =
      .next (s.answered rest { e with session := .messageAccepting, buf := remainder b text n } .ok
        ((List.range n).flatMap fun i => cipherOf p e.cfgDir e.boundKey (blockAt b text i))
        ((List.range n).map fun i => ⟨opOf e.cfgDir, e.boundKey, blockAt b text i⟩))

/-- 44_ctr.md R183, R184, R186, R187: UPDATE in CTR, in both directions; the counter is taken modulo 2^(8B). -/
def Obligations.UpdateCtrAppliesKeystream : Prop :=
  ∀ (s : State) (msg : Bytes) (rest : List HostInput),
    let p := s.params
    let e := s.engine
    let b := p.blockBytes
    let text := e.buf ++ msg
    let n := text.length / b
    p.Wf → e.BufferInv p → e.WidthInv p → e.session.acceptsData = true → e.cfgMode = .ctr → s.input = sendBytes msg ++ rest →
    exec (.update msg.length) s =
      .next (s.answered rest
        { e with session := .messageAccepting, buf := remainder b text n, ctr := counterAt b e.ctr n } .ok
        ((List.range n).flatMap fun i => xorBytes (blockAt b text i) (cipherEnc p e.boundKey (counterAt b e.ctr i)))
        ((List.range n).map fun i => ⟨.enc, e.boundKey, counterAt b e.ctr i⟩))

/-- 46_ocb3_data.md R231, R232, R234, R238, R239, R240: UPDATE in OCB3, in both directions, while no block index overflows. -/
def Obligations.UpdateOcb3MasksBlocks : Prop :=
  ∀ (s : State) (msg : Bytes) (rest : List HostInput),
    let p := s.params
    let e := s.engine
    let b := p.blockBytes
    let text := e.buf ++ msg
    let n := text.length / b
    let off := offsetFrom b e.lstar e.delta e.midx.toNat
    let out := fun i => ocb3Out p e.cfgDir e.boundKey (off (i + 1)) (blockAt b text i)
    p.Wf → e.BufferInv p → e.TableInv p → e.session.acceptsData = true → e.cfgMode = .ocb3 →
    e.midx.toNat + n < 2 ^ 64 → s.input = sendBytes msg ++ rest →
    exec (.update msg.length) s =
      .next (s.answered rest
        { e with
          session := .messageAccepting
          buf := remainder b text n
          midx := e.midx + BitVec.ofNat 64 n
          delta := off n
          checksum := xorUpTo e.checksum (fun i => plainOf e.cfgDir (blockAt b text i) (out i)) n
          lt := masks b e.lstar (tableLength e.lt.length e.midx.toNat n) }
        .ok ((List.range n).flatMap out)
        ((List.range n).map fun i => ⟨opOf e.cfgDir, e.boundKey, xorBytes (blockAt b text i) (off (i + 1))⟩))

/-- 41_engine.md R116, 46_ocb3_data.md R231, R235, R236: UPDATE_AAD while no AAD block index overflows; no output. That it is
accepted in MESSAGE_ACCEPTING too is 92_eei_decisions.md D37 (93 I4). -/
def Obligations.UpdateAadFoldsBlocks : Prop :=
  ∀ (s : State) (aad : Bytes) (rest : List HostInput),
    let p := s.params
    let e := s.engine
    let b := p.blockBytes
    let text := e.abuf ++ aad
    let n := text.length / b
    let off := offsetFrom b e.lstar e.deltaAad e.aidx.toNat
    p.Wf → e.BufferInv p → e.TableInv p → e.session.acceptsData = true → e.cfgMode = .ocb3 →
    e.aidx.toNat + n < 2 ^ 64 → s.input = sendBytes aad ++ rest →
    exec (.updateAad aad.length) s =
      .next (s.answered rest
        { e with
          session := if e.session = .modeConfigured then .aadAccepting else e.session
          abuf := remainder b text n
          aidx := e.aidx + BitVec.ofNat 64 n
          deltaAad := off n
          authAcc := xorUpTo e.authAcc (fun i => cipherEnc p e.boundKey (xorBytes (blockAt b text i) (off (i + 1)))) n
          lt := masks b e.lstar (tableLength e.lt.length e.aidx.toNat n) }
        .ok [] ((List.range n).map fun i => ⟨.enc, e.boundKey, xorBytes (blockAt b text i) (off (i + 1))⟩))

/-- 43_ecb.md R163, 42_padding.md R150: DO_FINAL in ECB Encrypt with PKCS7. -/
def Obligations.DoFinalEcbEncryptPads : Prop :=
  ∀ (s : State) (msg : Bytes) (rest : List HostInput),
    let p := s.params
    let e := s.engine
    let b := p.blockBytes
    let text := e.buf ++ msg
    let n := text.length / b
    let r := remainder b text n
    let last := r ++ List.replicate (b - r.length) (BitVec.ofNat 8 (b - r.length))
    p.Wf → e.BufferInv p → e.session.acceptsData = true → e.cfgMode = .ecb → e.cfgPad = true → e.cfgDir = .encrypt →
    s.input = sendBytes msg ++ rest →
    exec (.doFinal msg.length) s =
      .next (s.answered rest { e with session := .finalized, buf := [] } .ok
        (((List.range n).flatMap fun i => cipherEnc p e.boundKey (blockAt b text i)) ++ cipherEnc p e.boundKey last)
        (((List.range n).map fun i => ⟨.enc, e.boundKey, blockAt b text i⟩) ++ [⟨.enc, e.boundKey, last⟩]))

/-- 43_ecb.md R164, 42_padding.md R152 to R154, 60_exceptions.md R273, R276: DO_FINAL in ECB Decrypt with PKCS7. ILLEGAL_LENGTH when
the ciphertext is empty or no multiple of B; else the bytes before the padding, or INVALID_PADDING when the last block is no padded
block; a failure keeps the buffer and the blocks released before it. -/
def Obligations.DoFinalEcbDecryptUnpads : Prop :=
  ∀ (s : State) (msg : Bytes) (rest : List HostInput),
    let p := s.params
    let e := s.engine
    let b := p.blockBytes
    let text := e.buf ++ msg
    let n := releasedBlocks true b text.length
    let blocks := (List.range n).flatMap fun i => cipherDec p e.boundKey (blockAt b text i)
    let asked := (List.range n).map fun i => (⟨.dec, e.boundKey, blockAt b text i⟩ : CipherRequest)
    let r := remainder b text n
    let last := cipherDec p e.boundKey r
    let padded := fun src : Bytes => src ++ List.replicate (b - src.length) (BitVec.ofNat 8 (b - src.length))
    p.Wf → e.BufferInv p → e.session.acceptsData = true → e.cfgMode = .ecb → e.cfgPad = true → e.cfgDir = .decrypt →
    s.input = sendBytes msg ++ rest →
    (text.length = 0 ∨ text.length % b ≠ 0 →
      exec (.doFinal msg.length) s =
        .next (s.answered rest { e with session := .failed, buf := r } .illegalLength blocks asked)) ∧
    (text.length ≠ 0 → text.length % b = 0 →
      (∀ src : Bytes, src.length < b → last = padded src →
        exec (.doFinal msg.length) s =
          .next (s.answered rest { e with session := .finalized, buf := [] } .ok (blocks ++ src) (asked ++ [⟨.dec, e.boundKey, r⟩]))) ∧
      ((∀ src : Bytes, src.length < b → last ≠ padded src) →
        exec (.doFinal msg.length) s =
          .next (s.answered rest { e with session := .failed, buf := r } .invalidPadding blocks (asked ++ [⟨.dec, e.boundKey, r⟩]))))

/-- 43_ecb.md R165, 60_exceptions.md R272, R276: DO_FINAL in ECB without padding, in both directions. -/
def Obligations.DoFinalEcbNeedsWholeBlocks : Prop :=
  ∀ (s : State) (msg : Bytes) (rest : List HostInput),
    let p := s.params
    let e := s.engine
    let b := p.blockBytes
    let text := e.buf ++ msg
    let n := text.length / b
    let blocks := (List.range n).flatMap fun i => cipherOf p e.cfgDir e.boundKey (blockAt b text i)
    let asked := (List.range n).map fun i => (⟨opOf e.cfgDir, e.boundKey, blockAt b text i⟩ : CipherRequest)
    p.Wf → e.BufferInv p → e.session.acceptsData = true → e.cfgMode = .ecb → e.cfgPad = false →
    s.input = sendBytes msg ++ rest →
    (text.length % b = 0 →
      exec (.doFinal msg.length) s = .next (s.answered rest { e with session := .finalized, buf := [] } .ok blocks asked)) ∧
    (text.length % b ≠ 0 →
      exec (.doFinal msg.length) s =
        .next (s.answered rest { e with session := .failed, buf := remainder b text n } .illegalLength blocks asked))

/-- 44_ctr.md R185, R187: DO_FINAL in CTR; the remainder takes the first bytes of one more keystream block and the counter is not
incremented for it. -/
def Obligations.DoFinalCtrAppliesKeystream : Prop :=
  ∀ (s : State) (msg : Bytes) (rest : List HostInput),
    let p := s.params
    let e := s.engine
    let b := p.blockBytes
    let text := e.buf ++ msg
    let n := text.length / b
    let r := remainder b text n
    let last := counterAt b e.ctr n
    p.Wf → e.BufferInv p → e.WidthInv p → e.session.acceptsData = true → e.cfgMode = .ctr → s.input = sendBytes msg ++ rest →
    exec (.doFinal msg.length) s =
      .next (s.answered rest { e with session := .finalized, buf := [], ctr := last } .ok
        (((List.range n).flatMap fun i => xorBytes (blockAt b text i) (cipherEnc p e.boundKey (counterAt b e.ctr i))) ++
          xorBytes r ((cipherEnc p e.boundKey last).take r.length))
        (((List.range n).map fun i => ⟨.enc, e.boundKey, counterAt b e.ctr i⟩) ++
          if r = [] then [] else [⟨.enc, e.boundKey, last⟩]))

/-- 47_ocb3_tag.md R250 to R257, R259: DO_FINAL in OCB3, in both directions, while no block index overflows: the blocks, the partial
block, the leading CFG_TAGLEN bytes of the tag. -/
def Obligations.DoFinalOcb3EmitsTag : Prop :=
  ∀ (s : State) (msg : Bytes) (rest : List HostInput),
    let p := s.params
    let e := s.engine
    let b := p.blockBytes
    let text := e.buf ++ msg
    let n := text.length / b
    let off := offsetFrom b e.lstar e.delta e.midx.toNat
    let out := fun i => ocb3Out p e.cfgDir e.boundKey (off (i + 1)) (blockAt b text i)
    let r := remainder b text n
    let deltaAad := if e.abuf = [] then e.deltaAad else xorBytes e.deltaAad e.lstar
    let aadBlock := xorBytes (padOne b e.abuf) deltaAad
    let acc := if e.abuf = [] then e.authAcc else xorBytes e.authAcc (cipherEnc p e.boundKey aadBlock)
    let deltaR := if r = [] then off n else xorBytes (off n) e.lstar
    let partOut := xorBytes r ((cipherEnc p e.boundKey deltaR).take r.length)
    let full := xorUpTo e.checksum (fun i => plainOf e.cfgDir (blockAt b text i) (out i)) n
    let check := if r = [] then full else xorBytes full (padOne b (plainOf e.cfgDir r partOut))
    let deltaT := xorBytes deltaR e.ldollar
    p.Wf → e.BufferInv p → e.TableInv p → e.session.acceptsData = true → e.cfgMode = .ocb3 →
    e.midx.toNat + n < 2 ^ 64 → s.input = sendBytes msg ++ rest →
    exec (.doFinal msg.length) s =
      .next (s.answered rest
        { e with
          session := .finalized
          buf := []
          abuf := []
          midx := e.midx + BitVec.ofNat 64 n
          delta := deltaT
          deltaAad := deltaAad
          checksum := check
          authAcc := acc
          lt := masks b e.lstar (tableLength e.lt.length e.midx.toNat n) }
        .ok
        ((List.range n).flatMap out ++ partOut ++
          (xorBytes (cipherEnc p e.boundKey (xorBytes check deltaT)) acc).take e.cfgTaglen.toNat)
        (((List.range n).map fun i => ⟨opOf e.cfgDir, e.boundKey, xorBytes (blockAt b text i) (off (i + 1))⟩) ++
          (if e.abuf = [] then [] else [⟨.enc, e.boundKey, aadBlock⟩]) ++
          (if r = [] then [] else [⟨.enc, e.boundKey, deltaR⟩]) ++ [⟨.enc, e.boundKey, xorBytes check deltaT⟩]))

/-- 46_ocb3_data.md R233, 60_exceptions.md R272, R276, R279: a message block index that would pass 2^64 - 1. The blocks before it are
processed and output, it stays in BUF, the session fails; UPDATE and DO_FINAL alike. -/
def Obligations.MessageIndexOverflowFails : Prop :=
  ∀ (s : State) (msg : Bytes) (rest : List HostInput),
    let p := s.params
    let e := s.engine
    let b := p.blockBytes
    let text := e.buf ++ msg
    let k := 2 ^ 64 - 1 - e.midx.toNat
    let off := offsetFrom b e.lstar e.delta e.midx.toNat
    let out := fun i => ocb3Out p e.cfgDir e.boundKey (off (i + 1)) (blockAt b text i)
    let failed := Host.Outcome.next (φ := Fault) (ρ := Refusal)
      (s.answered rest
        { e with
          session := .failed
          buf := blockAt b text k
          midx := BitVec.allOnes 64
          delta := off k
          checksum := xorUpTo e.checksum (fun i => plainOf e.cfgDir (blockAt b text i) (out i)) k
          lt := masks b e.lstar (tableLength e.lt.length e.midx.toNat k) }
        .illegalLength ((List.range k).flatMap out)
        ((List.range k).map fun i => ⟨opOf e.cfgDir, e.boundKey, xorBytes (blockAt b text i) (off (i + 1))⟩))
    p.Wf → e.BufferInv p → e.TableInv p → e.session.acceptsData = true → e.cfgMode = .ocb3 →
    k < text.length / b → s.input = sendBytes msg ++ rest →
    exec (.update msg.length) s = failed ∧ exec (.doFinal msg.length) s = failed

/-- 46_ocb3_data.md R233, 60_exceptions.md R272, R276: the same of the AAD index; the block stays in ABUF and BUF is unchanged. -/
def Obligations.AadIndexOverflowFails : Prop :=
  ∀ (s : State) (aad : Bytes) (rest : List HostInput),
    let p := s.params
    let e := s.engine
    let b := p.blockBytes
    let text := e.abuf ++ aad
    let k := 2 ^ 64 - 1 - e.aidx.toNat
    let off := offsetFrom b e.lstar e.deltaAad e.aidx.toNat
    p.Wf → e.BufferInv p → e.TableInv p → e.session.acceptsData = true → e.cfgMode = .ocb3 →
    k < text.length / b → s.input = sendBytes aad ++ rest →
    exec (.updateAad aad.length) s =
      .next (s.answered rest
        { e with
          session := .failed
          abuf := blockAt b text k
          aidx := BitVec.allOnes 64
          deltaAad := off k
          authAcc := xorUpTo e.authAcc (fun i => cipherEnc p e.boundKey (xorBytes (blockAt b text i) (off (i + 1)))) k
          lt := masks b e.lstar (tableLength e.lt.length e.aidx.toNat k) }
        .illegalLength [] ((List.range k).map fun i => ⟨.enc, e.boundKey, xorBytes (blockAt b text i) (off (i + 1))⟩))

/-! ### Frames and tables over the data commands -/

/-- 41_engine.md R115, 10_state.md R23 to R27, R33, R34, 46_ocb3_data.md R237: a data command whose data-in has come never writes the
configuration, the key, L*, L$; UPDATE_AAD writes no register of the message stream and UPDATE none of the AAD stream. -/
def Obligations.DataCommandsKeepConfiguration : Prop :=
  ∀ (s t : State) (din : Bytes) (rest : List HostInput) (i : Instr),
    s.input = sendBytes din ++ rest → i = .updateAad din.length ∨ i = .update din.length ∨ i = .doFinal din.length →
    exec i s = .next t →
    t.engine.cfgMode = s.engine.cfgMode ∧ t.engine.cfgDir = s.engine.cfgDir ∧ t.engine.cfgPad = s.engine.cfgPad ∧
    t.engine.cfgTaglen = s.engine.cfgTaglen ∧ t.engine.key = s.engine.key ∧ t.engine.lstar = s.engine.lstar ∧
    t.engine.ldollar = s.engine.ldollar ∧ t.input = rest ∧
    (i = .updateAad din.length →
      t.engine.buf = s.engine.buf ∧ t.engine.ctr = s.engine.ctr ∧ t.engine.delta = s.engine.delta ∧
      t.engine.checksum = s.engine.checksum ∧ t.engine.midx = s.engine.midx) ∧
    (i = .update din.length →
      t.engine.abuf = s.engine.abuf ∧ t.engine.deltaAad = s.engine.deltaAad ∧ t.engine.authAcc = s.engine.authAcc ∧
      t.engine.aidx = s.engine.aidx)

/-- 41_engine.md R120, 60_exceptions.md R276, R277: the session after each outcome of each command; a command whose data-in has come
gives exactly one response, and an out-of-sequence one changes no register. -/
def Obligations.SessionAfterEachOutcome : Prop :=
  ∀ (s : State) (din : Bytes) (rest : List HostInput) (i : Instr),
    s.input = sendBytes din ++ rest → din.length = i.dataLength →
    ∃ (t : State) (err : Err) (dout : Bytes), exec i s = .next t ∧ t.input = rest ∧
      t.responses = s.responses ++ [⟨statusWord err t.engine, BitVec.ofNat 32 dout.length, dout⟩] ∧
      (err = .sequenceError → t.engine = s.engine ∧ dout = [] ∧ t.requests = s.requests) ∧
      (match i with
        | .initCipher _ =>
          (err = .ok ∧ t.engine.session = .keyBound) ∨ (err = .configError ∧ t.engine.session = .uninit ∧ t.engine.key = none)
        | .initModeEcb _ _ _ _ | .initModeCtr _ _ _ _ | .initModeOcb3 _ _ _ _ =>
          (err = .ok ∧ t.engine.session = .modeConfigured) ∨
          (err = .configError ∧ t.engine.session = .keyBound ∧ t.engine.key = s.engine.key ∧ dout = []) ∨ err = .sequenceError
        | .updateAad _ =>
          (err = .ok ∧
            t.engine.session = (if s.engine.session = .modeConfigured then .aadAccepting else s.engine.session) ∧ dout = []) ∨
          (err = .illegalLength ∧ t.engine.session = .failed) ∨ err = .sequenceError
        | .update _ =>
          (err = .ok ∧ t.engine.session = .messageAccepting) ∨ (err = .illegalLength ∧ t.engine.session = .failed) ∨
          err = .sequenceError
        | .doFinal _ =>
          (err = .ok ∧ t.engine.session = .finalized ∧ t.engine.buf = []) ∨
          ((err = .illegalLength ∨ err = .invalidPadding) ∧ t.engine.session = .failed) ∨ err = .sequenceError)

/-- 10_state.md R37, 46_ocb3_data.md R232: entries of the doubling cache are immutable within a session and the table only grows. -/
def Obligations.TableEntriesAreImmutable : Prop :=
  ∀ (s t : State) (din : Bytes) (rest : List HostInput) (i : Instr),
    s.input = sendBytes din ++ rest → i = .updateAad din.length ∨ i = .update din.length ∨ i = .doFinal din.length →
    exec i s = .next t → s.engine.lt <+: t.engine.lt

/-! ### Splitting and interleaving the streams -/

/-- 41_engine.md R126: DO_FINAL with data is UPDATE with that data and then DO_FINAL without, and if UPDATE fails, DO_FINAL with the
data fails in the same state with the same error and output. -/
def Obligations.DoFinalIsUpdateThenFinal : Prop :=
  ∀ (s : State) (msg : Bytes), s.engine.session.acceptsData = true →
    ∃ t u : State, issue (.update msg.length) msg s = .next t ∧ issue (.doFinal msg.length) msg s = .next u ∧
      (allOk s t → ∃ v, issue (.doFinal 0) [] t = .next v ∧ v.engine = u.engine ∧ outputSince s v = outputSince s u ∧
        v.requests = u.requests ∧ (responsesSince t v).map Response.err = (responsesSince s u).map Response.err) ∧
      (¬ allOk s t → u.engine = t.engine ∧ responsesSince s u = responsesSince s t ∧ u.requests = t.requests)

/-- 41_engine.md R125 for the message: however it is split into UPDATE commands, the output, the registers and the cipher requests
are those of one command. -/
def Obligations.MessageSplitsDoNotMatter : Prop :=
  ∀ (s t : State) (parts : List Bytes), parts ≠ [] →
    issueAll (parts.map fun d => (.update d.length, d)) s = .next t → allOk s t →
    ∃ u : State, issue (.update parts.flatten.length) parts.flatten s = .next u ∧ allOk s u ∧ u.engine = t.engine ∧
      outputSince s u = outputSince s t ∧ u.requests = t.requests

/-- 41_engine.md R125 for the associated data. -/
def Obligations.AadSplitsDoNotMatter : Prop :=
  ∀ (s t : State) (parts : List Bytes), parts ≠ [] →
    issueAll (parts.map fun d => (.updateAad d.length, d)) s = .next t → allOk s t →
    ∃ u : State, issue (.updateAad parts.flatten.length) parts.flatten s = .next u ∧ allOk s u ∧ u.engine = t.engine ∧
      u.requests = t.requests

/-- 46_ocb3_data.md R237: UPDATE_AAD and UPDATE commute. It rests on 92_eei_decisions.md D37, by which UPDATE_AAD is accepted after
UPDATE (93 I4): an implementation that refuses the interleave would answer SEQUENCE_ERROR there. -/
def Obligations.AadAndMessageCommute : Prop :=
  ∀ (s t : State) (aad msg : Bytes),
    issueAll [(.updateAad aad.length, aad), (.update msg.length, msg)] s = .next t → allOk s t →
    ∃ u : State, issueAll [(.update msg.length, msg), (.updateAad aad.length, aad)] s = .next u ∧ allOk s u ∧
      u.engine = t.engine ∧ outputSince s u = outputSince s t

/-! ### The arithmetic -/

/-- 42_padding.md R150, R152, R153, R155: a block unpads to src exactly when it is the padding of src. -/
def Obligations.UnpadInvertsPad : Prop :=
  ∀ (b : Nat) (blk src : Bytes), 1 ≤ b → b ≤ 255 → blk.length = b →
    (unpad b blk = some src ↔
      src.length < b ∧ blk = src ++ List.replicate (b - src.length) (BitVec.ofNat 8 (b - src.length)))

/-- 44_ctr.md R182, R186: the byte loop adds one modulo 2^(8B), with wraparound. -/
def Obligations.IncrementAddsOne : Prop :=
  (∀ ctr : Bytes, increment ctr = blkOf ctr.length ((intOf ctr + 1) % 2 ^ (8 * ctr.length))) ∧
  (∀ b : Nat, increment (List.replicate b 0xFF#8) = zeros b)

/-- 45_ocb3_nonce.md R204: the byte form of the doubling for B = 16. -/
def Obligations.DoubleByteForm16 : Prop :=
  ∀ s : Bytes, s.length = 16 →
    double 16 s = (List.range 16).map fun i =>
      if i < 15 then (s.getD i 0#8 <<< 1) ||| (s.getD (i + 1) 0#8 >>> 7)
      else (s.getD 15 0#8 <<< 1) ^^^ (if 0x80#8 ≤ s.getD 0 0#8 then 0x87#8 else 0x00#8)

/-- 45_ocb3_nonce.md R205: the byte form of the doubling for B = 32. -/
def Obligations.DoubleByteForm32 : Prop :=
  ∀ s : Bytes, s.length = 32 →
    double 32 s = (List.range 32).map fun i =>
      let carry := 0x80#8 ≤ s.getD 0 0#8
      let shifted := (s.getD i 0#8 <<< 1) ||| (s.getD (i + 1) 0#8 >>> 7)
      if i < 30 then shifted
      else if i = 30 then shifted ^^^ (if carry then 0x04#8 else 0x00#8)
      else (s.getD 31 0#8 <<< 1) ^^^ (if carry then 0x25#8 else 0x00#8)

/-- 45_ocb3_nonce.md R215: the byte loop of the cut is a shift of the whole stretch. -/
def Obligations.CutIsShift : Prop :=
  ∀ (b : Nat) (stretch : Bytes) (bytes bits : Nat), stretch.length = 2 * b → bytes < b → bits < 8 →
    cut b stretch bytes bits = blkOf b ((intOf stretch >>> (8 * b - (8 * bytes + bits))) % 2 ^ (8 * b))

/-- 60_exceptions.md R285: every request is answered by exactly one B-byte block, whichever cipher is attached. -/
def Obligations.CipherAnswersOneBlock : Prop :=
  ∀ (p : Params) (q : CipherRequest), (cipherAnswer p q).length = p.blockBytes

/-! ### Invariants -/

/-- The five invariants hold after reset, for any parameters the engine is specified for. -/
def Obligations.InvariantsHoldAfterReset : Prop :=
  ∀ p : Params, p.Wf →
    let e := (State.resetWith p).engine
    e.KeyInv p ∧ e.WidthInv p ∧ e.BufferInv p ∧ e.ConfigInv p ∧ e.TableInv p

/-- 10_state.md R22, R27: UNINIT is exactly the state without a key, and a bound key has an accepted length. -/
def Obligations.StepKeepsKeyBinding : Prop :=
  ∀ s t : State, s.engine.KeyInv s.params → step s = .next t → t.engine.KeyInv t.params

/-- 10_state.md R32 to R39: every block register keeps its width and the table its bound. -/
def Obligations.StepKeepsRegisterWidths : Prop :=
  ∀ s t : State, s.engine.WidthInv s.params → step s = .next t → t.engine.WidthInv t.params

/-- 10_state.md R30, R31, 41_engine.md R127: the ranges of BUFLEN and ABUFLEN. -/
def Obligations.StepKeepsBufferBounds : Prop :=
  ∀ s t : State, s.params.Wf → s.engine.BufferInv s.params → step s = .next t → t.engine.BufferInv t.params

/-- 10_state.md R25, R26, 41_engine.md R112, R114: configuration and unused registers. -/
def Obligations.StepKeepsConfiguration : Prop :=
  ∀ s t : State, s.params.Wf → s.engine.ConfigInv s.params → step s = .next t → t.engine.ConfigInv t.params

/-- 10_state.md R41, R42: the doubling cache is a function of L* and of the block indexes. -/
def Obligations.StepKeepsDoublingTable : Prop :=
  ∀ s t : State, s.engine.TableInv s.params → step s = .next t → t.engine.TableInv t.params

/-! ### Whole sessions -/

/-- 44_ctr.md R184, R187: CTR is self-inverse, whatever the directions. -/
def Obligations.CtrSessionIsSelfInverse : Prop :=
  ∀ (s : State) (dir dir' : Dir) (iv msg : Bytes),
    s.params.Wf → s.engine.session ≠ .uninit → iv.length ≤ s.params.blockBytes →
    ∃ t u : State,
      issueAll [(.initModeCtr dir false 0 iv.length, iv), (.doFinal msg.length, msg)] s = .next t ∧ allOk s t ∧
      issueAll [(.initModeCtr dir' false 0 iv.length, iv), (.doFinal (outputSince s t).length, outputSince s t)] t = .next u ∧
      allOk t u ∧ (outputSince s t).length = msg.length ∧ outputSince t u = msg

/-- 43_ecb.md R167, 00_scope.md R7: decrypting what ECB Encrypt produced gives back the message. -/
def Obligations.EcbSessionRoundTrip : Prop :=
  ∀ (s : State) (pad : Bool) (msg : Bytes),
    s.params.Wf → CipherRoundTrips s.params → s.engine.session ≠ .uninit → s.engine.KeyInv s.params →
    (pad = false → msg.length % s.params.blockBytes = 0) →
    ∃ t u : State,
      issueAll [(.initModeEcb .encrypt pad 0 0, []), (.doFinal msg.length, msg)] s = .next t ∧ allOk s t ∧
      issueAll [(.initModeEcb .decrypt pad 0 0, []), (.doFinal (outputSince s t).length, outputSince s t)] t = .next u ∧
      allOk t u ∧ outputSince t u = msg

/-- 47_ocb3_tag.md R257, R260, 41_engine.md R124: the whole output of an OCB3 session in closed form, in both directions. -/
def Obligations.Ocb3SessionComputesTag : Prop :=
  ∀ (s : State) (dir : Dir) (taglen : Nat) (nonce aad msg : Bytes),
    let p := s.params
    let b := p.blockBytes
    let key := s.engine.boundKey
    let lstar := cipherEnc p key (zeros b)
    let d0 := delta0 p key (nonceBlock p nonce taglen)
    let text := ocb3Text p dir key lstar d0 msg
    b = 16 ∨ b = 32 → s.engine.session ≠ .uninit → 1 ≤ taglen → taglen ≤ b → nonce.length ≤ b - 1 →
    aad.length / b < 2 ^ 64 → msg.length / b < 2 ^ 64 →
    ∃ t : State,
      issueAll [(.initModeOcb3 dir false taglen nonce.length, nonce), (.updateAad aad.length, aad), (.doFinal msg.length, msg)] s
        = .next t ∧ allOk s t ∧ text.length = msg.length ∧ (outputSince s t).length = msg.length + taglen ∧
      outputSince s t = text ++ (ocb3Tag p key lstar d0 aad (plainOf dir msg text)).take taglen

/-- 46_ocb3_data.md R240, 47_ocb3_tag.md R258, 00_scope.md R7: an OCB3 Decrypt session on the ciphertext of an Encrypt session gives
back the message and the same tag. -/
def Obligations.Ocb3SessionRoundTrip : Prop :=
  ∀ (s : State) (taglen : Nat) (nonce aad msg : Bytes),
    let b := s.params.blockBytes
    let run := fun (dir : Dir) (data : Bytes) =>
      issueAll [(.initModeOcb3 dir false taglen nonce.length, nonce), (.updateAad aad.length, aad), (.doFinal data.length, data)]
    b = 16 ∨ b = 32 → CipherRoundTrips s.params → s.engine.session ≠ .uninit → s.engine.KeyInv s.params →
    1 ≤ taglen → taglen ≤ b → nonce.length ≤ b - 1 → aad.length / b < 2 ^ 64 → msg.length / b < 2 ^ 64 →
    ∃ t u : State, run .encrypt msg s = .next t ∧ allOk s t ∧
      run .decrypt ((outputSince s t).take msg.length) t = .next u ∧ allOk t u ∧
      (outputSince t u).take msg.length = msg ∧ (outputSince t u).drop msg.length = (outputSince s t).drop msg.length

/-- 70_reset_and_hazards.md R313: with the full B-byte tag, two ciphertexts that differ in exactly one block give different computed
tags under the same nonce and associated data. -/
def Obligations.TamperedBlockChangesTag : Prop :=
  ∀ (s : State) (nonce aad ct ct' : Bytes) (j : Nat),
    let b := s.params.blockBytes
    let run := fun (data : Bytes) =>
      issueAll [(.initModeOcb3 .decrypt false b nonce.length, nonce), (.updateAad aad.length, aad), (.doFinal data.length, data)] s
    b = 16 ∨ b = 32 → CipherRoundTrips s.params → s.engine.session ≠ .uninit → s.engine.KeyInv s.params →
    nonce.length ≤ b - 1 → aad.length / b < 2 ^ 64 → ct.length / b < 2 ^ 64 → ct'.length = ct.length →
    blockAt b ct j ≠ blockAt b ct' j → (∀ i, i ≠ j → blockAt b ct i = blockAt b ct' i) →
    ∃ t t' : State, run ct = .next t ∧ allOk s t ∧ run ct' = .next t' ∧ allOk s t' ∧
      (outputSince s t).drop ct.length ≠ (outputSince s t').drop ct.length

/-- 10_state.md R27, 60_exceptions.md R284: KEY acts only through Enc and Dec: two keys under which the cipher answers alike give the
same responses to every command but INIT_CIPHER, and leave the same registers beside KEY. -/
def Obligations.KeyActsOnlyThroughCipher : Prop :=
  ∀ (s : State) (i : Instr) (din k k' : Bytes) (t t' : State),
    (∀ n, i ≠ .initCipher n) → din.length = i.dataLength →
    (∀ blk, cipherEnc s.params k blk = cipherEnc s.params k' blk) → (∀ blk, cipherDec s.params k blk = cipherDec s.params k' blk) →
    issue i din { s with engine := { s.engine with key := some k } } = .next t →
    issue i din { s with engine := { s.engine with key := some k' } } = .next t' →
    t.responses = t'.responses ∧ t'.engine = { t.engine with key := some k' }

/-- 30_encoding.md R92: a pseudo-command's last string is split into commands of at most 65535 bytes, UPDATE before the DO_FINAL at
the end, every command well formed and no byte lost. -/
def Obligations.PseudoCommandsSplitLongData : Prop :=
  ∀ data : Bytes,
    ((finalCommands data).map Command.din).flatten = data ∧
    (∀ c ∈ finalCommands data, c.wf = true ∧ c.din.length ≤ 65535) ∧
    (∀ c ∈ (finalCommands data).dropLast, decode c.word = .command (.update c.din.length)) ∧
    (∀ c, (finalCommands data).getLast? = some c → decode c.word = .command (.doFinal c.din.length)) ∧
    (∀ c ∈ aadCommands data, decode c.word = .command (.updateAad c.din.length) ∧ c.wf = true) ∧
    ((aadCommands data).map Command.din).flatten = data
end

