-- ==== Sys2Proof/Laws/Blocks.lean ====
section
/-! SUPPORT. Block values: lengths, and the integer reading of a byte string (20_memory.md R62). -/

namespace Sys2Proof.Machine

@[simp] theorem zeros_length (n : Nat) : (zeros n).length = n := by simp [zeros]

@[simp] theorem xorBytes_length (x y : Bytes) : (xorBytes x y).length = min x.length y.length := by simp [xorBytes]

@[simp] theorem xorBytes_nil_left (y : Bytes) : xorBytes [] y = [] := rfl

@[simp] theorem xorBytes_cons (a b : Byte) (x y : Bytes) : xorBytes (a :: x) (b :: y) = (a ^^^ b) :: xorBytes x y := rfl

@[simp] theorem blkOf_length (n v : Nat) : (blkOf n v).length = n := by induction n <;> simp_all [blkOf]

@[simp] theorem double_length (b : Nat) (s : Bytes) : (double b s).length = b := by simp [double]

@[simp] theorem cut_length (b : Nat) (s : Bytes) (m n : Nat) : (cut b s m n).length = b := by simp [cut]

@[simp] theorem shiftLeft_length (s : Bytes) (n : Nat) : (shiftLeft s n).length = s.length := by simp [shiftLeft]

@[simp] theorem incrementLow_length (x : Bytes) : (incrementLow x).length = x.length := by
  induction x with
  | nil => rfl
  | cons a x ih => simp only [incrementLow]; split <;> simp [ih]

@[simp] theorem increment_length (x : Bytes) : (increment x).length = x.length := by simp [increment]

theorem padOne_length (b : Nat) (x : Bytes) (h : x.length < b) : (padOne b x).length = b := by simp [padOne]; omega

theorem le_padOne_length (b : Nat) (x : Bytes) : b ≤ (padOne b x).length := by simp [padOne]; omega

/-! ### XOR -/

theorem xorBytes_comm (x y : Bytes) : xorBytes x y = xorBytes y x := by
  induction x generalizing y with
  | nil => cases y <;> rfl
  | cons a x ih => cases y with
    | nil => rfl
    | cons b y => simp [ih y, BitVec.xor_comm]

theorem xorBytes_assoc (x y z : Bytes) : xorBytes (xorBytes x y) z = xorBytes x (xorBytes y z) := by
  induction x generalizing y z with
  | nil => cases y <;> cases z <;> rfl
  | cons a x ih => cases y <;> cases z <;> simp_all [xorBytes, BitVec.xor_assoc]

/-- XOR with the same string twice gives the first back, where the second is long enough. -/
theorem xorBytes_cancel (x y : Bytes) (h : x.length ≤ y.length) : xorBytes (xorBytes x y) y = x := by
  induction x generalizing y with
  | nil => rfl
  | cons a x ih => cases y with
    | nil => simp at h
    | cons b y => simp [ih y (by simpa using h)]

theorem xorBytes_zeros (x : Bytes) (n : Nat) (h : x.length ≤ n) : xorBytes x (zeros n) = x := by
  induction x generalizing n with
  | nil => rfl
  | cons a x ih => cases n with
    | zero => simp at h
    | succ n =>
      have := ih n (by simpa using h)
      simpa [zeros, List.replicate_succ] using this

theorem xorBytes_left_inj (x y z : Bytes) (hx : x.length ≤ z.length) (hy : y.length ≤ z.length)
    (h : xorBytes x z = xorBytes y z) : x = y := by
  rw [← xorBytes_cancel x z hx, h, xorBytes_cancel y z hy]

/-! ### The integer of a byte string -/

theorem intOf_lt (x : Bytes) : intOf x < 2 ^ (8 * x.length) := by
  induction x with
  | nil => simp [intOf]
  | cons a x ih =>
    have ha := a.isLt
    have e : 2 ^ (8 * (a :: x).length) = 256 * 2 ^ (8 * x.length) := by
      rw [List.length_cons, Nat.mul_add, Nat.pow_add, Nat.mul_comm]
    simp only [intOf, e]
    calc a.toNat * 2 ^ (8 * x.length) + intOf x < a.toNat * 2 ^ (8 * x.length) + 2 ^ (8 * x.length) := by omega
      _ = (a.toNat + 1) * 2 ^ (8 * x.length) := by ring
      _ ≤ 256 * 2 ^ (8 * x.length) := Nat.mul_le_mul_right _ (by omega)

/-- `int(blk(v))` is v modulo 2^(8n). -/
theorem intOf_blkOf (n v : Nat) : intOf (blkOf n v) = v % 2 ^ (8 * n) := by
  induction n with
  | zero => simp [intOf, blkOf, Nat.mod_one]
  | succ n ih =>
    simp only [blkOf, intOf, blkOf_length, ih, BitVec.toNat_ofNat, Nat.shiftRight_eq_div_pow]
    have e : 2 ^ (8 * (n + 1)) = 2 ^ (8 * n) * 2 ^ 8 := by rw [Nat.mul_add, Nat.pow_add]
    rw [e, Nat.mod_mul, Nat.mul_comm, Nat.add_comm]

/-- Only the low 8n bits of v matter. -/
theorem blkOf_mod (n v m : Nat) (h : n ≤ m) : blkOf n (v % 2 ^ (8 * m)) = blkOf n v := by
  induction n with
  | zero => rfl
  | succ n ih =>
    simp only [blkOf, ih (by omega), List.cons.injEq, and_true]
    apply BitVec.eq_of_toNat_eq
    simp only [BitVec.toNat_ofNat, Nat.shiftRight_eq_div_pow]
    obtain ⟨k, hk⟩ : ∃ k, 8 * m = 8 * n + 8 + k := ⟨8 * m - 8 * n - 8, by omega⟩
    rw [hk, Nat.add_assoc, Nat.pow_add 2 (8 * n), Nat.mod_mul_right_div_self, Nat.pow_add, Nat.mod_mul_right_mod]

/-- `blk(int(x))` is x. -/
theorem blkOf_intOf (x : Bytes) : blkOf x.length (intOf x) = x := by
  induction x with
  | nil => rfl
  | cons a x ih =>
    simp only [List.length_cons, blkOf, intOf, List.cons.injEq]
    constructor
    · apply BitVec.eq_of_toNat_eq
      rw [BitVec.toNat_ofNat, Nat.shiftRight_eq_div_pow, Nat.mul_comm, Nat.mul_add_div (Nat.two_pow_pos _),
        Nat.div_eq_of_lt (intOf_lt x)]
      exact Nat.mod_eq_of_lt a.isLt
    · rw [← blkOf_mod _ _ x.length (le_refl _), Nat.mul_comm, Nat.mul_add_mod, blkOf_mod _ _ _ (le_refl _), ih]

theorem intOf_inj (x y : Bytes) (hl : x.length = y.length) (h : intOf x = intOf y) : x = y := by
  rw [← blkOf_intOf x, ← blkOf_intOf y, hl, h]

theorem intOf_append (x y : Bytes) : intOf (x ++ y) = intOf x * 2 ^ (8 * y.length) + intOf y := by
  induction x with
  | nil => simp [intOf]
  | cons a x ih =>
    simp only [List.cons_append, intOf, ih, List.length_append, Nat.mul_add, Nat.pow_add]
    ring

@[simp] theorem intOf_zeros (n : Nat) : intOf (zeros n) = 0 := by
  induction n with
  | zero => rfl
  | succ n ih => simpa [zeros, List.replicate_succ, intOf] using ih

end Sys2Proof.Machine
end

