-- ==== Sys2Proof/Laws/Cipher.lean ====
section
/-! SUPPORT. The attached cipher: every answer is one block (60_exceptions.md R285), and the test cipher TOYROT has the property the
engine assumes of a cipher (00_scope.md R7), so that a claim resting on it rests on something that exists. -/

namespace Sys2Proof.Machine

@[simp] theorem cipherEnc_length (p : Params) (key blk : Bytes) : (cipherEnc p key blk).length = p.blockBytes := by
  unfold cipherEnc
  dsimp only
  split
  · simp [attachedEnc]
  · simp
  · split <;> simp [attachedEnc]

@[simp] theorem cipherDec_length (p : Params) (key blk : Bytes) : (cipherDec p key blk).length = p.blockBytes := by
  unfold cipherDec
  dsimp only
  split
  · simp [attachedDec]
  · simp
  · split <;> simp [attachedDec]

@[simp] theorem cipherOf_length (p : Params) (dir : Dir) (key blk : Bytes) : (cipherOf p dir key blk).length = p.blockBytes := by
  cases dir <;> simp [cipherOf]

/-- Rotating left and then right by one bit gives the value back. -/
theorem rotate_back (n v : Nat) (hn : 1 ≤ n) (hv : v < 2 ^ n) :
    let r := (2 * v) % 2 ^ n + v / 2 ^ (n - 1)
    r < 2 ^ n ∧ r / 2 + r % 2 * 2 ^ (n - 1) = v := by
  obtain ⟨m, rfl⟩ : ∃ m, n = m + 1 := ⟨n - 1, by omega⟩
  simp only [Nat.add_sub_cancel]
  have hp : 0 < 2 ^ m := Nat.two_pow_pos m
  have e : 2 ^ (m + 1) = 2 * 2 ^ m := by rw [Nat.pow_succ, Nat.mul_comm]
  rw [e] at hv ⊢
  rw [Nat.mul_mod_mul_left]
  have hq : v / 2 ^ m < 2 := by rw [Nat.div_lt_iff_lt_mul hp]; exact hv
  have hm := Nat.mod_lt v hp
  have hd := Nat.div_add_mod v (2 ^ m)
  generalize v / 2 ^ m = q at *
  generalize v % 2 ^ m = t at *
  have hq' : q = 0 ∨ q = 1 := by omega
  rcases hq' with rfl | rfl
  · refine ⟨by omega, ?_⟩
    simp at *
    omega
  · refine ⟨by omega, ?_⟩
    have h1 : (2 * t + 1) / 2 = t := by omega
    have h2 : (2 * t + 1) % 2 = 1 := by omega
    simp [h1, h2] at *
    omega

/-- TOYROT's D undoes its E (95_test_vectors.md). -/
theorem toyrot_round_trips (n key v : Nat) (hn : 1 ≤ n) (hk : key < 2 ^ n) (hv : v < 2 ^ n) :
    toyrotEnc n key v < 2 ^ n ∧ toyrotDec n key (toyrotEnc n key v) = v := by
  have h := rotate_back n v hn hv
  refine ⟨Nat.xor_lt_two_pow h.1 hk, ?_⟩
  simp only [toyrotDec, toyrotEnc, Nat.xor_assoc, Nat.xor_self, Nat.xor_zero]
  exact h.2

/-- An engine with TOYROT attached has a cipher that round trips, at every block size (00_scope.md R7). -/
theorem toyrot_cipherRoundTrips (p : Params) (hw : p.Wf) (ht : p.cipher = .toyrot) : CipherRoundTrips p := by
  intro key blk _ hb
  have hk := Nat.mod_lt (intOf key) (Nat.two_pow_pos (8 * p.blockBytes))
  have hv := intOf_lt blk
  rw [hb] at hv
  have h := toyrot_round_trips (8 * p.blockBytes) _ (intOf blk) (by omega) hk hv
  simp only [cipherEnc, cipherDec, ht]
  rw [intOf_blkOf, Nat.mod_eq_of_lt h.1, h.2, ← hb, blkOf_intOf]

end Sys2Proof.Machine
end

