-- ==== Sys2Proof/Laws/State.lean ====
section
/-! SUPPORT. One lemma per field per update of the state, the registers and a command in progress, so that no later proof unfolds a
record update. -/

namespace Sys2Proof.Machine

/-! ### ClearSession (41_engine.md R112) -/

@[simp] theorem clearSession_session (p : Params) (e : Engine) : (e.clearSession p).session = e.session := rfl
@[simp] theorem clearSession_cfgMode (p : Params) (e : Engine) : (e.clearSession p).cfgMode = .ecb := rfl
@[simp] theorem clearSession_cfgDir (p : Params) (e : Engine) : (e.clearSession p).cfgDir = .encrypt := rfl
@[simp] theorem clearSession_cfgPad (p : Params) (e : Engine) : (e.clearSession p).cfgPad = false := rfl
@[simp] theorem clearSession_cfgTaglen (p : Params) (e : Engine) : (e.clearSession p).cfgTaglen = 0#8 := rfl
@[simp] theorem clearSession_key (p : Params) (e : Engine) : (e.clearSession p).key = e.key := rfl
@[simp] theorem clearSession_buf (p : Params) (e : Engine) : (e.clearSession p).buf = [] := rfl
@[simp] theorem clearSession_abuf (p : Params) (e : Engine) : (e.clearSession p).abuf = [] := rfl
@[simp] theorem clearSession_ctr (p : Params) (e : Engine) : (e.clearSession p).ctr = zeros p.blockBytes := rfl
@[simp] theorem clearSession_lstar (p : Params) (e : Engine) : (e.clearSession p).lstar = zeros p.blockBytes := rfl
@[simp] theorem clearSession_ldollar (p : Params) (e : Engine) : (e.clearSession p).ldollar = zeros p.blockBytes := rfl
@[simp] theorem clearSession_delta (p : Params) (e : Engine) : (e.clearSession p).delta = zeros p.blockBytes := rfl
@[simp] theorem clearSession_deltaAad (p : Params) (e : Engine) : (e.clearSession p).deltaAad = zeros p.blockBytes := rfl
@[simp] theorem clearSession_lt (p : Params) (e : Engine) : (e.clearSession p).lt = [] := rfl
@[simp] theorem clearSession_checksum (p : Params) (e : Engine) : (e.clearSession p).checksum = zeros p.blockBytes := rfl
@[simp] theorem clearSession_authAcc (p : Params) (e : Engine) : (e.clearSession p).authAcc = zeros p.blockBytes := rfl
@[simp] theorem clearSession_midx (p : Params) (e : Engine) : (e.clearSession p).midx = 0#64 := rfl
@[simp] theorem clearSession_aidx (p : Params) (e : Engine) : (e.clearSession p).aidx = 0#64 := rfl

/-! ### Reset (10_state.md R43) -/

@[simp] theorem reset_session (p : Params) : (Engine.reset p).session = .uninit := rfl
@[simp] theorem reset_cfgMode (p : Params) : (Engine.reset p).cfgMode = .ecb := rfl
@[simp] theorem reset_cfgDir (p : Params) : (Engine.reset p).cfgDir = .encrypt := rfl
@[simp] theorem reset_cfgPad (p : Params) : (Engine.reset p).cfgPad = false := rfl
@[simp] theorem reset_cfgTaglen (p : Params) : (Engine.reset p).cfgTaglen = 0#8 := rfl
@[simp] theorem reset_key (p : Params) : (Engine.reset p).key = none := rfl
@[simp] theorem reset_buf (p : Params) : (Engine.reset p).buf = [] := rfl
@[simp] theorem reset_abuf (p : Params) : (Engine.reset p).abuf = [] := rfl
@[simp] theorem reset_ctr (p : Params) : (Engine.reset p).ctr = zeros p.blockBytes := rfl
@[simp] theorem reset_lstar (p : Params) : (Engine.reset p).lstar = zeros p.blockBytes := rfl
@[simp] theorem reset_ldollar (p : Params) : (Engine.reset p).ldollar = zeros p.blockBytes := rfl
@[simp] theorem reset_delta (p : Params) : (Engine.reset p).delta = zeros p.blockBytes := rfl
@[simp] theorem reset_deltaAad (p : Params) : (Engine.reset p).deltaAad = zeros p.blockBytes := rfl
@[simp] theorem reset_lt (p : Params) : (Engine.reset p).lt = [] := rfl
@[simp] theorem reset_checksum (p : Params) : (Engine.reset p).checksum = zeros p.blockBytes := rfl
@[simp] theorem reset_authAcc (p : Params) : (Engine.reset p).authAcc = zeros p.blockBytes := rfl
@[simp] theorem reset_midx (p : Params) : (Engine.reset p).midx = 0#64 := rfl
@[simp] theorem reset_aidx (p : Params) : (Engine.reset p).aidx = 0#64 := rfl

/-! ### The machine's updates -/

@[simp] theorem answer_params (s : State) (r : Run) : (s.answer r).params = s.params := rfl
@[simp] theorem answer_engine (s : State) (r : Run) : (s.answer r).engine = r.engine := rfl
@[simp] theorem answer_input (s : State) (r : Run) : (s.answer r).input = s.input := rfl
@[simp] theorem answer_responses (s : State) (r : Run) : (s.answer r).responses = s.responses ++ [r.response] := rfl
@[simp] theorem answer_requests (s : State) (r : Run) : (s.answer r).requests = s.requests ++ r.requests := rfl
@[simp] theorem hardReset_params (s : State) (rest : List HostInput) : (s.hardReset rest).params = s.params := rfl
@[simp] theorem hardReset_engine (s : State) (rest : List HostInput) :
    (s.hardReset rest).engine = Engine.reset s.params := rfl
@[simp] theorem hardReset_input (s : State) (rest : List HostInput) : (s.hardReset rest).input = rest := rfl
@[simp] theorem hardReset_responses (s : State) (rest : List HostInput) : (s.hardReset rest).responses = s.responses := rfl
@[simp] theorem hardReset_requests (s : State) (rest : List HostInput) : (s.hardReset rest).requests = s.requests := rfl
@[simp] theorem answered_params (s : State) (rest : List HostInput) (e : Engine) (err : Err) (dout : Bytes) (asked : List CipherRequest) :
    (s.answered rest e err dout asked).params = s.params := rfl
@[simp] theorem answered_engine (s : State) (rest : List HostInput) (e : Engine) (err : Err) (dout : Bytes) (asked : List CipherRequest) :
    (s.answered rest e err dout asked).engine = e := rfl
@[simp] theorem answered_input (s : State) (rest : List HostInput) (e : Engine) (err : Err) (dout : Bytes) (asked : List CipherRequest) :
    (s.answered rest e err dout asked).input = rest := rfl
@[simp] theorem answered_responses (s : State) (rest : List HostInput) (e : Engine) (err : Err) (dout : Bytes) (asked : List CipherRequest) :
    (s.answered rest e err dout asked).responses = s.responses ++ [⟨statusWord err e, BitVec.ofNat 32 dout.length, dout⟩] := rfl
@[simp] theorem answered_requests (s : State) (rest : List HostInput) (e : Engine) (err : Err) (dout : Bytes) (asked : List CipherRequest) :
    (s.answered rest e err dout asked).requests = s.requests ++ asked := rfl
@[simp] theorem illegalCommand_params (s : State) : (s.illegalCommand).params = s.params := rfl
@[simp] theorem illegalCommand_engine (s : State) : (s.illegalCommand).engine = s.engine := rfl
@[simp] theorem illegalCommand_input (s : State) : (s.illegalCommand).input = s.input := rfl
@[simp] theorem illegalCommand_responses (s : State) :
    (s.illegalCommand).responses = s.responses ++ [⟨statusWord .illegalCommand s.engine, 0#32, []⟩] := rfl
@[simp] theorem illegalCommand_requests (s : State) : (s.illegalCommand).requests = s.requests := by simp [State.illegalCommand, State.answer, Run.raise, Run.start]
@[simp] theorem resetWith_params (p : Params) : (State.resetWith p).params = p := rfl
@[simp] theorem resetWith_engine (p : Params) : (State.resetWith p).engine = Engine.reset p := rfl
@[simp] theorem resetWith_input (p : Params) : (State.resetWith p).input = [] := rfl
@[simp] theorem resetWith_responses (p : Params) : (State.resetWith p).responses = [] := rfl
@[simp] theorem resetWith_requests (p : Params) : (State.resetWith p).requests = [] := rfl

/-! ### A command in progress -/

@[simp] theorem start_engine (e : Engine) : (Run.start e).engine = e := rfl
@[simp] theorem start_dout (e : Engine) : (Run.start e).dout = [] := rfl
@[simp] theorem start_requests (e : Engine) : (Run.start e).requests = [] := rfl
@[simp] theorem start_err (e : Engine) : (Run.start e).err = .ok := rfl
@[simp] theorem modify_engine (r : Run) (k : Engine → Engine) : (r.modify k).engine = k r.engine := rfl
@[simp] theorem modify_dout (r : Run) (k : Engine → Engine) : (r.modify k).dout = r.dout := rfl
@[simp] theorem modify_requests (r : Run) (k : Engine → Engine) : (r.modify k).requests = r.requests := rfl
@[simp] theorem modify_err (r : Run) (k : Engine → Engine) : (r.modify k).err = r.err := rfl
@[simp] theorem out_engine (r : Run) (bs : Bytes) : (r.out bs).engine = r.engine := rfl
@[simp] theorem out_dout (r : Run) (bs : Bytes) : (r.out bs).dout = r.dout ++ bs := rfl
@[simp] theorem out_requests (r : Run) (bs : Bytes) : (r.out bs).requests = r.requests := rfl
@[simp] theorem out_err (r : Run) (bs : Bytes) : (r.out bs).err = r.err := rfl
@[simp] theorem ask_engine (p : Params) (op : CipherOp) (blk : Bytes) (r : Run) : ((r.ask p op blk).2).engine = r.engine := rfl
@[simp] theorem ask_dout (p : Params) (op : CipherOp) (blk : Bytes) (r : Run) : ((r.ask p op blk).2).dout = r.dout := rfl
@[simp] theorem ask_requests (p : Params) (op : CipherOp) (blk : Bytes) (r : Run) : ((r.ask p op blk).2).requests = r.requests ++ [⟨op, r.engine.boundKey, blk⟩] := rfl
@[simp] theorem ask_err (p : Params) (op : CipherOp) (blk : Bytes) (r : Run) : ((r.ask p op blk).2).err = r.err := rfl

theorem ask_answer (p : Params) (op : CipherOp) (blk : Bytes) (r : Run) :
    (r.ask p op blk).1 = cipherAnswer p ⟨op, r.engine.boundKey, blk⟩ := rfl

@[simp] theorem ask_enc (p : Params) (blk : Bytes) (r : Run) : (r.ask p .enc blk).1 = cipherEnc p r.engine.boundKey blk := rfl

@[simp] theorem ask_dec (p : Params) (blk : Bytes) (r : Run) : (r.ask p .dec blk).1 = cipherDec p r.engine.boundKey blk := rfl

@[simp] theorem raise_dout (r : Run) (c : Err) : (r.raise c).dout = r.dout := by cases c <;> rfl

@[simp] theorem raise_requests (r : Run) (c : Err) : (r.raise c).requests = r.requests := by cases c <;> rfl

@[simp] theorem raise_err (r : Run) (c : Err) : (r.raise c).err = c := by cases c <;> rfl

/-- An error that is no data error writes no register (60_exceptions.md R276). -/
theorem raise_engine (r : Run) (c : Err) (h : c ≠ .illegalLength) (h' : c ≠ .invalidPadding) : (r.raise c).engine = r.engine := by
  cases c <;> simp_all [Run.raise]

/-- A data error fails the session and keeps every other register (60_exceptions.md R276). -/
theorem raise_engine_data (r : Run) (c : Err) (h : c = .illegalLength ∨ c = .invalidPadding) :
    (r.raise c).engine = { r.engine with session := .failed } := by
  rcases h with rfl | rfl <;> rfl

theorem andThen_ok (r : Run) (k : Run → Run) (h : r.err = .ok) : r.andThen k = k r := by simp [Run.andThen, h]

theorem andThen_err (r : Run) (k : Run → Run) (h : r.err ≠ .ok) : r.andThen k = r := by
  unfold Run.andThen
  split
  · contradiction
  · rfl

@[simp] theorem response_dout (r : Run) : r.response.dout = r.dout := rfl

@[simp] theorem response_status (r : Run) : r.response.status = statusWord r.err r.engine := rfl

/-- Answering a run is `answered` with what the run holds. -/
theorem answer_eq_answered (s : State) (rest : List HostInput) (r : Run) :
    ({ s with input := rest } : State).answer r = s.answered rest r.engine r.err r.dout r.requests := rfl

end Sys2Proof.Machine
end

