-- ==== Sys2Proof/Laws/Frames.lean ====
section
/-! SUPPORT. What the data path never writes (41_engine.md R115, 46_ocb3_data.md R237): one relation between the registers before and
after, kept by every operation of the data path, and the cases of the index update. -/

namespace Sys2Proof.Machine

/-- The configuration, KEY, L* and L$ are unchanged and the table has only grown. -/
structure Engine.Keeps (e e' : Engine) : Prop where
  cfgMode : e'.cfgMode = e.cfgMode
  cfgDir : e'.cfgDir = e.cfgDir
  cfgPad : e'.cfgPad = e.cfgPad
  cfgTaglen : e'.cfgTaglen = e.cfgTaglen
  key : e'.key = e.key
  lstar : e'.lstar = e.lstar
  ldollar : e'.ldollar = e.ldollar
  lt : e.lt <+: e'.lt

theorem Engine.Keeps.refl (e : Engine) : e.Keeps e := ⟨rfl, rfl, rfl, rfl, rfl, rfl, rfl, List.prefix_refl _⟩

theorem Engine.Keeps.trans {e e' e'' : Engine} (h : e.Keeps e') (h' : e'.Keeps e'') : e.Keeps e'' :=
  ⟨h'.1.trans h.1, h'.2.trans h.2, h'.3.trans h.3, h'.4.trans h.4, h'.5.trans h.5, h'.6.trans h.6, h'.7.trans h.7,
    h.8.trans h'.8⟩

theorem Engine.Keeps.holdBack {e e' : Engine} (h : e.Keeps e') : e'.holdBack = e.holdBack := by
  simp [Engine.holdBack, h.1, h.2, h.3]

theorem raise_keeps (r : Run) (c : Err) : r.engine.Keeps (r.raise c).engine := by
  cases c <;> exact ⟨rfl, rfl, rfl, rfl, rfl, rfl, rfl, List.prefix_refl _⟩

theorem andThen_keeps (r : Run) (k : Run → Run) (h : r.err = .ok → r.engine.Keeps (k r).engine) :
    r.engine.Keeps (r.andThen k).engine := by
  by_cases hr : r.err = .ok
  · simpa [andThen_ok r k hr] using h hr
  · simpa [andThen_err r k hr] using Engine.Keeps.refl _

/-! ### The doubling cache (46_ocb3_data.md R232) -/

theorem growTable_prefix (b n : Nat) (lt : List Bytes) : lt <+: growTable b n lt := by
  induction n generalizing lt with
  | zero => exact List.prefix_refl _
  | succ n ih => exact (List.prefix_append lt _).trans (ih _)

@[simp] theorem growTable_length (b n : Nat) (lt : List Bytes) : (growTable b n lt).length = lt.length + n := by
  induction n generalizing lt with
  | zero => rfl
  | succ n ih => simp [growTable, ih]; omega

theorem growTo_prefix (b k : Nat) (lt : List Bytes) : lt <+: growTo b k lt := growTable_prefix _ _ _

theorem growTo_length (b k : Nat) (lt : List Bytes) : (growTo b k lt).length = max lt.length (k + 1) := by
  simp [growTo]; omega

/-- `L[k]` in the list of the first n masks (10_state.md R41). -/
theorem tableEntry_masks (b : Nat) (lstar : Bytes) (n k : Nat) (h : k < n) : tableEntry b (masks b lstar n) k = maskL b lstar k := by
  simp [tableEntry, masks, h]

theorem masks_succ (b : Nat) (lstar : Bytes) (n : Nat) : masks b lstar (n + 1) = masks b lstar n ++ [maskL b lstar n] := by
  simp [masks, List.range_succ]

theorem maskL_succ (b : Nat) (lstar : Bytes) (k : Nat) : maskL b lstar (k + 1) = double b (maskL b lstar k) := by
  simp only [maskL]
  rw [show k + 1 + 2 = (k + 2) + 1 from rfl, Function.iterate_succ_apply']

/-- Growing the first masks gives more of the masks. -/
theorem growTable_masks (b : Nat) (lstar : Bytes) (n len : Nat) (h : 1 ≤ len) :
    growTable b n (masks b lstar len) = masks b lstar (len + n) := by
  induction n generalizing len with
  | zero => rfl
  | succ n ih =>
    obtain ⟨m, rfl⟩ : ∃ m, len = m + 1 := ⟨len - 1, by omega⟩
    have hl : (masks b lstar (m + 1)).length = m + 1 := by simp [masks]
    rw [growTable, hl, Nat.add_sub_cancel, tableEntry_masks _ _ _ _ (by omega), ← maskL_succ, ← masks_succ, ih (m + 1 + 1) (by omega)]
    congr 1
    omega

theorem growTo_masks (b : Nat) (lstar : Bytes) (k len : Nat) (h : 1 ≤ len) :
    growTo b k (masks b lstar len) = masks b lstar (max len (k + 1)) := by
  have hl : (masks b lstar len).length = len := by simp [masks]
  rw [growTo, hl, growTable_masks b lstar _ len h]
  congr 1
  omega

/-! ### ntz (46_ocb3_data.md R230) -/

theorem ntzUpTo_lt (fuel i : Nat) (h1 : 1 ≤ i) (h2 : i < 2 ^ fuel) : ntzUpTo fuel i < fuel := by
  induction fuel generalizing i with
  | zero => omega
  | succ fuel ih =>
    unfold ntzUpTo
    split
    · omega
    · have := ih (i / 2) (by omega) (by rw [Nat.pow_succ] at h2; omega)
      omega

/-- A 64-bit block index has at most 63 trailing zeros (46_ocb3_data.md R230). -/
theorem ntz_lt (i : Nat) (h1 : 1 ≤ i) (h2 : i < 2 ^ 64) : ntz i < 64 := ntzUpTo_lt 64 i h1 h2

/-- The index after an update that does not overflow. -/
theorem index_succ (x : BitVec 64) (h : x ≠ BitVec.allOnes 64) : (x + 1#64).toNat = x.toNat + 1 := by
  have hx := x.isLt
  have : x.toNat ≠ 2 ^ 64 - 1 := fun he => h (BitVec.eq_of_toNat_eq (by simpa using he))
  simp only [BitVec.toNat_add, BitVec.toNat_ofNat]
  omega

/-! ### The index update (46_ocb3_data.md R231) -/

/-- Everything IncreaseDelta can do. -/
theorem increaseDelta_cases (p : Params) (st : Stream) (r : Run) :
    (r.engine.index st = BitVec.allOnes 64 ∧ increaseDelta p st r = r.raise .illegalLength) ∨
    (r.engine.index st ≠ BitVec.allOnes 64 ∧ ∃ k lt,
      k = ntz ((r.engine.index st).toNat + 1) ∧ lt = growTo p.blockBytes k r.engine.lt ∧
      increaseDelta p st r = r.modify fun e =>
        match st with
        | .msg => { e with midx := e.midx + 1#64, lt := lt, delta := xorBytes e.delta (tableEntry p.blockBytes lt k) }
        | .aad => { e with aidx := e.aidx + 1#64, lt := lt, deltaAad := xorBytes e.deltaAad (tableEntry p.blockBytes lt k) }) := by
  by_cases h : r.engine.index st = BitVec.allOnes 64
  · exact .inl ⟨h, by simp [increaseDelta, h]⟩
  · refine .inr ⟨h, _, _, rfl, rfl, ?_⟩
    rw [← index_succ _ h]
    unfold increaseDelta
    rw [if_neg h]
    cases st <;> rfl

theorem increaseDelta_keeps (p : Params) (st : Stream) (r : Run) : r.engine.Keeps (increaseDelta p st r).engine := by
  rcases increaseDelta_cases p st r with ⟨_, h⟩ | ⟨_, k, lt, _, rfl, h⟩
  · rw [h]
    exact raise_keeps _ _
  · rw [h]
    cases st <;> exact ⟨rfl, rfl, rfl, rfl, rfl, rfl, rfl, growTo_prefix _ _ _⟩

/-! ### Block operations and Finals -/

theorem ecbBlock_keeps (p : Params) (blk : Bytes) (r : Run) : r.engine.Keeps (ecbBlock p blk r).2.engine := by
  unfold ecbBlock
  split <;> exact Engine.Keeps.refl _

theorem ctrBlock_keeps (p : Params) (blk : Bytes) (r : Run) : r.engine.Keeps (ctrBlock p blk r).2.engine :=
  ⟨rfl, rfl, rfl, rfl, rfl, rfl, rfl, List.prefix_refl _⟩

theorem ocb3Block_keeps (p : Params) (blk : Bytes) (r : Run) : r.engine.Keeps (ocb3Block p blk r).2.engine := by
  have h := increaseDelta_keeps p .msg r
  unfold ocb3Block
  dsimp only
  split
  · exact h.trans ⟨rfl, rfl, rfl, rfl, rfl, rfl, rfl, List.prefix_refl _⟩
  · exact h.trans ⟨rfl, rfl, rfl, rfl, rfl, rfl, rfl, List.prefix_refl _⟩
  · exact h

theorem blockOp_keeps (p : Params) (blk : Bytes) (r : Run) : r.engine.Keeps (blockOp p blk r).2.engine := by
  unfold blockOp
  split
  · exact ecbBlock_keeps p blk r
  · exact ctrBlock_keeps p blk r
  · exact ocb3Block_keeps p blk r

theorem release_keeps (p : Params) (r : Run) : r.engine.Keeps (release p r).engine :=
  (blockOp_keeps p _ r).trans (andThen_keeps _ _ fun _ => ⟨rfl, rfl, rfl, rfl, rfl, rfl, rfl, List.prefix_refl _⟩)

theorem makeRoom_keeps (p : Params) (r : Run) : r.engine.Keeps (makeRoom p r).engine := by
  unfold makeRoom
  split
  · exact release_keeps p r
  · exact Engine.Keeps.refl _

theorem pushByte_keeps (p : Params) (x : Byte) (r : Run) : r.engine.Keeps (pushByte p x r).engine := by
  have hp : r.engine.Keeps (r.modify fun e => { e with buf := e.buf ++ [x] }).engine :=
    ⟨rfl, rfl, rfl, rfl, rfl, rfl, rfl, List.prefix_refl _⟩
  unfold pushByte
  dsimp only
  split
  · exact hp.trans (release_keeps p _)
  · exact hp

theorem feed_keeps (p : Params) (r : Run) (x : Byte) : r.engine.Keeps (feed p r x).engine :=
  andThen_keeps _ _ fun _ => (makeRoom_keeps p r).trans (andThen_keeps _ _ fun _ => pushByte_keeps p x _)

theorem feedAll_keeps (p : Params) (bs : Bytes) (r : Run) : r.engine.Keeps (feedAll p bs r).engine := by
  induction bs generalizing r with
  | nil => exact Engine.Keeps.refl _
  | cons x bs ih => exact (feed_keeps p r x).trans (ih _)

theorem aadFeed_keeps (p : Params) (r : Run) (x : Byte) : r.engine.Keeps (aadFeed p r x).engine := by
  refine andThen_keeps _ _ fun _ => ?_
  dsimp only
  have hp : r.engine.Keeps (r.modify fun e => { e with abuf := e.abuf ++ [x] }).engine :=
    ⟨rfl, rfl, rfl, rfl, rfl, rfl, rfl, List.prefix_refl _⟩
  split
  · refine (hp.trans (increaseDelta_keeps p .aad _)).trans (andThen_keeps _ _ fun _ => ?_)
    exact ⟨rfl, rfl, rfl, rfl, rfl, rfl, rfl, List.prefix_refl _⟩
  · exact hp

theorem aadFeedAll_keeps (p : Params) (bs : Bytes) (r : Run) : r.engine.Keeps (aadFeedAll p bs r).engine := by
  induction bs generalizing r with
  | nil => exact Engine.Keeps.refl _
  | cons x bs ih => exact (aadFeed_keeps p r x).trans (ih _)

theorem final_keeps (p : Params) (r : Run) : r.engine.Keeps (final p r).engine := by
  have same : ∀ e : Engine, e.Keeps { e with buf := [] } := fun e => ⟨rfl, rfl, rfl, rfl, rfl, rfl, rfl, List.prefix_refl _⟩
  unfold final
  split
  · exact same _
  · unfold finalEcbDecPad
    split
    · exact raise_keeps _ _
    · dsimp only
      split
      · exact raise_keeps (r.ask p .dec r.engine.buf).2 .invalidPadding
      · exact same _
  · unfold finalEcbNoPad
    split
    · exact Engine.Keeps.refl _
    · split
      · exact (ecbBlock_keeps p _ r).trans (same _)
      · exact raise_keeps _ _
  · unfold finalCtr
    split
    · exact Engine.Keeps.refl _
    · exact same _
  · have ha : r.engine.Keeps (foldAad p r).engine := by
      unfold foldAad
      split
      · exact Engine.Keeps.refl _
      · exact ⟨rfl, rfl, rfl, rfl, rfl, rfl, rfl, List.prefix_refl _⟩
    have hm : ∀ r : Run, r.engine.Keeps (foldMessage p r).engine := by
      intro r
      unfold foldMessage
      split
      · exact Engine.Keeps.refl _
      · exact ⟨rfl, rfl, rfl, rfl, rfl, rfl, rfl, List.prefix_refl _⟩
    exact (ha.trans (hm _)).trans ⟨rfl, rfl, rfl, rfl, rfl, rfl, rfl, List.prefix_refl _⟩

end Sys2Proof.Machine
end

