-- ==== Sys2Proof/Laws/Streaming.lean ====
section
/-! SUPPORT. The byte loops of the streaming engine as loops over blocks (41_engine.md R122, R124, R127, 46_ocb3_data.md R236): which
blocks the bytes of a command release, and what they leave in the buffers. -/

namespace Sys2Proof.Machine

/-- BUF <- x. -/
def Run.setBuf (x : Bytes) (r : Run) : Run := r.modify fun e => { e with buf := x }

/-- ABUF <- x. -/
def Run.setAbuf (x : Bytes) (r : Run) : Run := r.modify fun e => { e with abuf := x }

@[simp] theorem setBuf_engine (x : Bytes) (r : Run) : (r.setBuf x).engine = { r.engine with buf := x } := rfl
@[simp] theorem setBuf_dout (x : Bytes) (r : Run) : (r.setBuf x).dout = r.dout := rfl
@[simp] theorem setBuf_requests (x : Bytes) (r : Run) : (r.setBuf x).requests = r.requests := rfl
@[simp] theorem setBuf_err (x : Bytes) (r : Run) : (r.setBuf x).err = r.err := rfl
@[simp] theorem setBuf_setBuf (x y : Bytes) (r : Run) : (r.setBuf x).setBuf y = r.setBuf y := rfl
theorem setBuf_self (r : Run) : r.setBuf r.engine.buf = r := rfl
theorem setBuf_nil (r : Run) (h : r.engine.buf = []) : r.setBuf [] = r := by rw [← h, setBuf_self]
@[simp] theorem setAbuf_engine (x : Bytes) (r : Run) : (r.setAbuf x).engine = { r.engine with abuf := x } := rfl
@[simp] theorem setAbuf_dout (x : Bytes) (r : Run) : (r.setAbuf x).dout = r.dout := rfl
@[simp] theorem setAbuf_requests (x : Bytes) (r : Run) : (r.setAbuf x).requests = r.requests := rfl
@[simp] theorem setAbuf_err (x : Bytes) (r : Run) : (r.setAbuf x).err = r.err := rfl
@[simp] theorem setAbuf_setAbuf (x y : Bytes) (r : Run) : (r.setAbuf x).setAbuf y = r.setAbuf y := rfl
theorem setAbuf_self (r : Run) : r.setAbuf r.engine.abuf = r := rfl
theorem setAbuf_nil (r : Run) (h : r.engine.abuf = []) : r.setAbuf [] = r := by rw [← h, setAbuf_self]

/-! ### Errors end a loop (60_exceptions.md R279) -/

theorem feed_err (p : Params) (r : Run) (x : Byte) (h : r.err ≠ .ok) : feed p r x = r := andThen_err _ _ h

theorem feedAll_err (p : Params) (bs : Bytes) (r : Run) (h : r.err ≠ .ok) : feedAll p bs r = r := by
  induction bs with
  | nil => rfl
  | cons x bs ih => simpa [feedAll, feed_err p r x h] using ih

theorem feedAll_append (p : Params) (x y : Bytes) (r : Run) : feedAll p (x ++ y) r = feedAll p y (feedAll p x r) := by
  simp [feedAll]

theorem aadFeed_err (p : Params) (r : Run) (x : Byte) (h : r.err ≠ .ok) : aadFeed p r x = r := andThen_err _ _ h

theorem aadFeedAll_err (p : Params) (bs : Bytes) (r : Run) (h : r.err ≠ .ok) : aadFeedAll p bs r = r := by
  induction bs with
  | nil => rfl
  | cons x bs ih => simpa [aadFeedAll, aadFeed_err p r x h] using ih

theorem aadFeedAll_append (p : Params) (x y : Bytes) (r : Run) :
    aadFeedAll p (x ++ y) r = aadFeedAll p y (aadFeedAll p x r) := by
  simp [aadFeedAll]

/-! ### Blocks of a text (20_memory.md R64) -/

theorem remainder_length (b : Nat) (text : Bytes) (n : Nat) : (remainder b text n).length = text.length - b * n := by
  simp [remainder]

theorem blockAt_length (b : Nat) (text : Bytes) (i : Nat) (h : b * (i + 1) ≤ text.length) : (blockAt b text i).length = b := by
  rw [Nat.mul_succ] at h
  simp [blockAt]
  omega

/-- A byte more does not change the blocks before it. -/
theorem blockAt_snoc (b : Nat) (text : Bytes) (x : Byte) (i : Nat) (h : b * (i + 1) ≤ text.length) :
    blockAt b (text ++ [x]) i = blockAt b text i := by
  rw [Nat.mul_succ] at h
  simp only [blockAt]
  rw [List.drop_append_of_le_length (by omega), List.take_append_of_le_length (by simp; omega)]

theorem blocks_snoc (b : Nat) (text : Bytes) (x : Byte) (n : Nat) (h : b * n ≤ text.length) :
    (List.range n).map (blockAt b (text ++ [x])) = (List.range n).map (blockAt b text) := by
  apply List.map_congr_left
  intro i hi
  exact blockAt_snoc b text x i (le_trans (Nat.mul_le_mul_left b (by simpa using hi)) h)

theorem remainder_snoc (b : Nat) (text : Bytes) (x : Byte) (n : Nat) (h : b * n ≤ text.length) :
    remainder b (text ++ [x]) n = remainder b text n ++ [x] := by
  simp only [remainder]
  rw [List.drop_append_of_le_length h]

/-- When exactly b bytes remain they are the next block. -/
theorem remainder_eq_blockAt (b : Nat) (text : Bytes) (n : Nat) (h : (remainder b text n).length ≤ b) :
    remainder b text n = blockAt b text n := by
  simp only [blockAt]
  rw [List.take_of_length_le]
  · rfl
  · exact h

/-! ### The message loop -/

/-- Release one given block. -/
def releaseBlock (p : Params) (blk : Bytes) (r : Run) : Run := release p (r.setBuf blk)

/-- Release given blocks, up to an error. -/
def releaseBlocks (p : Params) (blocks : List Bytes) (r : Run) : Run :=
  blocks.foldl (fun r blk => r.andThen (releaseBlock p blk)) r

@[simp] theorem releaseBlocks_nil (p : Params) (r : Run) : releaseBlocks p [] r = r := rfl

theorem releaseBlocks_snoc (p : Params) (blocks : List Bytes) (blk : Bytes) (r : Run) :
    releaseBlocks p (blocks ++ [blk]) r = (releaseBlocks p blocks r).andThen (releaseBlock p blk) := by
  simp [releaseBlocks]

theorem releaseBlocks_err (p : Params) (blocks : List Bytes) (r : Run) (h : r.err ≠ .ok) : releaseBlocks p blocks r = r := by
  induction blocks with
  | nil => rfl
  | cons blk blocks ih => simpa [releaseBlocks, andThen_err r _ h] using ih

theorem releaseBlocks_keeps (p : Params) (blocks : List Bytes) (r : Run) : r.engine.Keeps (releaseBlocks p blocks r).engine := by
  induction blocks generalizing r with
  | nil => exact Engine.Keeps.refl _
  | cons blk blocks ih =>
    refine Engine.Keeps.trans (andThen_keeps r _ fun _ => ?_) (ih _)
    exact Engine.Keeps.trans (e' := (r.setBuf blk).engine) ⟨rfl, rfl, rfl, rfl, rfl, rfl, rfl, List.prefix_refl _⟩
      (release_keeps p (r.setBuf blk))

theorem releaseBlock_setBuf (p : Params) (blk x : Bytes) (r : Run) : releaseBlock p blk (r.setBuf x) = releaseBlock p blk r := rfl

/-- A block released without an error leaves the buffer empty. -/
theorem release_buf (p : Params) (r : Run) (h : (release p r).err = .ok) : (release p r).engine.buf = [] := by
  unfold release at h ⊢
  dsimp only at h ⊢
  by_cases hr : (blockOp p r.engine.buf r).2.err = .ok
  · rw [andThen_ok _ _ hr]
    rfl
  · rw [andThen_err _ _ hr] at h
    contradiction

theorem releaseBlock_buf (p : Params) (blk : Bytes) (r : Run) (h : (releaseBlock p blk r).err = .ok) :
    (releaseBlock p blk r).engine.buf = [] := release_buf p _ h

/-- The released count after one more byte. -/
theorem releasedBlocks_succ (hold : Bool) (b len : Nat) (hb : 1 ≤ b) :
    let n := releasedBlocks hold b len
    releasedBlocks hold b (len + 1) =
      if hold then (if len - b * n = b then n + 1 else n) else (if len + 1 - b * n = b then n + 1 else n) := by
  cases hold
  · simp only [releasedBlocks, Bool.false_eq_true, if_false]
    have h := Nat.div_add_mod len b
    have hm := Nat.mod_lt len hb
    generalize len / b = q at *
    split
    · rw [show len + 1 = b * (q + 1) by rw [Nat.mul_succ]; omega, Nat.mul_div_cancel_left _ hb]
    · refine Nat.div_eq_of_lt_le ?_ ?_
      · rw [Nat.mul_comm]; omega
      · rw [Nat.mul_comm, Nat.mul_succ]; omega
  · simp only [releasedBlocks, if_true, Nat.add_sub_cancel]
    have h := Nat.div_add_mod (len - 1) b
    have hm := Nat.mod_lt (len - 1) hb
    generalize (len - 1) / b = q at *
    split
    · rw [show len = b * (q + 1) by rw [Nat.mul_succ]; omega, Nat.mul_div_cancel_left _ hb]
    · refine Nat.div_eq_of_lt_le ?_ ?_
      · rw [Nat.mul_comm]; omega
      · rw [Nat.mul_comm, Nat.mul_succ]; omega

theorem releasedBlocks_le (hold : Bool) (b len : Nat) : b * releasedBlocks hold b len ≤ len := by
  cases hold
  · exact Nat.mul_div_le len b
  · exact (Nat.mul_div_le (len - 1) b).trans (Nat.sub_le _ _)

/-- What is left is at most a block, and less than one without hold-back (41_engine.md R127). -/
theorem releasedBlocks_rest (hold : Bool) (b len : Nat) (hb : 1 ≤ b) :
    len - b * releasedBlocks hold b len ≤ b ∧ (hold = false → len - b * releasedBlocks hold b len < b) := by
  cases hold
  · have h := Nat.div_add_mod len b
    have hm := Nat.mod_lt len hb
    simp only [releasedBlocks, Bool.false_eq_true, if_false]
    constructor <;> omega
  · have h := Nat.div_add_mod (len - 1) b
    have hm := Nat.mod_lt (len - 1) hb
    simp only [releasedBlocks, if_true]
    constructor
    · omega
    · intro h
      cases h

/-- The byte loop of UPDATE and DO_FINAL: the buffered bytes and the new ones, cut into blocks; all but the remainder released
(41_engine.md R122, R124, R127). -/
theorem feedAll_eq (p : Params) (msg : Bytes) (r : Run) (hb : 1 ≤ p.blockBytes) (hr : r.err = .ok)
    (hl : r.engine.buf.length ≤ p.blockBytes) (he : r.engine.holdBack = false → r.engine.buf.length < p.blockBytes) :
    let text := r.engine.buf ++ msg
    let n := releasedBlocks r.engine.holdBack p.blockBytes text.length
    feedAll p msg r =
      (releaseBlocks p ((List.range n).map (blockAt p.blockBytes text)) r).andThen (Run.setBuf (remainder p.blockBytes text n)) := by
  induction msg using List.reverseRecOn with
  | nil =>
    have h0 : releasedBlocks r.engine.holdBack p.blockBytes r.engine.buf.length = 0 := by
      unfold releasedBlocks
      split
      · exact Nat.div_eq_of_lt (by omega)
      · exact Nat.div_eq_of_lt (he (by simp_all))
    simp only [List.append_nil, h0, List.range_zero, List.map_nil, releaseBlocks_nil, andThen_ok _ _ hr]
    simp [remainder, feedAll, setBuf_self]
  | append_singleton msg x ih =>
    dsimp only at ih ⊢
    rw [feedAll_append, ih, ← List.append_assoc]
    simp only [List.length_append (bs := [x]), List.length_singleton]
    generalize r.engine.buf ++ msg = text at *
    have hn := releasedBlocks_le r.engine.holdBack p.blockBytes text.length
    have hs := releasedBlocks_succ r.engine.holdBack p.blockBytes text.length hb
    have hrest := releasedBlocks_rest r.engine.holdBack p.blockBytes text.length hb
    dsimp only at hs
    generalize releasedBlocks r.engine.holdBack p.blockBytes text.length = n at *
    rw [← remainder_length] at hrest
    have hkeep := releaseBlocks_keeps p ((List.range n).map (blockAt p.blockBytes text)) r
    have hblocks := blocks_snoc p.blockBytes text x n hn
    have hsn := remainder_snoc p.blockBytes text x n hn
    rw [hs]
    by_cases hok : (releaseBlocks p ((List.range n).map (blockAt p.blockBytes text)) r).err = .ok
    · rw [andThen_ok _ _ hok]
      have h1 : ∀ R : Run, feedAll p [x] R = feed p R x := fun _ => rfl
      have hh := hkeep.holdBack
      rw [h1, feed, andThen_ok _ _ (by simpa using hok)]
      have hold' : ∀ y, ((releaseBlocks p ((List.range n).map (blockAt p.blockBytes text)) r).setBuf y).engine.holdBack =
          r.engine.holdBack := fun _ => hh
      cases hcase : r.engine.holdBack
      · have hc : text.length + 1 - p.blockBytes * n = (remainder p.blockBytes text n ++ [x]).length := by
          have := remainder_length p.blockBytes text n
          simp only [List.length_append, List.length_singleton]
          omega
        rw [makeRoom, hold', hcase]
        simp only [Bool.false_and, Bool.false_eq_true, if_false]
        rw [andThen_ok _ _ (by simpa using hok), pushByte]
        have hpush : (((releaseBlocks p ((List.range n).map (blockAt p.blockBytes text)) r).setBuf
            (remainder p.blockBytes text n)).modify fun e => { e with buf := e.buf ++ [x] }) =
            (releaseBlocks p ((List.range n).map (blockAt p.blockBytes text)) r).setBuf (remainder p.blockBytes text n ++ [x]) := rfl
        rw [hpush, hold', hcase, hc]
        simp only [Bool.not_false, Bool.true_and, setBuf_engine, beq_iff_eq]
        by_cases hf : (remainder p.blockBytes text n ++ [x]).length = p.blockBytes
        · simp only [hf, if_true]
          have hb2 : blockAt p.blockBytes (text ++ [x]) n = remainder p.blockBytes text n ++ [x] := by
            rw [← hsn, remainder_eq_blockAt]
            rw [hsn, hf]
          have hz : remainder p.blockBytes (text ++ [x]) (n + 1) = [] := by
            have := remainder_length p.blockBytes (text ++ [x]) (n + 1)
            have h2 := remainder_length p.blockBytes text n
            rw [Nat.mul_succ] at this
            simp only [List.length_append, List.length_singleton] at this hf
            exact List.eq_nil_of_length_eq_zero (by omega)
          rw [List.range_succ, List.map_append, List.map_singleton, releaseBlocks_snoc, hblocks, andThen_ok _ _ hok, hb2, hz]
          change releaseBlock p _ _ = Run.andThen (releaseBlock p _ _) _
          by_cases he2 : (releaseBlock p (remainder p.blockBytes text n ++ [x])
              (releaseBlocks p ((List.range n).map (blockAt p.blockBytes text)) r)).err = .ok
          · rw [andThen_ok _ _ he2, setBuf_nil _ (releaseBlock_buf p _ _ he2)]
          · rw [andThen_err _ _ he2]
        · simp only [hf, if_false]
          rw [hblocks, andThen_ok _ _ hok, hsn]
      · have hc : text.length - p.blockBytes * n = (remainder p.blockBytes text n).length := (remainder_length _ _ _).symm
        rw [makeRoom, hold', hcase, hc]
        simp only [Bool.true_and, setBuf_engine, beq_iff_eq, if_true]
        by_cases hf : (remainder p.blockBytes text n).length = p.blockBytes
        · simp only [hf, if_true]
          have hb2 : blockAt p.blockBytes (text ++ [x]) n = remainder p.blockBytes text n := by
            rw [blockAt_snoc _ _ _ _ (by
              have := remainder_length p.blockBytes text n
              rw [Nat.mul_succ]; omega), remainder_eq_blockAt _ _ _ hrest.1]
          have hz : remainder p.blockBytes (text ++ [x]) (n + 1) = [x] := by
            have h2 := remainder_length p.blockBytes text n
            rw [remainder_snoc _ _ _ _ (by rw [Nat.mul_succ]; omega)]
            have : remainder p.blockBytes text (n + 1) = [] :=
              List.eq_nil_of_length_eq_zero (by rw [remainder_length, Nat.mul_succ]; omega)
            rw [this]
            rfl
          rw [List.range_succ, List.map_append, List.map_singleton, releaseBlocks_snoc, hblocks, andThen_ok _ _ hok, hb2, hz]
          change Run.andThen (releaseBlock p _ _) _ = Run.andThen (releaseBlock p _ _) _
          by_cases he2 : (releaseBlock p (remainder p.blockBytes text n)
              (releaseBlocks p ((List.range n).map (blockAt p.blockBytes text)) r)).err = .ok
          · rw [andThen_ok _ _ he2, andThen_ok _ _ he2, pushByte]
            have hk2 := (release_keeps p ((releaseBlocks p ((List.range n).map (blockAt p.blockBytes text)) r).setBuf
              (remainder p.blockBytes text n))).holdBack
            rw [hold', hcase] at hk2
            have hbuf := release_buf p _ he2
            have hk3 : (((releaseBlock p (remainder p.blockBytes text n)
              (releaseBlocks p ((List.range n).map (blockAt p.blockBytes text)) r)).modify fun e =>
                { e with buf := e.buf ++ [x] })).engine.holdBack = true := hk2
            rw [hk3]
            simp only [Bool.not_true, Bool.false_and, Bool.false_eq_true, if_false]
            unfold Run.setBuf
            simp only [Run.modify]
            rw [show (releaseBlock p (remainder p.blockBytes text n)
              (releaseBlocks p ((List.range n).map (blockAt p.blockBytes text)) r)).engine.buf = [] from hbuf]
            rfl
          · rw [andThen_err _ _ he2, andThen_err _ _ he2]
        · simp only [hf, if_false]
          rw [andThen_ok _ _ (by simpa using hok), pushByte]
          have hpush : (((releaseBlocks p ((List.range n).map (blockAt p.blockBytes text)) r).setBuf
              (remainder p.blockBytes text n)).modify fun e => { e with buf := e.buf ++ [x] }) =
              (releaseBlocks p ((List.range n).map (blockAt p.blockBytes text)) r).setBuf (remainder p.blockBytes text n ++ [x]) := rfl
          rw [hpush, hold', hcase]
          simp only [Bool.not_true, Bool.false_and, Bool.false_eq_true, if_false]
          rw [hblocks, andThen_ok _ _ hok, hsn]
    · rw [andThen_err _ _ hok, feedAll_err _ _ _ hok]
      have hgo : ∀ m, n ≤ m → m ≤ n + 1 →
          releaseBlocks p ((List.range m).map (blockAt p.blockBytes (text ++ [x]))) r =
            releaseBlocks p ((List.range n).map (blockAt p.blockBytes text)) r := by
        intro m h1 h2
        obtain rfl | rfl : m = n ∨ m = n + 1 := by omega
        · rw [hblocks]
        · rw [List.range_succ, List.map_append, List.map_singleton, releaseBlocks_snoc, hblocks, andThen_err _ _ hok]
      rw [hgo _ (by split <;> split <;> omega) (by split <;> split <;> omega), andThen_err _ _ hok]

/-! ### The AAD loop -/

/-- Fold one given AAD block (46_ocb3_data.md R236). -/
def foldAadBlock (p : Params) (blk : Bytes) (r : Run) : Run :=
  (increaseDelta p .aad (r.setAbuf blk)).andThen fun r =>
    let y := r.ask p .enc (xorBytes r.engine.abuf r.engine.deltaAad)
    y.2.modify fun e => { e with authAcc := xorBytes e.authAcc y.1, abuf := [] }

/-- Fold given AAD blocks, up to an error. -/
def foldAadBlocks (p : Params) (blocks : List Bytes) (r : Run) : Run :=
  blocks.foldl (fun r blk => r.andThen (foldAadBlock p blk)) r

@[simp] theorem foldAadBlocks_nil (p : Params) (r : Run) : foldAadBlocks p [] r = r := rfl

theorem foldAadBlocks_snoc (p : Params) (blocks : List Bytes) (blk : Bytes) (r : Run) :
    foldAadBlocks p (blocks ++ [blk]) r = (foldAadBlocks p blocks r).andThen (foldAadBlock p blk) := by
  simp [foldAadBlocks]

theorem foldAadBlock_setAbuf (p : Params) (blk x : Bytes) (r : Run) : foldAadBlock p blk (r.setAbuf x) = foldAadBlock p blk r := rfl

/-- A block folded without an error leaves the buffer empty. -/
theorem foldAadBlock_abuf (p : Params) (blk : Bytes) (r : Run) (h : (foldAadBlock p blk r).err = .ok) :
    (foldAadBlock p blk r).engine.abuf = [] := by
  unfold foldAadBlock at h ⊢
  by_cases hr : (increaseDelta p .aad (r.setAbuf blk)).err = .ok
  · rw [andThen_ok _ _ hr]
    rfl
  · rw [andThen_err _ _ hr] at h
    contradiction

/-- The byte loop of UPDATE_AAD (46_ocb3_data.md R235, R236). -/
theorem aadFeedAll_eq (p : Params) (aad : Bytes) (r : Run) (hb : 1 ≤ p.blockBytes) (hr : r.err = .ok)
    (hl : r.engine.abuf.length < p.blockBytes) :
    let text := r.engine.abuf ++ aad
    let n := text.length / p.blockBytes
    aadFeedAll p aad r =
      (foldAadBlocks p ((List.range n).map (blockAt p.blockBytes text)) r).andThen (Run.setAbuf (remainder p.blockBytes text n)) := by
  induction aad using List.reverseRecOn with
  | nil =>
    simp only [List.append_nil, Nat.div_eq_of_lt hl, List.range_zero, List.map_nil, foldAadBlocks_nil, andThen_ok _ _ hr]
    simp [remainder, aadFeedAll, setAbuf_self]
  | append_singleton aad x ih =>
    dsimp only at ih ⊢
    rw [aadFeedAll_append, ih, ← List.append_assoc]
    simp only [List.length_append (bs := [x]), List.length_singleton]
    generalize r.engine.abuf ++ aad = text at *
    have hn := releasedBlocks_le false p.blockBytes text.length
    have hs := releasedBlocks_succ false p.blockBytes text.length hb
    simp only [releasedBlocks, Bool.false_eq_true, if_false] at hn hs
    rw [hs]
    generalize text.length / p.blockBytes = n at *
    have hblocks := blocks_snoc p.blockBytes text x n hn
    have hsn := remainder_snoc p.blockBytes text x n hn
    have hc : text.length + 1 - p.blockBytes * n = (remainder p.blockBytes text n ++ [x]).length := by
      have := remainder_length p.blockBytes text n
      simp only [List.length_append, List.length_singleton]
      omega
    rw [hc]
    by_cases hok : (foldAadBlocks p ((List.range n).map (blockAt p.blockBytes text)) r).err = .ok
    · rw [andThen_ok _ _ hok]
      change aadFeed p _ x = _
      rw [aadFeed, andThen_ok _ _ (by simpa using hok)]
      have hpush : (((foldAadBlocks p ((List.range n).map (blockAt p.blockBytes text)) r).setAbuf
          (remainder p.blockBytes text n)).modify fun e => { e with abuf := e.abuf ++ [x] }) =
          (foldAadBlocks p ((List.range n).map (blockAt p.blockBytes text)) r).setAbuf (remainder p.blockBytes text n ++ [x]) := rfl
      dsimp only
      rw [hpush]
      simp only [setAbuf_engine]
      by_cases hf : (remainder p.blockBytes text n ++ [x]).length = p.blockBytes
      · simp only [hf, if_true]
        have hb2 : blockAt p.blockBytes (text ++ [x]) n = remainder p.blockBytes text n ++ [x] := by
          rw [← hsn, remainder_eq_blockAt]
          rw [hsn, hf]
        have hz : remainder p.blockBytes (text ++ [x]) (n + 1) = [] := by
          have := remainder_length p.blockBytes (text ++ [x]) (n + 1)
          have h2 := remainder_length p.blockBytes text n
          rw [Nat.mul_succ] at this
          simp only [List.length_append, List.length_singleton] at this hf
          exact List.eq_nil_of_length_eq_zero (by omega)
        rw [List.range_succ, List.map_append, List.map_singleton, foldAadBlocks_snoc, hblocks, andThen_ok _ _ hok, hb2, hz]
        change foldAadBlock p _ _ = Run.andThen (foldAadBlock p _ _) _
        by_cases he2 : (foldAadBlock p (remainder p.blockBytes text n ++ [x])
            (foldAadBlocks p ((List.range n).map (blockAt p.blockBytes text)) r)).err = .ok
        · rw [andThen_ok _ _ he2, setAbuf_nil _ (foldAadBlock_abuf p _ _ he2)]
        · rw [andThen_err _ _ he2]
      · simp only [hf, if_false]
        rw [hblocks, andThen_ok _ _ hok, hsn]
    · rw [andThen_err _ _ hok, aadFeedAll_err _ _ _ hok]
      split
      · rw [List.range_succ, List.map_append, List.map_singleton, foldAadBlocks_snoc, hblocks, andThen_err _ _ hok,
          andThen_err _ _ hok]
      · rw [hblocks, andThen_err _ _ hok]

end Sys2Proof.Machine
end

