-- ==== Sys2Proof/Laws/Modes.lean ====
section
/-! SUPPORT. What releasing given blocks does in each mode (43_ecb.md R161, 44_ctr.md R183, 46_ocb3_data.md R231 to R240), and what
folding given AAD blocks does (R236). -/

namespace Sys2Proof.Machine

/-! ### ECB -/

theorem releaseBlock_ecb (p : Params) (blk : Bytes) (r : Run) (hr : r.err = .ok) (hm : r.engine.cfgMode = .ecb) :
    releaseBlock p blk r =
      ⟨{ r.engine with buf := [] }, r.dout ++ cipherOf p r.engine.cfgDir r.engine.boundKey blk,
        r.requests ++ [⟨opOf r.engine.cfgDir, r.engine.boundKey, blk⟩], .ok⟩ := by
  obtain ⟨e, dout, asked, err⟩ := r
  subst hr
  simp only at hm
  cases hd : e.cfgDir <;> simp [releaseBlock, release, blockOp, ecbBlock, Run.setBuf, Run.modify, Run.ask, Run.andThen, Run.out,
    cipherAnswer, cipherOf, opOf, hm, hd, Engine.boundKey]

/-- ECB: every block through the cipher, nothing else changed (43_ecb.md R161). -/
theorem releaseBlocks_ecb (p : Params) (blocks : List Bytes) (x : Bytes) (r : Run) (hr : r.err = .ok)
    (hm : r.engine.cfgMode = .ecb) :
    (releaseBlocks p blocks r).setBuf x =
      ⟨{ r.engine with buf := x }, r.dout ++ blocks.flatMap (cipherOf p r.engine.cfgDir r.engine.boundKey),
        r.requests ++ blocks.map (fun blk => ⟨opOf r.engine.cfgDir, r.engine.boundKey, blk⟩), .ok⟩ := by
  induction blocks using List.reverseRecOn generalizing x with
  | nil => simp [Run.setBuf, Run.modify, hr]
  | append_singleton blocks blk ih =>
    have he : (releaseBlocks p blocks r).err = .ok := by simpa using congrArg Run.err (ih [])
    rw [releaseBlocks_snoc, andThen_ok _ _ he, ← releaseBlock_setBuf p blk [], ih [], releaseBlock_ecb _ _ _ rfl (by simpa using hm)]
    simp [Run.setBuf, Run.modify, Engine.boundKey]

/-! ### CTR -/

theorem releaseBlock_ctr (p : Params) (blk : Bytes) (r : Run) (hr : r.err = .ok) (hm : r.engine.cfgMode = .ctr) :
    releaseBlock p blk r =
      ⟨{ r.engine with buf := [], ctr := increment r.engine.ctr },
        r.dout ++ xorBytes blk (cipherEnc p r.engine.boundKey r.engine.ctr),
        r.requests ++ [⟨.enc, r.engine.boundKey, r.engine.ctr⟩], .ok⟩ := by
  obtain ⟨e, dout, asked, err⟩ := r
  subst hr
  simp only at hm
  simp [releaseBlock, release, blockOp, ctrBlock, Run.setBuf, Run.modify, Run.ask, Run.andThen, Run.out, cipherAnswer, hm,
    Engine.boundKey]

/-- CTR: block i takes the keystream of the counter incremented i times (44_ctr.md R183). -/
theorem releaseBlocks_ctr (p : Params) (f : Nat → Bytes) (n : Nat) (x : Bytes) (r : Run) (hr : r.err = .ok)
    (hm : r.engine.cfgMode = .ctr) :
    (releaseBlocks p ((List.range n).map f) r).setBuf x =
      ⟨{ r.engine with buf := x, ctr := increment^[n] r.engine.ctr },
        r.dout ++ (List.range n).flatMap (fun i => xorBytes (f i) (cipherEnc p r.engine.boundKey (increment^[i] r.engine.ctr))),
        r.requests ++ (List.range n).map (fun i => ⟨.enc, r.engine.boundKey, increment^[i] r.engine.ctr⟩), .ok⟩ := by
  induction n generalizing x with
  | zero => simp [Run.setBuf, Run.modify, hr]
  | succ n ih =>
    have he : (releaseBlocks p ((List.range n).map f) r).err = .ok := by simpa using congrArg Run.err (ih [])
    rw [List.range_succ, List.map_append, List.map_singleton, releaseBlocks_snoc, andThen_ok _ _ he,
      ← releaseBlock_setBuf p (f n) [], ih [], releaseBlock_ctr _ _ _ rfl (by simpa using hm), Function.iterate_succ_apply']
    simp [Run.setBuf, Run.modify, Engine.boundKey]

/-! ### OCB3 -/

/-- The registers of the message stream after n blocks (46_ocb3_data.md R231, R232, R234, R239). -/
def Engine.afterBlocks (p : Params) (e : Engine) (f : Nat → Bytes) (len n : Nat) : Engine :=
  let off := offsetFrom p.blockBytes e.lstar e.delta e.midx.toNat
  { e with
    midx := e.midx + BitVec.ofNat 64 n
    delta := off n
    checksum := xorUpTo e.checksum (fun i => plainOf e.cfgDir (f i) (ocb3Out p e.cfgDir e.boundKey (off (i + 1)) (f i))) n
    lt := masks p.blockBytes e.lstar (tableLength len e.midx.toNat n) }

theorem one_le_tableLength (len idx n : Nat) (h : 1 ≤ len) : 1 ≤ tableLength len idx n := by
  induction n with
  | zero => exact h
  | succ n ih => simp [tableLength]

/-- A block index n blocks on, while none overflows. -/
theorem index_add (x : BitVec 64) (n : Nat) (h : x.toNat + n < 2 ^ 64) : (x + BitVec.ofNat 64 n).toNat = x.toNat + n := by
  simp only [BitVec.toNat_add, BitVec.toNat_ofNat]
  omega

theorem index_ne_allOnes (x : BitVec 64) (h : x.toNat + 1 < 2 ^ 64) : x ≠ BitVec.allOnes 64 := by
  rintro rfl
  simp at h

/-- IncreaseDelta on the message stream with a table of masks (46_ocb3_data.md R231, R234). -/
theorem increaseDelta_msg (p : Params) (r : Run) (len : Nat) (hl : 1 ≤ len)
    (ht : r.engine.lt = masks p.blockBytes r.engine.lstar len) (hi : r.engine.midx.toNat + 1 < 2 ^ 64) :
    let k := ntz (r.engine.midx.toNat + 1)
    increaseDelta p .msg r =
      { r with
        engine :=
          { r.engine with
            midx := r.engine.midx + 1#64
            lt := masks p.blockBytes r.engine.lstar (max len (k + 1))
            delta := xorBytes r.engine.delta (maskL p.blockBytes r.engine.lstar k) } } := by
  rcases increaseDelta_cases p .msg r with ⟨h, _⟩ | ⟨_, k, lt, rfl, rfl, h⟩
  · exact absurd h (index_ne_allOnes _ hi)
  · rw [h]
    simp only [Engine.index, Run.modify, ht, growTo_masks _ _ _ _ hl]
    rw [tableEntry_masks _ _ _ _ (by omega)]

/-- IncreaseDelta on the AAD stream with a table of masks (46_ocb3_data.md R231, R234). -/
theorem increaseDelta_aad (p : Params) (r : Run) (len : Nat) (hl : 1 ≤ len)
    (ht : r.engine.lt = masks p.blockBytes r.engine.lstar len) (hi : r.engine.aidx.toNat + 1 < 2 ^ 64) :
    let k := ntz (r.engine.aidx.toNat + 1)
    increaseDelta p .aad r =
      { r with
        engine :=
          { r.engine with
            aidx := r.engine.aidx + 1#64
            lt := masks p.blockBytes r.engine.lstar (max len (k + 1))
            deltaAad := xorBytes r.engine.deltaAad (maskL p.blockBytes r.engine.lstar k) } } := by
  rcases increaseDelta_cases p .aad r with ⟨h, _⟩ | ⟨_, k, lt, rfl, rfl, h⟩
  · exact absurd h (index_ne_allOnes _ hi)
  · rw [h]
    simp only [Engine.index, Run.modify, ht, growTo_masks _ _ _ _ hl]
    rw [tableEntry_masks _ _ _ _ (by omega)]

theorem releaseBlock_ocb3 (p : Params) (blk : Bytes) (r : Run) (len : Nat) (hr : r.err = .ok) (hm : r.engine.cfgMode = .ocb3)
    (hl : 1 ≤ len) (ht : r.engine.lt = masks p.blockBytes r.engine.lstar len) (hi : r.engine.midx.toNat + 1 < 2 ^ 64) :
    let k := ntz (r.engine.midx.toNat + 1)
    let delta := xorBytes r.engine.delta (maskL p.blockBytes r.engine.lstar k)
    let out := ocb3Out p r.engine.cfgDir r.engine.boundKey delta blk
    releaseBlock p blk r =
      ⟨{ r.engine with
          buf := []
          midx := r.engine.midx + 1#64
          delta := delta
          checksum := xorBytes r.engine.checksum (plainOf r.engine.cfgDir blk out)
          lt := masks p.blockBytes r.engine.lstar (max len (k + 1)) },
        r.dout ++ out, r.requests ++ [⟨opOf r.engine.cfgDir, r.engine.boundKey, xorBytes blk delta⟩], .ok⟩ := by
  obtain ⟨e, dout, asked, err⟩ := r
  subst hr
  simp only at hm ht hi ⊢
  unfold releaseBlock release blockOp
  simp only [setBuf_engine, hm, ocb3Block]
  rw [increaseDelta_msg p _ len hl (by simpa using ht) (by simpa using hi)]
  cases hd : e.cfgDir <;>
    simp [Run.setBuf, Run.modify, Run.ask, Run.andThen, Run.out, cipherAnswer, cipherOf, opOf, ocb3Out, plainOf, hm, hd,
      Engine.boundKey]

/-- OCB3 while no block index overflows. -/
theorem releaseBlocks_ocb3 (p : Params) (f : Nat → Bytes) (n : Nat) (x : Bytes) (r : Run) (len : Nat) (hr : r.err = .ok)
    (hm : r.engine.cfgMode = .ocb3) (hl : 1 ≤ len) (ht : r.engine.lt = masks p.blockBytes r.engine.lstar len)
    (hi : r.engine.midx.toNat + n < 2 ^ 64) :
    let off := offsetFrom p.blockBytes r.engine.lstar r.engine.delta r.engine.midx.toNat
    (releaseBlocks p ((List.range n).map f) r).setBuf x =
      ⟨{ r.engine.afterBlocks p f len n with buf := x },
        r.dout ++ (List.range n).flatMap (fun i => ocb3Out p r.engine.cfgDir r.engine.boundKey (off (i + 1)) (f i)),
        r.requests ++ (List.range n).map (fun i => ⟨opOf r.engine.cfgDir, r.engine.boundKey, xorBytes (f i) (off (i + 1))⟩), .ok⟩ := by
  induction n generalizing x with
  | zero => simp [Run.setBuf, Run.modify, hr, Engine.afterBlocks, offsetFrom, xorUpTo, tableLength, ht]
  | succ n ih =>
    have ih := fun x => ih x (by omega)
    dsimp only at ih ⊢
    have he : (releaseBlocks p ((List.range n).map f) r).err = .ok := by simpa using congrArg Run.err (ih [])
    have hx := index_add r.engine.midx n (by omega)
    have hadd : r.engine.midx + BitVec.ofNat 64 n + 1#64 = r.engine.midx + BitVec.ofNat 64 (n + 1) := by
      apply BitVec.eq_of_toNat_eq
      rw [index_add _ _ hi, BitVec.toNat_add, hx, BitVec.toNat_ofNat]
      omega
    rw [List.range_succ, List.map_append, List.map_singleton, releaseBlocks_snoc, andThen_ok _ _ he,
      ← releaseBlock_setBuf p (f n) [], ih [],
      releaseBlock_ocb3 p (f n) _ (tableLength len r.engine.midx.toNat n) rfl (by simpa [Engine.afterBlocks] using hm)
        (one_le_tableLength _ _ _ hl) (by simp [Engine.afterBlocks]) (by simp only [Engine.afterBlocks]; omega)]
    simp only [Engine.afterBlocks, hx, hadd, Engine.boundKey, Run.setBuf, Run.modify, tableLength, offsetFrom, xorUpTo,
      List.flatMap_append, List.map_append, List.flatMap_singleton, List.map_singleton, List.append_assoc]

/-- The message block that would take the index past 2^64 - 1 stays in BUF and fails the session (46_ocb3_data.md R233). -/
theorem releaseBlock_overflow (p : Params) (blk : Bytes) (r : Run) (hm : r.engine.cfgMode = .ocb3)
    (hi : r.engine.midx = BitVec.allOnes 64) :
    releaseBlock p blk r = ⟨{ r.engine with buf := blk, session := .failed }, r.dout, r.requests, .illegalLength⟩ := by
  obtain ⟨e, dout, asked, err⟩ := r
  simp only at hm hi
  simp [releaseBlock, release, blockOp, ocb3Block, increaseDelta, Run.setBuf, Run.modify, Run.raise, Run.andThen, Engine.index, hm, hi]

/-- A list of blocks longer than the index has room for. -/
theorem releaseBlocks_overflow (p : Params) (f : Nat → Bytes) (k n : Nat) (r : Run) (len : Nat) (hr : r.err = .ok)
    (hm : r.engine.cfgMode = .ocb3) (hl : 1 ≤ len) (ht : r.engine.lt = masks p.blockBytes r.engine.lstar len)
    (hk : r.engine.midx.toNat + k = 2 ^ 64 - 1) (hn : k < n) :
    let off := offsetFrom p.blockBytes r.engine.lstar r.engine.delta r.engine.midx.toNat
    releaseBlocks p ((List.range n).map f) r =
      ⟨{ r.engine.afterBlocks p f len k with buf := f k, session := .failed },
        r.dout ++ (List.range k).flatMap (fun i => ocb3Out p r.engine.cfgDir r.engine.boundKey (off (i + 1)) (f i)),
        r.requests ++ (List.range k).map (fun i => ⟨opOf r.engine.cfgDir, r.engine.boundKey, xorBytes (f i) (off (i + 1))⟩),
        .illegalLength⟩ := by
  induction n with
  | zero => omega
  | succ n ih =>
    dsimp only at ih ⊢
    rw [List.range_succ, List.map_append, List.map_singleton, releaseBlocks_snoc]
    obtain rfl | h : k = n ∨ k < n := by omega
    · have h0 := releaseBlocks_ocb3 p f k [] r len hr hm hl ht (by omega)
      dsimp only at h0
      have he : (releaseBlocks p ((List.range k).map f) r).err = .ok := by simpa using congrArg Run.err h0
      rw [andThen_ok _ _ he, ← releaseBlock_setBuf p (f k) [], h0, releaseBlock_overflow]
      · simpa [Engine.afterBlocks] using hm
      · apply BitVec.eq_of_toNat_eq
        rw [show ({ r.engine.afterBlocks p f len k with buf := [] } : Engine).midx = r.engine.midx + BitVec.ofNat 64 k from rfl,
          index_add _ _ (by omega), hk, BitVec.toNat_allOnes]
    · rw [ih h, andThen_err _ _ (by simp)]

/-! ### AAD -/

/-- The registers of the AAD stream after n blocks (46_ocb3_data.md R231, R232, R236). -/
def Engine.afterAadBlocks (p : Params) (e : Engine) (f : Nat → Bytes) (len n : Nat) : Engine :=
  let off := offsetFrom p.blockBytes e.lstar e.deltaAad e.aidx.toNat
  { e with
    aidx := e.aidx + BitVec.ofNat 64 n
    deltaAad := off n
    authAcc := xorUpTo e.authAcc (fun i => cipherEnc p e.boundKey (xorBytes (f i) (off (i + 1)))) n
    lt := masks p.blockBytes e.lstar (tableLength len e.aidx.toNat n) }

theorem foldAadBlock_ok (p : Params) (blk : Bytes) (r : Run) (len : Nat) (hr : r.err = .ok)
    (hl : 1 ≤ len) (ht : r.engine.lt = masks p.blockBytes r.engine.lstar len) (hi : r.engine.aidx.toNat + 1 < 2 ^ 64) :
    let k := ntz (r.engine.aidx.toNat + 1)
    let delta := xorBytes r.engine.deltaAad (maskL p.blockBytes r.engine.lstar k)
    foldAadBlock p blk r =
      ⟨{ r.engine with
          abuf := []
          aidx := r.engine.aidx + 1#64
          deltaAad := delta
          authAcc := xorBytes r.engine.authAcc (cipherEnc p r.engine.boundKey (xorBytes blk delta))
          lt := masks p.blockBytes r.engine.lstar (max len (k + 1)) },
        r.dout, r.requests ++ [⟨.enc, r.engine.boundKey, xorBytes blk delta⟩], .ok⟩ := by
  obtain ⟨e, dout, asked, err⟩ := r
  subst hr
  simp only at ht hi ⊢
  unfold foldAadBlock
  rw [increaseDelta_aad p _ len hl (by simpa using ht) (by simpa using hi)]
  simp [Run.setAbuf, Run.modify, Run.ask, Run.andThen, cipherAnswer, Engine.boundKey]

/-- The AAD stream while no block index overflows. -/
theorem foldAadBlocks_ok (p : Params) (f : Nat → Bytes) (n : Nat) (x : Bytes) (r : Run) (len : Nat) (hr : r.err = .ok)
    (hl : 1 ≤ len) (ht : r.engine.lt = masks p.blockBytes r.engine.lstar len) (hi : r.engine.aidx.toNat + n < 2 ^ 64) :
    let off := offsetFrom p.blockBytes r.engine.lstar r.engine.deltaAad r.engine.aidx.toNat
    (foldAadBlocks p ((List.range n).map f) r).setAbuf x =
      ⟨{ r.engine.afterAadBlocks p f len n with abuf := x }, r.dout,
        r.requests ++ (List.range n).map (fun i => ⟨.enc, r.engine.boundKey, xorBytes (f i) (off (i + 1))⟩), .ok⟩ := by
  induction n generalizing x with
  | zero => simp [Run.setAbuf, Run.modify, hr, Engine.afterAadBlocks, offsetFrom, xorUpTo, tableLength, ht]
  | succ n ih =>
    have ih := fun x => ih x (by omega)
    dsimp only at ih ⊢
    have he : (foldAadBlocks p ((List.range n).map f) r).err = .ok := by simpa using congrArg Run.err (ih [])
    have hx := index_add r.engine.aidx n (by omega)
    have hadd : r.engine.aidx + BitVec.ofNat 64 n + 1#64 = r.engine.aidx + BitVec.ofNat 64 (n + 1) := by
      apply BitVec.eq_of_toNat_eq
      rw [index_add _ _ hi, BitVec.toNat_add, hx, BitVec.toNat_ofNat]
      omega
    rw [List.range_succ, List.map_append, List.map_singleton, foldAadBlocks_snoc, andThen_ok _ _ he,
      ← foldAadBlock_setAbuf p (f n) [], ih [],
      foldAadBlock_ok p (f n) _ (tableLength len r.engine.aidx.toNat n) rfl
        (one_le_tableLength _ _ _ hl) (by simp [Engine.afterAadBlocks]) (by simp only [Engine.afterAadBlocks]; omega)]
    simp only [Engine.afterAadBlocks, hx, hadd, Engine.boundKey, Run.setAbuf, Run.modify, tableLength, offsetFrom, xorUpTo,
      List.map_append, List.map_singleton, List.append_assoc]

/-- The AAD block that would take the index past 2^64 - 1 stays in ABUF and fails the session (46_ocb3_data.md R233). -/
theorem foldAadBlock_overflow (p : Params) (blk : Bytes) (r : Run) (hi : r.engine.aidx = BitVec.allOnes 64) :
    foldAadBlock p blk r = ⟨{ r.engine with abuf := blk, session := .failed }, r.dout, r.requests, .illegalLength⟩ := by
  obtain ⟨e, dout, asked, err⟩ := r
  simp only at hi
  simp [foldAadBlock, increaseDelta, Run.setAbuf, Run.modify, Run.raise, Run.andThen, Engine.index, hi]

/-- A list of AAD blocks longer than the index has room for. -/
theorem foldAadBlocks_overflow (p : Params) (f : Nat → Bytes) (k n : Nat) (r : Run) (len : Nat) (hr : r.err = .ok)
    (hl : 1 ≤ len) (ht : r.engine.lt = masks p.blockBytes r.engine.lstar len)
    (hk : r.engine.aidx.toNat + k = 2 ^ 64 - 1) (hn : k < n) :
    let off := offsetFrom p.blockBytes r.engine.lstar r.engine.deltaAad r.engine.aidx.toNat
    foldAadBlocks p ((List.range n).map f) r =
      ⟨{ r.engine.afterAadBlocks p f len k with abuf := f k, session := .failed }, r.dout,
        r.requests ++ (List.range k).map (fun i => ⟨.enc, r.engine.boundKey, xorBytes (f i) (off (i + 1))⟩), .illegalLength⟩ := by
  induction n with
  | zero => omega
  | succ n ih =>
    dsimp only at ih ⊢
    rw [List.range_succ, List.map_append, List.map_singleton, foldAadBlocks_snoc]
    obtain rfl | h : k = n ∨ k < n := by omega
    · have h0 := foldAadBlocks_ok p f k [] r len hr hl ht (by omega)
      dsimp only at h0
      have he : (foldAadBlocks p ((List.range k).map f) r).err = .ok := by simpa using congrArg Run.err h0
      rw [andThen_ok _ _ he, ← foldAadBlock_setAbuf p (f k) [], h0, foldAadBlock_overflow]
      apply BitVec.eq_of_toNat_eq
      rw [show ({ r.engine.afterAadBlocks p f len k with abuf := [] } : Engine).aidx = r.engine.aidx + BitVec.ofNat 64 k from rfl,
        index_add _ _ (by omega), hk, BitVec.toNat_allOnes]
    · rw [ih h, andThen_err _ _ (by simp)]

end Sys2Proof.Machine
end

