-- ==== Sys2Proof/Laws/Operands.lean ====
section
/-! SUPPORT. The host's channel: what taking bytes from it does, and that a word comes back from its four bytes. -/

namespace Sys2Proof.Machine

@[simp] theorem sendBytes_nil : sendBytes [] = [] := rfl

@[simp] theorem sendBytes_append (x y : Bytes) : sendBytes (x ++ y) = sendBytes x ++ sendBytes y := by simp [sendBytes]

@[simp] theorem sendBytes_cons (x : Byte) (y : Bytes) : sendBytes (x :: y) = .byte x :: sendBytes y := rfl

/-- Exactly the data-in that was sent is taken. -/
@[simp] theorem takeBytes_sendBytes (din : Bytes) (rest : List HostInput) :
    takeBytes din.length (sendBytes din ++ rest) = some (din, rest) := by
  induction din with
  | nil => simp [takeBytes]
  | cons x din ih => simp [takeBytes, ih]

/-- What taking n bytes can do: it takes n bytes off the front. -/
theorem takeBytes_some (n : Nat) (input : List HostInput) (din : Bytes) (rest : List HostInput)
    (h : takeBytes n input = some (din, rest)) : din.length = n ∧ input = sendBytes din ++ rest := by
  induction n generalizing input din with
  | zero =>
    simp only [takeBytes, Option.some.injEq, Prod.mk.injEq] at h
    obtain ⟨rfl, rfl⟩ := h
    simp
  | succ n ih =>
    match input, h with
    | .byte b :: input, h =>
      simp only [takeBytes, Option.map_eq_some_iff] at h
      obtain ⟨⟨d, r⟩, hd, he⟩ := h
      obtain ⟨rfl, rfl⟩ := Prod.mk.inj he
      have := ih input d hd
      simp [this.1, this.2]

/-- Too few bytes before the end of what was sent. -/
theorem takeBytes_short (n : Nat) (sent : Bytes) (h : sent.length < n) : takeBytes n (sendBytes sent) = none := by
  induction n generalizing sent with
  | zero => simp at h
  | succ n ih => cases sent with
    | nil => rfl
    | cons x sent => simp [takeBytes, ih sent (by simpa using h)]

/-- Too few bytes before a reset. -/
theorem takeBytes_reset (n : Nat) (sent : Bytes) (rest : List HostInput) (h : sent.length < n) :
    takeBytes n (sendBytes sent ++ .reset :: rest) = none := by
  induction n generalizing sent with
  | zero => simp at h
  | succ n ih => cases sent with
    | nil => rfl
    | cons x sent => simp [takeBytes, ih sent (by simpa using h)]

@[simp] theorem afterReset_sendBytes (sent : Bytes) : afterReset (sendBytes sent) = none := by
  induction sent with
  | nil => rfl
  | cons x sent ih => simpa [afterReset] using ih

@[simp] theorem afterReset_reset (sent : Bytes) (rest : List HostInput) :
    afterReset (sendBytes sent ++ .reset :: rest) = some rest := by
  induction sent with
  | nil => rfl
  | cons x sent ih => simpa [afterReset] using ih

@[simp] theorem wordBytes_length (order : ByteOrder) (w : Word) : (wordBytes order w).length = 4 := by
  cases order <;> rfl

/-- Both byte orders of the carrier give the word back. -/
@[simp] theorem wordOfBytes_wordBytes (order : ByteOrder) (w : Word) : wordOfBytes order (wordBytes order w) = w := by
  have h := w.isLt
  apply BitVec.eq_of_toNat_eq
  cases order <;> simp [wordOfBytes, wordBytes, bits, Nat.shiftRight_eq_div_pow] <;> omega

end Sys2Proof.Machine
end

