-- ==== Sys2Proof/Laws/Ops.lean ====
section
/-! SUPPORT. The shared operations of a step: what a command, a starved channel, a fetch and a step can do. -/

namespace Sys2Proof.Machine

/-- A command whose data-in has come runs on it and is answered. -/
theorem command_supplied (s : State) (din : Bytes) (rest : List HostInput) (run : Params → Bytes → Engine → Run)
    (h : s.input = sendBytes din ++ rest) :
    s.command din.length run =
      .next (s.answered rest (run s.params din s.engine).engine (run s.params din s.engine).err (run s.params din s.engine).dout
        (run s.params din s.engine).requests) := by
  simp only [State.command, h, takeBytes_sendBytes]
  rfl

/-- Everything a command can do when it answers next: it ran on its data-in, or a reset abandoned it. -/
theorem command_next (s t : State) (n : Nat) (run : Params → Bytes → Engine → Run) (h : s.command n run = .next t) :
    (∃ din rest, din.length = n ∧ s.input = sendBytes din ++ rest ∧
      t = { s with input := rest }.answer (run s.params din s.engine)) ∨
    (∃ rest, afterReset s.input = some rest ∧ t = s.hardReset rest) := by
  unfold State.command at h
  split at h
  · rename_i din rest hd
    obtain ⟨hl, hi⟩ := takeBytes_some _ _ _ _ hd
    exact .inl ⟨din, rest, hl, hi, by simpa using h.symm⟩
  · unfold State.starved at h
    split at h
    · rename_i rest hr
      exact .inr ⟨rest, hr, by simpa using h.symm⟩
    · cases h

/-- A command short of data-in, nothing else sent: stuck (70_reset_and_hazards.md R311). -/
theorem command_stuck (s : State) (n : Nat) (run : Params → Bytes → Engine → Run) (sent : Bytes)
    (hi : s.input = sendBytes sent) (h : sent.length < n) : s.command n run = .fault .awaitingDataIn := by
  simp [State.command, State.starved, hi, takeBytes_short n sent h]

/-- A command short of data-in with a reset behind it: abandoned (70_reset_and_hazards.md R301). -/
theorem command_abandoned (s : State) (n : Nat) (run : Params → Bytes → Engine → Run) (sent : Bytes) (rest : List HostInput)
    (hi : s.input = sendBytes sent ++ .reset :: rest) (h : sent.length < n) : s.command n run = .next (s.hardReset rest) := by
  simp [State.command, State.starved, hi, takeBytes_reset n sent rest h]

/-- Everything a starved channel can do. -/
theorem starved_next (s t : State) (why : Fault) (h : s.starved why = .next t) :
    ∃ rest, afterReset s.input = some rest ∧ t = s.hardReset rest := by
  unfold State.starved at h
  split at h
  · rename_i rest hr
    exact ⟨rest, hr, by simpa using h.symm⟩
  · cases h

/-- A whole word at the front of the channel is fetched. -/
theorem fetch_word (s : State) (w : Word) (rest : List HostInput) (h : s.input = sendBytes (wordBytes s.params.wordOrder w) ++ rest) :
    s.fetch = match decode w with
      | .command i => .command i { s with input := rest }
      | .illegal _ => .illegal { s with input := rest } := by
  have ht : takeBytes 4 s.input = some (wordBytes s.params.wordOrder w, rest) := by
    rw [h, ← wordBytes_length s.params.wordOrder w, takeBytes_sendBytes]
  unfold State.fetch
  split
  · rename_i hn
    exact absurd ht (by simp [hn, takeBytes])
  · rw [ht]
    cases hd : decode w <;> simp [wordOfBytes_wordBytes, hd]

/-- The run of each command on its data-in. -/
def Instr.run (i : Instr) (p : Params) (din : Bytes) (e : Engine) : Run :=
  match i with
  | .initCipher _ => initCipherRun p din e
  | .initModeEcb dir pad taglen _ => initModeRun p .ecb dir pad taglen (initEcb taglen din.length) e
  | .initModeCtr dir pad taglen _ => initModeRun p .ctr dir pad taglen (initCtr p pad taglen din) e
  | .initModeOcb3 dir pad taglen _ => initModeRun p .ocb3 dir pad taglen (initOcb3 p pad taglen din) e
  | .updateAad _ => updateAadRun p din e
  | .update _ => updateRun p din e
  | .doFinal _ => doFinalRun p din e

/-- Every meaning is one command over its own run. -/
theorem exec_eq_command (i : Instr) (s : State) : exec i s = s.command i.dataLength (Instr.run i) := by
  cases i <;> rfl

/-- A command with its data-in at hand is answered (70_reset_and_hazards.md R315). -/
theorem exec_supplied (i : Instr) (s : State) (din : Bytes) (rest : List HostInput) (hl : din.length = i.dataLength)
    (hi : s.input = sendBytes din ++ rest) :
    exec i s =
      .next (s.answered rest (Instr.run i s.params din s.engine).engine (Instr.run i s.params din s.engine).err
        (Instr.run i s.params din s.engine).dout (Instr.run i s.params din s.engine).requests) := by
  rw [exec_eq_command, ← hl]
  exact command_supplied s din rest _ hi

/-- Everything a step can do when it answers next: stay idle, reset, answer an illegal word, or run a command on its data-in. -/
theorem step_next (s t : State) (h : step s = .next t) :
    t = s ∨
    (∃ rest, t = { s with engine := Engine.reset s.params, input := rest }) ∨
    (∃ rest, t = ({ s with input := rest } : State).illegalCommand) ∨
    (∃ i din rest, din.length = i.dataLength ∧ t = ({ s with input := rest } : State).answer (Instr.run i s.params din s.engine)) := by
  unfold step at h
  split at h
  · exact .inl (by simpa using h.symm)
  · rename_i i s' hf
    have hs : ∃ input, s' = { s with input := input } := by
      unfold State.fetch at hf
      repeat' split at hf
      all_goals simp at hf
      exact ⟨_, hf.2.symm⟩
    obtain ⟨input, rfl⟩ := hs
    rw [exec_eq_command] at h
    rcases command_next _ _ _ _ h with ⟨din, rest, hl, _, rfl⟩ | ⟨rest, _, rfl⟩
    · exact .inr (.inr (.inr ⟨i, din, rest, hl, rfl⟩))
    · exact .inr (.inl ⟨rest, rfl⟩)
  · rename_i s' hf
    have hs : ∃ input, s' = { s with input := input } := by
      unfold State.fetch at hf
      repeat' split at hf
      all_goals simp at hf
      exact ⟨_, hf.symm⟩
    obtain ⟨input, rfl⟩ := hs
    exact .inr (.inr (.inl ⟨input, by simpa using h.symm⟩))
  · obtain ⟨rest, _, rfl⟩ := starved_next _ _ _ h
    exact .inr (.inl ⟨rest, rfl⟩)

end Sys2Proof.Machine
end

