-- ==== Sys2Proof/Laws/PerInstr.lean ====
section
/-! SUPPORT. Statements made per constructor of Instr, about commands as syntax. Family `RowMatches`: the word of a well-formed command
lies in its row of the opcode map (30_encoding.md R90), whatever its fields. -/

namespace Sys2Proof.Laws.RowMatches

open Sys2Proof

/-- The row is one of the map's, and the word matches it. -/
def Statement (i : Instr) : Prop := i.wf = true → i.row ∈ opcodeMap ∧ i.row.matches (encode i) = true

/-- The bits above a field of n bits. -/
theorem testBit_high (n a v j : Nat) (hv : v < 2 ^ n) (hj : n ≤ j) : (2 ^ n * a + v).testBit j = a.testBit (j - n) := by
  rw [Nat.testBit_two_pow_mul_add a hv, if_neg (by omega)]

/-- The bits below a shifted value. -/
theorem testBit_low (n a j : Nat) (hj : j < n) : (2 ^ n * a).testBit j = false := by
  have h := Nat.testBit_two_pow_mul_add a (Nat.two_pow_pos n) j
  rw [Nat.add_zero, if_pos hj] at h
  simpa using h

/-- A mask that keeps everything above n bits. -/
theorem match_high (n a v : Nat) (mask pattern : Word) (hv : v < 2 ^ n)
    (h : ∀ j < 32, (if n ≤ j then a.testBit (j - n) && mask.getLsbD j else false) = pattern.getLsbD j)
    (hm : ∀ j < n, mask.getLsbD j = false) : BitVec.ofNat 32 (2 ^ n * a + v) &&& mask = pattern := by
  apply BitVec.eq_of_getLsbD_eq
  intro j hj
  rw [← h j hj, BitVec.getLsbD_and, BitVec.getLsbD_ofNat]
  by_cases hn : n ≤ j
  · simp [hj, hn, testBit_high n a v j hv hn]
  · simp [hn, hm j (by omega)]

theorem initCipher (klen : Nat) : Statement (.initCipher klen) := by
  intro h
  refine ⟨by simp [Instr.row, opcodeMap], ?_⟩
  have hk : klen < 2 ^ 8 := by simpa [Instr.wf, fitsByte] using h
  simp only [OpcodeRow.matches, Instr.row, encode, beq_iff_eq]
  rw [show 1 * 2 ^ 28 + klen = 2 ^ 8 * 2 ^ 20 + klen by omega]
  exact match_high 8 _ klen _ _ hk (by decide) (by decide)

/-- F-MODE: the bits 31:26 and 7:0. -/
theorem matches_initMode (mode : Nat) (dir : Dir) (pad : Bool) (taglen ivlen : Nat) (pattern : Word) (ht : taglen < 256)
    (hi : ivlen < 256)
    (h : ∀ j < 32, (if 26 ≤ j then (8 + mode).testBit (j - 26) && (0xFC0000FF#32).getLsbD j else false) = pattern.getLsbD j) :
    encodeInitMode mode dir pad taglen ivlen &&& 0xFC0000FF#32 = pattern := by
  have hd : dir.bit ≤ 1 := by cases dir <;> decide
  have hp : pad.toNat ≤ 1 := by cases pad <;> decide
  apply BitVec.eq_of_getLsbD_eq
  intro j hj
  rw [← h j hj, BitVec.getLsbD_and, encodeInitMode, BitVec.getLsbD_ofNat]
  have e : 2 * 2 ^ 28 + mode * 2 ^ 26 + dir.bit * 2 ^ 25 + pad.toNat * 2 ^ 24 + taglen * 2 ^ 16 + ivlen * 2 ^ 8 =
      2 ^ 26 * (8 + mode) + 2 ^ 8 * (dir.bit * 2 ^ 17 + pad.toNat * 2 ^ 16 + taglen * 2 ^ 8 + ivlen) := by omega
  by_cases hn : 26 ≤ j
  · rw [e, testBit_high 26 _ _ j (by omega) hn]
    simp [hj, hn]
  · by_cases hl : j < 8
    · have e' : 2 * 2 ^ 28 + mode * 2 ^ 26 + dir.bit * 2 ^ 25 + pad.toNat * 2 ^ 24 + taglen * 2 ^ 16 + ivlen * 2 ^ 8 =
          2 ^ 8 * (2 ^ 18 * (8 + mode) + dir.bit * 2 ^ 17 + pad.toNat * 2 ^ 16 + taglen * 2 ^ 8 + ivlen) := by omega
      rw [e', testBit_low 8 _ j hl]
      simp [hn]
    · have hm : ∀ j < 26, 8 ≤ j → (0xFC0000FF#32).getLsbD j = false := by decide
      rw [hm j (by omega) (by omega)]
      simp [hn]

theorem initModeEcb (dir : Dir) (pad : Bool) (taglen ivlen : Nat) : Statement (.initModeEcb dir pad taglen ivlen) := by
  intro h
  simp only [Instr.wf, fitsByte, Bool.and_eq_true, decide_eq_true_eq] at h
  refine ⟨by simp [Instr.row, opcodeMap], ?_⟩
  simp only [OpcodeRow.matches, Instr.row, encode, beq_iff_eq]
  exact matches_initMode 0 dir pad taglen ivlen _ h.1 h.2 (by decide)

theorem initModeCtr (dir : Dir) (pad : Bool) (taglen ivlen : Nat) : Statement (.initModeCtr dir pad taglen ivlen) := by
  intro h
  simp only [Instr.wf, fitsByte, Bool.and_eq_true, decide_eq_true_eq] at h
  refine ⟨by simp [Instr.row, opcodeMap], ?_⟩
  simp only [OpcodeRow.matches, Instr.row, encode, beq_iff_eq]
  exact matches_initMode 1 dir pad taglen ivlen _ h.1 h.2 (by decide)

theorem initModeOcb3 (dir : Dir) (pad : Bool) (taglen ivlen : Nat) : Statement (.initModeOcb3 dir pad taglen ivlen) := by
  intro h
  simp only [Instr.wf, fitsByte, Bool.and_eq_true, decide_eq_true_eq] at h
  refine ⟨by simp [Instr.row, opcodeMap], ?_⟩
  simp only [OpcodeRow.matches, Instr.row, encode, beq_iff_eq]
  exact matches_initMode 2 dir pad taglen ivlen _ h.1 h.2 (by decide)

theorem updateAad (len : Nat) : Statement (.updateAad len) := by
  intro h
  refine ⟨by simp [Instr.row, opcodeMap], ?_⟩
  have hl : len < 2 ^ 16 := by simpa [Instr.wf, fitsLen] using h
  simp only [OpcodeRow.matches, Instr.row, encode, beq_iff_eq]
  rw [show 3 * 2 ^ 28 + len = 2 ^ 16 * (3 * 2 ^ 12) + len by omega]
  exact match_high 16 _ len _ _ hl (by decide) (by decide)

theorem update (len : Nat) : Statement (.update len) := by
  intro h
  refine ⟨by simp [Instr.row, opcodeMap], ?_⟩
  have hl : len < 2 ^ 16 := by simpa [Instr.wf, fitsLen] using h
  simp only [OpcodeRow.matches, Instr.row, encode, beq_iff_eq]
  rw [show 4 * 2 ^ 28 + len = 2 ^ 16 * (4 * 2 ^ 12) + len by omega]
  exact match_high 16 _ len _ _ hl (by decide) (by decide)

theorem doFinal (len : Nat) : Statement (.doFinal len) := by
  intro h
  refine ⟨by simp [Instr.row, opcodeMap], ?_⟩
  have hl : len < 2 ^ 16 := by simpa [Instr.wf, fitsLen] using h
  simp only [OpcodeRow.matches, Instr.row, encode, beq_iff_eq]
  rw [show 5 * 2 ^ 28 + len = 2 ^ 16 * (5 * 2 ^ 12) + len by omega]
  exact match_high 16 _ len _ _ hl (by decide) (by decide)

end Sys2Proof.Laws.RowMatches
end

