-- ==== Sys2Proof/Tests/Slice0.lean ====
section
/-! SUPPORT. Tests of the model on the vectors of 95_test_vectors.md (values computed outside the model), the smoke test of WellFormed,
and a witness for every obligation that has hypotheses. -/

namespace Sys2Proof.Machine

/-! ### Helpers -/

/-- A byte string from hex. -/
def hex (s : String) : Bytes := (hexDigits s.toList).getD []

/-- The bytes a, a+1, …: n of them. -/
def run (a n : Nat) : Bytes := (List.range n).map fun i => BitVec.ofNat 8 (a + i)

/-- The next state, if there is one. -/
def after (o : Host.Outcome State Fault Refusal) : Option State :=
  match o with
  | .next s => some s
  | .fault _ => none
  | .refused _ => none

/-- The fault, if there is one. -/
def stop (o : Host.Outcome State Fault Refusal) : Option Fault :=
  match o with
  | .next _ => none
  | .fault f => some f
  | .refused _ => none

/-- The responses shown after a step: STATUS, outcnt, dout. -/
def shown (o : Host.Outcome State Fault Refusal) : Option (List (Word × Nat × Bytes)) :=
  (after o).map fun t => t.responses.map fun r => (r.status, r.outcnt.toNat, r.dout)

/-- One command sent to an engine with the given registers. -/
def send (p : Params) (e : Engine) (w : Word) (din : Bytes) : State :=
  { State.resetWith p with engine := e, input := (Command.mk w din).send p.wordOrder }

/-- K1 and N1 of 95_test_vectors.md. -/
def key1 : Bytes := run 0 16
def nonce1 : Bytes := hex "BBAA99887766554433221101"

/-- TOYROT at block size b (95_test_vectors.md). -/
def toy (b : Nat) : Params := { Params.default with blockBytes := b, keyLengths := [16, b], cipher := .toyrot }

/-- Known answers of the attached cipher. -/
def answers (entries : List CodebookEntry) : Params := { Params.default with cipher := .codebook entries }

/-- KEY_BOUND with a key. -/
def bound (p : Params) (key : Bytes) : Engine := { Engine.reset p with session := .keyBound, key := some key }

/-! ### WellFormed refuses ill-formed terms (30_encoding.md R86) -/

theorem test_illformed_klen : (Instr.initCipher 256).wf = false := by decide
theorem test_illformed_ecb_taglen : (Instr.initModeEcb .encrypt true 256 0).wf = false := by decide
theorem test_illformed_ecb_ivlen : (Instr.initModeEcb .encrypt true 0 256).wf = false := by decide
theorem test_illformed_ctr_taglen : (Instr.initModeCtr .encrypt false 256 16).wf = false := by decide
theorem test_illformed_ctr_ivlen : (Instr.initModeCtr .encrypt false 0 256).wf = false := by decide
theorem test_illformed_ocb3_taglen : (Instr.initModeOcb3 .decrypt false 256 12).wf = false := by decide
theorem test_illformed_ocb3_ivlen : (Instr.initModeOcb3 .decrypt false 16 256).wf = false := by decide
theorem test_illformed_updateAad_len : (Instr.updateAad 65536).wf = false := by decide
theorem test_illformed_update_len : (Instr.update 65536).wf = false := by decide
theorem test_illformed_doFinal_len : (Instr.doFinal 65536).wf = false := by decide

/-! ### Decoding, by words written out from the formats of 30_encoding.md R82 to R85 -/

/-- OPC 0001, bits 27:8 zero, KLEN 16. -/
theorem test_decode_initCipher : decode 0b0001_00000000000000000000_00010000#32 = .command (.initCipher 16) := by decide
/-- OPC 0010, MODE 00, DIR 0, PAD 1, TAGLEN 0, IVLEN 0, bits 7:0 zero. -/
theorem test_decode_ecb : decode 0b0010_00_0_1_00000000_00000000_00000000#32 = .command (.initModeEcb .encrypt true 0 0) := by decide
/-- MODE 01, DIR 1, IVLEN 16 (V-CTR-7). -/
theorem test_decode_ctr : decode 0b0010_01_1_0_00000000_00010000_00000000#32 = .command (.initModeCtr .decrypt false 0 16) := by decide
/-- MODE 10, DIR 1, TAGLEN 16, IVLEN 12 (program P2). -/
theorem test_decode_ocb3 : decode 0b0010_10_1_0_00010000_00001100_00000000#32 = .command (.initModeOcb3 .decrypt false 16 12) := by decide
/-- OPC 0011, LEN 0x0118. -/
theorem test_decode_updateAad : decode 0b0011_000000000000_0000000100011000#32 = .command (.updateAad 280) := by decide
/-- OPC 0100, LEN 0xFFFF. -/
theorem test_decode_update : decode 0b0100_000000000000_1111111111111111#32 = .command (.update 65535) := by decide
/-- OPC 0101, LEN 8. -/
theorem test_decode_doFinal : decode 0b0101_000000000000_0000000000001000#32 = .command (.doFinal 8) := by decide
/-- V-ENG-2, V-ENG-15 to V-ENG-20. -/
theorem test_decode_illegal :
    decode 0x00000000#32 = .illegal .reservedOpcode ∧ decode 0x2C000000#32 = .illegal .reservedMode ∧
    decode 0x20000001#32 = .illegal .reservedField ∧ decode 0x10000110#32 = .illegal .reservedField ∧
    decode 0x40010000#32 = .illegal .reservedField ∧ decode 0x60000000#32 = .illegal .reservedOpcode ∧
    decode 0xF0000000#32 = .illegal .reservedOpcode := by decide
/-- The words of program P1. -/
theorem test_encode :
    encode (.initCipher 16) = 0x10000010#32 ∧ encode (.initModeOcb3 .encrypt false 16 12) = 0x28100C00#32 ∧
    encode (.updateAad 8) = 0x30000008#32 ∧ encode (.doFinal 8) = 0x50000008#32 ∧
    encode (.initModeEcb .decrypt true 0 0) = 0x23000000#32 ∧ encode (.initModeCtr .decrypt false 0 16) = 0x26001000#32 := by decide
/-- The table's bits of a row, and a word the decoder refuses. -/
theorem test_decodeTableWord :
    decodeTableWord 32 0x40000020 = some (.update 32) ∧ decodeTableWord 32 0x2C000000 = none := by decide
/-- The very next step after reset runs the word's command. -/
theorem test_withFetchWord :
    shown (step (State.reset.withFetchWord 32 0x10000010)) = some [(0x00000001#32, 0, [])] ∧
    shown (step (State.reset.withFetchWord 32 0x28100C00)) = some [(0x00000040#32, 0, [])] := by decide

/-! ### The host's notation (30_encoding.md R91; program P1 and V-ECB-2) -/

theorem test_assembler_ocb3 :
    parseLine "  INIT_MODE OCB3, ENC, TAG=16, BBAA99887766554433221101 ; P1".toList = some (some ⟨0x28100C00#32, nonce1⟩) := by decide
theorem test_assembler_empty_final : parseLine "DO_FINAL".toList = some (some ⟨0x50000000#32, []⟩) := by decide
/-- 30_encoding.md R92: SEAL as its four commands; an empty aad is omitted. -/
theorem test_seal_expands :
    (Pseudo.seal key1 nonce1 (run 0 8) (run 0 8) 16).expand.map (·.map Command.word) =
      some [0x10000010#32, 0x28100C00#32, 0x30000008#32, 0x50000008#32] ∧
    (Pseudo.seal key1 nonce1 [] (run 0 8) 16).expand.map (·.map Command.word) =
      some [0x10000010#32, 0x28100C00#32, 0x50000008#32] := by decide
/-- Log entry 19: a field no word holds leaves a pseudo-command without an expansion. -/
theorem test_oversized_key (key nonce aad msg : Bytes) (tag : Nat) (h : 256 ≤ key.length) :
    (Pseudo.seal key nonce aad msg tag).expand = none := by
  simp [Pseudo.expand, sessionCommands, assemble, Instr.wf, fitsByte, Nat.not_lt.mpr h]
theorem test_oversized_tag : (Pseudo.seal key1 nonce1 [] [] 256).expand = none := by decide
/-- 30_encoding.md R91: hex digits of either case, high nibble first; an odd number of them is no operand. -/
theorem test_hex_operand :
    hexOperand "5aC0".toList = some [0x5A#8, 0xC0#8] ∧ hexOperand "5aC".toList = none ∧ hexOperand "5g".toList = none := by decide

/-! ### Commands, one step each -/

/-- V-ENG-5. -/
theorem test_initCipher_accepts :
    (after (step (send Params.default (Engine.reset Params.default) 0x10000010#32 key1))).map (fun t => (t.engine.key, t.responses)) =
      some (some key1, [⟨0x00000001#32, 0#32, []⟩]) := by decide
/-- V-ENG-4. -/
theorem test_initCipher_refuses :
    shown (step (send Params.default (Engine.reset Params.default) 0x1000000F#32 (zeros 15))) = some [(0x00000010#32, 0, [])] := by
  decide

/-- V-ECB-2: the INIT_MODE of ECB Encrypt with PKCS7. -/
theorem test_initModeEcb :
    shown (step (send (toy 16) (bound (toy 16) key1) 0x21000000#32 [])) = some [(0x00000802#32, 0, [])] := by decide
/-- V-ENG-11. -/
theorem test_initModeEcb_refuses_iv :
    shown (step (send (toy 16) (bound (toy 16) key1) 0x20000100#32 [0#8])) = some [(0x00000011#32, 0, [])] := by decide

/-- V-CTR-5: a short IV is left-aligned. -/
theorem test_initModeCtr :
    (after (step (send (toy 16) (bound (toy 16) key1) 0x24000400#32 (hex "01020304")))).map (fun t => t.engine.ctr) =
      some (hex "01020304000000000000000000000000") := by decide
/-- V-ENG-13. -/
theorem test_initModeCtr_refuses_long_iv :
    shown (step (send (toy 16) (bound (toy 16) key1) 0x24001100#32 (zeros 17))) = some [(0x00000011#32, 0, [])] := by decide

/-- The answers of Enc under K1 that V-OCB-N1 lists. -/
def nonceAnswers : Params :=
  answers [⟨key1, zeros 16, hex "C6A13B37878F5B826F4F8162A1C8D879"⟩,
    ⟨key1, hex "00000001BBAA99887766554433221100", hex "9862B0FDEE4E2DD56DBA6433F0125AA2"⟩]

/-- V-OCB-N1. -/
theorem test_initModeOcb3 :
    (after (step (send nonceAnswers (bound nonceAnswers key1) 0x28100C00#32 nonce1))).map
        (fun t => (t.responses.map Response.status, t.engine.ldollar, t.engine.lt, t.engine.delta)) =
      some ([0x00100202#32], hex "8D42766F0F1EB704DE9F02C54391B075", [hex "1A84ECDE1E3D6E09BD3E058A8723606D"],
        hex "30C561FBDC9C5BAADB74C867E024B545") := by decide
/-- V-OCB-B32. -/
theorem test_initModeOcb3_b32 :
    (after (step (send (toy 32) (bound (toy 32) (run 0 32)) 0x28100C00#32 nonce1))).map (fun t => t.engine.delta) =
      some (hex "00020406080A0C0E10121416181A1C1E20222420C6804A0FEDAB6126F4B2783E") := by decide

/-- An OCB3 session under TOYROT at B = 16 with a full L-table and given indexes: the registers of V-OCB-N4 but for those. -/
def longSession (dir : Dir) (midx aidx : BitVec 64) : Engine :=
  { bound (toy 16) key1 with
    session := .messageAccepting
    cfgMode := .ocb3
    cfgDir := dir
    cfgTaglen := 16#8
    lstar := key1
    ldollar := double 16 key1
    lt := masks 16 key1 64
    delta := hex "00020400E6A06A2FCD8B4106D492581E"
    midx := midx
    aidx := aidx }

/-- The session of V-OCB-N4. -/
def freshSession (dir : Dir) : Engine := { longSession dir 0#64 0#64 with session := .modeConfigured, lt := masks 16 key1 1 }

/-- V-OCB-D5: the first 8 AAD bytes are buffered, no output. -/
theorem test_updateAad :
    (after (step (send (toy 16) (freshSession .encrypt) 0x30000008#32 (run 0 8)))).map (fun t => (t.responses, t.engine.abuf)) =
      some ([⟨0x00100203#32, 0#32, []⟩], run 0 8) := by decide
/-- V-OCB-D4: the AAD index overflows; ABUFLEN = 16. -/
theorem test_updateAad_overflow :
    (after (step (send (toy 16) { longSession .encrypt 0#64 (BitVec.allOnes 64) with session := .aadAccepting } 0x30000010#32
      (zeros 16)))).map (fun t => (t.responses.map Response.status, t.engine.abuflen)) = some ([0x00100226#32], 16#8) := by decide

/-- V-OCB-D5: a block and 5 buffered bytes, after 8 AAD bytes. -/
theorem test_update_ocb3 :
    shown (step (send (toy 16) { freshSession .encrypt with session := .aadAccepting, abuf := run 0 8 } 0x40000015#32 (run 0 21))) =
      some [(0x05100204#32, 16, hex "0009121017D39C5D2EEAA56239FDB277")] := by decide
/-- V-CTR-4: the counter wraps. -/
theorem test_update_ctr_wraps :
    let key := hex "2B7E151628AED2A6ABF7158809CF4F3C"
    let p := answers [⟨key, hex "FFFFFFFFFFFFFFFFFFFFFFFFFFFFFFFF", hex "8AF2860142F786F409307C1A3F7EAAAC"⟩,
      ⟨key, zeros 16, hex "7DF76B0C1AB899B33E42F047B91B546F"⟩]
    (after (step (send p { bound p key with session := .modeConfigured, cfgMode := .ctr, ctr := List.replicate 16 0xFF#8 }
      0x40000020#32 (zeros 32)))).map (fun t => (t.responses, t.engine.ctr)) =
      some ([⟨0x00000104#32, 32#32, hex "8AF2860142F786F409307C1A3F7EAAAC7DF76B0C1AB899B33E42F047B91B546F"⟩],
        hex "00000000000000000000000000000001") := by decide

/-- V-OCB-T1, the known answer: the registers after UPDATE_AAD, and the three answers of Enc its table lists. -/
theorem test_doFinal_ocb3 :
    let p := answers [
      ⟨key1, xorBytes (hex "00010203040506078000000000000000") (hex "C6A13B37878F5B826F4F8162A1C8D879"),
        hex "81C2896E8CDD359BBABFC8E50D896FA3"⟩,
      ⟨key1, hex "F6645ACC5B130028B43B490541EC6D3C", hex "6821B1667F6A675DB63FC9FAB075D35D"⟩,
      ⟨key1, xorBytes (hex "00010203040506078000000000000000") (hex "7B262CA3540DB72C6AA44BC0027DDD49"),
        hex "D6E734CE5F69DEA19FC35214F5795FAA"⟩]
    let e : Engine := { freshSession .encrypt with
      session := .aadAccepting, abuf := run 0 8, lstar := hex "C6A13B37878F5B826F4F8162A1C8D879",
      ldollar := hex "8D42766F0F1EB704DE9F02C54391B075", delta := hex "30C561FBDC9C5BAADB74C867E024B545" }
    shown (step (send p e 0x50000008#32 (run 0 8))) =
      some [(0x00100205#32, 24, hex "6820B3657B6F615A5725BDA0D3B4EB3A257C9AF1F8F03009")] := by decide
/-- V-ECB-6: Decrypt with PKCS7. -/
theorem test_doFinal_ecb_unpads :
    shown (step (send (toy 16)
      { bound (toy 16) key1 with session := .modeConfigured, cfgPad := true, cfgDir := .decrypt } 0x50000010#32
      (hex "020504191E1F1C1D1213101116171415"))) = some [(0x00000C05#32, 3, hex "010203")] := by decide

/-! ### Shared operations -/

/-- V-DBL-1, V-DBL-2. -/
theorem test_double :
    double 16 (List.replicate 16 0xFF#8) = hex "FFFFFFFFFFFFFFFFFFFFFFFFFFFFFF79" ∧
    double 32 (List.replicate 32 0xFF#8) = List.replicate 30 0xFF#8 ++ hex "FBDB" := by decide
/-- V-PAD-1 to V-PAD-9. -/
theorem test_padding :
    pad 16 (run 0 13) = hex "000102030405060708090A0B0C030303" ∧ pad 16 [] = List.replicate 16 0x10#8 ∧
    unpad 16 (hex "000102030405060708090A0B0C030303") = some (run 0 13) ∧ unpad 16 (List.replicate 16 0x10#8) = some [] ∧
    unpad 16 (zeros 15 ++ [0x01#8]) = some (zeros 15) ∧ unpad 16 (zeros 16) = none ∧ unpad 16 (zeros 15 ++ [0x11#8]) = none ∧
    unpad 16 (zeros 13 ++ hex "030203") = none := by decide
/-- 60_exceptions.md R275 from reset (V-ENG-29). -/
theorem test_illegal_word :
    shown (step (send Params.default (Engine.reset Params.default) 0x2C000000#32 [])) = some [(0x00000050#32, 0, [])] := by decide

/-! ### Witnesses: states and operands that meet every hypothesis of an obligation -/

/-- The same engine with `din` and then `rest` on the channel. -/
def given (p : Params) (e : Engine) (din : Bytes) (rest : List HostInput) : State :=
  { State.resetWith p with engine := e, input := sendBytes din ++ rest }

/-- ECB and CTR sessions under TOYROT. -/
def ecbSession (pad : Bool) (dir : Dir) : Engine :=
  { bound (toy 16) key1 with session := .modeConfigured, cfgPad := pad, cfgDir := dir }
def ctrSession : Engine := { bound (toy 16) key1 with session := .messageAccepting, cfgMode := .ctr, ctr := List.replicate 16 0xFF#8 }

/-- A command runs and ends without an error. -/
def runsOk (cs : List (Instr × Bytes)) (s : State) : Bool :=
  match issueAll cs s with
  | .next t => (responsesSince s t).all fun r => r.err == 0
  | .fault _ => false
  | .refused _ => false

theorem runsOk_spec (cs : List (Instr × Bytes)) (s : State) (h : runsOk cs s = true) : ∃ t, issueAll cs s = .next t ∧ allOk s t := by
  unfold runsOk at h
  split at h
  · rename_i t ht
    exact ⟨t, ht, by simpa [allOk] using h⟩
  · cases h
  · cases h

/-- Some step answers next. -/
theorem next_of_after (o : Host.Outcome State Fault Refusal) (h : (after o).isSome = true) : ∃ t, o = .next t := by
  unfold after at h
  split at h
  · exact ⟨_, rfl⟩
  · cases h
  · cases h

theorem toy16_wf : (toy 16).Wf := by decide
theorem toy16_roundTrips : CipherRoundTrips (toy 16) := toyrot_cipherRoundTrips _ (by decide) rfl

theorem longSession_bufferInv (dir : Dir) (m a : BitVec 64) : (longSession dir m a).BufferInv (toy 16) where
  buf := by simp [longSession, bound, Engine.reset]
  bufEager := by simp [longSession, bound, Engine.reset, toy]
  abuf := by simp [longSession, bound, Engine.reset]
  abufEager := by simp [longSession, bound, Engine.reset, toy]

theorem longSession_tableInv (dir : Dir) (m a : BitVec 64) (h : 2 ^ 63 ≤ max m.toNat a.toNat) :
    (longSession dir m a).TableInv (toy 16) where
  size _ := .inl rfl
  ldollar _ := rfl
  entries _ := by simp [longSession, masks, toy]
  nonempty _ := by simp [longSession, masks]
  covers _ i h1 h2 := by
    have hm := m.isLt
    have ha := a.isLt
    have : i < 2 ^ 64 := lt_of_le_of_lt h2 (max_lt hm ha)
    have := ntz_lt i h1 this
    simp only [longSession, masks, List.length_map, List.length_range]
    omega
  exact _ := .inr ⟨2 ^ 63, by decide, h, by simp [longSession, masks]; decide⟩

theorem freshSession_bufferInv (dir : Dir) : (freshSession dir).BufferInv (toy 16) where
  buf := by cases dir <;> decide
  bufEager := by cases dir <;> decide
  abuf := by cases dir <;> decide
  abufEager := by cases dir <;> decide

theorem freshSession_tableInv (dir : Dir) : (freshSession dir).TableInv (toy 16) where
  size _ := .inl rfl
  ldollar _ := rfl
  entries _ := by simp [freshSession, masks, longSession, toy]
  nonempty _ := by simp [freshSession, masks]
  covers _ i h1 h2 := by simp [freshSession, longSession] at h2; omega
  exact _ := .inl (by simp [freshSession, masks])

theorem ecbSession_bufferInv (pad : Bool) (dir : Dir) : (ecbSession pad dir).BufferInv (toy 16) where
  buf := by cases pad <;> cases dir <;> decide
  bufEager := by cases pad <;> cases dir <;> decide
  abuf := by cases pad <;> cases dir <;> decide
  abufEager := by cases pad <;> cases dir <;> decide

theorem ctrSession_bufferInv : ctrSession.BufferInv (toy 16) where
  buf := by decide
  bufEager := by decide
  abuf := by decide
  abufEager := by decide

theorem ctrSession_widthInv : ctrSession.WidthInv (toy 16) where
  ctr := by decide
  lstar := by decide
  ldollar := by decide
  delta := by decide
  deltaAad := by decide
  checksum := by decide
  authAcc := by decide
  entries := by decide
  lcount := by decide

theorem bound_keyInv (b : Nat) : (bound (toy b) key1).KeyInv (toy b) where
  bound := by simp [bound]
  length := by simp [bound, key1, run, toy]

/-- EncodedCommandsDecodeBack, at the largest fields. -/
theorem witness_EncodedCommandsDecodeBack :
    (Instr.initCipher 255).wf = true ∧ (Instr.initModeEcb .decrypt true 255 255).wf = true ∧
    (Instr.initModeCtr .decrypt true 255 255).wf = true ∧ (Instr.initModeOcb3 .decrypt true 255 255).wf = true ∧
    (Instr.updateAad 65535).wf = true ∧ (Instr.update 65535).wf = true ∧ (Instr.doFinal 65535).wf = true := by decide

/-- DecodedWordsEncodeBack. -/
theorem witness_DecodedWordsEncodeBack : decode 0x2BFFFF00#32 = .command (.initModeOcb3 .decrypt true 255 255) := by decide

/-- DecodingFollowsOpcodeMap, each clause. -/
theorem witness_DecodingFollowsOpcodeMap :
    decode 0x5000FFFF#32 = .command (.doFinal 65535) ∧
    (⟨0xFFFF0000#32, 0x50000000#32⟩ : OpcodeRow) ∈ opcodeMap ∧ 0x5000FFFF#32 &&& 0xFFFF0000#32 = 0x50000000#32 := by
  refine ⟨by decide, by simp [opcodeMap], by decide⟩

/-- StepRunsDecodedCommand and IllegalWordIsAnswered. -/
theorem witness_StepRunsDecodedCommand :
    (send (toy 16) (bound (toy 16) key1) 0x20000000#32 []).input = sendBytes (wordBytes .big 0x20000000#32) ++ [] ∧
    decode 0x20000000#32 = .command (.initModeEcb .encrypt false 0 0) := by
  refine ⟨by decide, by decide⟩
theorem witness_IllegalWordIsAnswered :
    (send (toy 16) (bound (toy 16) key1) 0x2C000000#32 [0#8]).input = sendBytes (wordBytes .big 0x2C000000#32) ++ sendBytes [0#8] ∧
    decode 0x2C000000#32 = .illegal .reservedMode := by
  refine ⟨by decide, by decide⟩

/-- IdleEngineHoldsState. -/
theorem witness_IdleEngineHoldsState : State.reset.input = [] := rfl

/-- ResetAbandonsCommand: nothing or three bytes of a word, and a word with all of its data-in but one byte. -/
theorem witness_ResetAbandonsCommand :
    let s := given (toy 16) (bound (toy 16) key1)
    (s [] (.reset :: [])).input = sendBytes [] ++ .reset :: [] ∧ ([] : Bytes).length < 4 ∧
    (s (hex "100000") (.reset :: [])).input = sendBytes (hex "100000") ++ .reset :: [] ∧ (hex "100000").length < 4 ∧
    (s (hex "10000010" ++ zeros 15) (.reset :: [])).input = sendBytes (hex "10000010" ++ zeros 15) ++ .reset :: [] ∧
    hex "10000010" ++ zeros 15 = wordBytes (toy 16).wordOrder 0x10000010#32 ++ zeros 15 ∧
    decode 0x10000010#32 = .command (.initCipher 16) ∧ (zeros 15).length < (Instr.initCipher 16).dataLength := by decide

/-- ShortDataLeavesCommandStuck, and what it then says of that state. -/
theorem witness_ShortDataLeavesCommandStuck :
    let s := given (toy 16) (ecbSession false .encrypt) (wordBytes .big 0x40000001#32) []
    s.input = sendBytes (wordBytes s.params.wordOrder 0x40000001#32 ++ []) ∧ decode 0x40000001#32 = .command (.update 1) ∧
    ([] : Bytes).length < (Instr.update 1).dataLength ∧ stop (step s) = some .awaitingDataIn := by decide

/-- AfterResetOnlyInitCipherSucceeds, each clause. -/
theorem witness_AfterResetOnlyInitCipherSucceeds :
    (∀ k, Instr.doFinal 2 ≠ .initCipher k) ∧ (zeros 2).length = (Instr.doFinal 2).dataLength ∧
    decode 0x60000000#32 = .illegal .reservedOpcode ∧ key1.length ∈ (toy 32).keyLengths := by
  refine ⟨by simp, by decide, by decide, by decide⟩

/-- EveryCommandIsAnswered: a legal and an illegal word. -/
theorem witness_EveryCommandIsAnswered :
    let cs : List Command := [⟨0x10000010#32, key1⟩, ⟨0x2C000000#32, []⟩, ⟨0x21000000#32, []⟩]
    (∀ c ∈ cs, c.wf = true) ∧
    (given (toy 16) (Engine.reset (toy 16)) (cs.flatMap fun c => wordBytes .big c.word ++ c.din) [.reset]).input =
      cs.flatMap (Command.send .big) ++ [.reset] := by decide

/-- StepKeepsParametersAndResponses: the step of program P1's first command. -/
theorem witness_StepKeepsParametersAndResponses :
    ∃ t, step (send (toy 16) (Engine.reset (toy 16)) 0x10000010#32 key1) = .next t := next_of_after _ (by decide)

/-- InitCipherBindsKey and InitCipherRefusesKeyLength. -/
theorem witness_InitCipherBindsKey :
    key1.length ∈ (toy 32).keyLengths ∧ (given (toy 32) (bound (toy 32) key1) key1 []).input = sendBytes key1 ++ [] := by
  refine ⟨by decide, rfl⟩
theorem witness_InitCipherRefusesKeyLength :
    (zeros 15).length ∉ (toy 16).keyLengths ∧ (zeros 17).length ∉ (toy 16).keyLengths ∧ ([] : Bytes).length ∉ (toy 16).keyLengths ∧
    (given (toy 16) (bound (toy 16) key1) (zeros 17) []).input = sendBytes (zeros 17) ++ [] := by
  refine ⟨by decide, by decide, by decide, rfl⟩

/-- InitModeNeedsKey. -/
theorem witness_InitModeNeedsKey :
    (given (toy 16) (Engine.reset (toy 16)) nonce1 []).engine.session = .uninit ∧
    (given (toy 16) (Engine.reset (toy 16)) nonce1 []).input = sendBytes nonce1 ++ [] := ⟨rfl, rfl⟩

/-- InitModeEcbConfigures. -/
theorem witness_InitModeEcbConfigures : (given (toy 16) (longSession .encrypt 0#64 0#64) [] []).engine.session ≠ .uninit := by decide

/-- InitModeCtrConfigures: no IV and a whole block of it. -/
theorem witness_InitModeCtrConfigures :
    ctrSession.session ≠ .uninit ∧ ([] : Bytes).length ≤ (toy 16).blockBytes ∧ key1.length ≤ (toy 16).blockBytes ∧
    (given (toy 16) ctrSession key1 []).input = sendBytes key1 ++ [] := by
  refine ⟨by decide, by decide, by decide, rfl⟩

/-- InitModeOcb3Configures: both block sizes, the shortest and the longest tag and nonce. -/
theorem witness_InitModeOcb3Configures :
    (bound (toy 16) key1).session ≠ .uninit ∧ (toy 16).blockBytes = 16 ∧ (toy 32).blockBytes = 32 ∧
    16 ≤ (toy 16).blockBytes ∧ 1 ≤ (toy 32).blockBytes ∧ (zeros 15).length ≤ (toy 16).blockBytes - 1 ∧
    ([] : Bytes).length ≤ (toy 32).blockBytes - 1 ∧
    (given (toy 16) (bound (toy 16) key1) (zeros 15) []).input = sendBytes (zeros 15) ++ [] := by
  refine ⟨by decide, rfl, rfl, by decide, by decide, by decide, by decide, rfl⟩

/-- InitModeConfigErrors: each refused field, at the first refused value (V-ENG-6 to V-ENG-14), and a block size without OCB3. -/
theorem witness_InitModeConfigErrors :
    (bound (toy 16) key1).session ≠ .uninit ∧ (toy 16).blockBytes < (zeros 17).length ∧ (toy 16).blockBytes < 17 ∧
    (toy 16).blockBytes - 1 < (zeros 16).length ∧ (toy 8).blockBytes ≠ 16 ∧ (toy 8).blockBytes ≠ 32 ∧
    (given (toy 16) (bound (toy 16) key1) (zeros 17) []).input = sendBytes (zeros 17) ++ [] := by
  refine ⟨by decide, by decide, by decide, by decide, by decide, by decide, rfl⟩

/-- DataCommandsOutOfSequence: a finished session, and a session without an AAD channel. -/
theorem witness_DataCommandsOutOfSequence :
    ({ ctrSession with session := .finalized } : Engine).session = .finalized ∧ ctrSession.cfgMode ≠ .ocb3 ∧
    (given (toy 16) ctrSession [0#8] []).input = sendBytes [0#8] ++ [] := by
  refine ⟨rfl, by decide, rfl⟩

/-- What the statements about the data commands have in common. -/
def DataHypotheses (s : State) (mode : Mode) (din : Bytes) (rest : List HostInput) : Prop :=
  s.params.Wf ∧ s.engine.BufferInv s.params ∧ s.engine.session.acceptsData = true ∧ s.engine.cfgMode = mode ∧
    s.input = sendBytes din ++ rest

theorem ecb_hypotheses (pad : Bool) (dir : Dir) (din : Bytes) :
    DataHypotheses (given (toy 16) (ecbSession pad dir) din [.reset]) .ecb din [.reset] ∧
    (ecbSession pad dir).cfgPad = pad ∧ (ecbSession pad dir).cfgDir = dir :=
  ⟨⟨toy16_wf, ecbSession_bufferInv pad dir, rfl, rfl, rfl⟩, rfl, rfl⟩

theorem long_hypotheses (dir : Dir) (m a : BitVec 64) (h : 2 ^ 63 ≤ max m.toNat a.toNat) (din : Bytes) :
    DataHypotheses (given (toy 16) (longSession dir m a) din []) .ocb3 din [] ∧ (longSession dir m a).TableInv (toy 16) :=
  ⟨⟨toy16_wf, longSession_bufferInv dir m a, rfl, rfl, rfl⟩, longSession_tableInv dir m a h⟩

theorem fresh_hypotheses (dir : Dir) (din : Bytes) :
    DataHypotheses (given (toy 16) (freshSession dir) din []) .ocb3 din [] ∧ (freshSession dir).TableInv (toy 16) :=
  ⟨⟨toy16_wf, freshSession_bufferInv dir, rfl, rfl, rfl⟩, freshSession_tableInv dir⟩

theorem ctr_hypotheses (din : Bytes) :
    DataHypotheses (given (toy 16) ctrSession din []) .ctr din [] ∧ ctrSession.WidthInv (toy 16) :=
  ⟨⟨toy16_wf, ctrSession_bufferInv, rfl, rfl, rfl⟩, ctrSession_widthInv⟩

/-- UpdateEcbReleasesBlocks: every configuration of ECB, among them the one that holds a block back. -/
theorem witness_UpdateEcbReleasesBlocks (pad : Bool) (dir : Dir) :
    DataHypotheses (given (toy 16) (ecbSession pad dir) (zeros 16) [.reset]) .ecb (zeros 16) [.reset] :=
  (ecb_hypotheses pad dir (zeros 16)).1

/-- DoFinalEcbEncryptPads: the empty message. -/
theorem witness_DoFinalEcbEncryptPads :
    DataHypotheses (given (toy 16) (ecbSession true .encrypt) [] [.reset]) .ecb [] [.reset] ∧
    (ecbSession true .encrypt).cfgPad = true ∧ (ecbSession true .encrypt).cfgDir = .encrypt := ecb_hypotheses true .encrypt []

/-- DoFinalEcbDecryptUnpads, each clause: no text, a length that is no multiple of B, a padded last block, one that is not. -/
theorem witness_DoFinalEcbDecryptUnpads :
    (∀ din, DataHypotheses (given (toy 16) (ecbSession true .decrypt) din [.reset]) .ecb din [.reset] ∧
      (ecbSession true .decrypt).cfgPad = true ∧ (ecbSession true .decrypt).cfgDir = .decrypt) ∧
    ((ecbSession true .decrypt).buf ++ []).length = 0 ∧ ((ecbSession true .decrypt).buf ++ zeros 17).length % 16 ≠ 0 ∧
    (hex "010203").length < 16 ∧
    cipherDec (toy 16) key1 (hex "020504191E1F1C1D1213101116171415") = pad 16 (hex "010203") ∧
    (∀ src : Bytes, src.length < 16 → cipherDec (toy 16) key1 key1 ≠
      src ++ List.replicate (16 - src.length) (BitVec.ofNat 8 (16 - src.length))) := by
  refine ⟨ecb_hypotheses true .decrypt, rfl, by decide, by decide, by decide, ?_⟩
  intro src hs h
  have hl : (cipherDec (toy 16) key1 key1).getD 15 0#8 = BitVec.ofNat 8 (16 - src.length) := by
    rw [h, List.getD_eq_getElem _ _ (by simp; omega), List.getElem_append_right (by omega)]
    simp
  have hv : (cipherDec (toy 16) key1 key1).getD 15 0#8 = 0x00#8 := by decide
  rw [hv] at hl
  have := congrArg BitVec.toNat hl
  simp at this
  omega

/-- DoFinalEcbNeedsWholeBlocks, both clauses. -/
theorem witness_DoFinalEcbNeedsWholeBlocks :
    (∀ din, DataHypotheses (given (toy 16) (ecbSession false .decrypt) din [.reset]) .ecb din [.reset] ∧
      (ecbSession false .decrypt).cfgPad = false) ∧
    ((ecbSession false .decrypt).buf ++ zeros 16).length % 16 = 0 ∧ ((ecbSession false .decrypt).buf ++ zeros 15).length % 16 ≠ 0 := by
  refine ⟨fun din => ⟨(ecb_hypotheses false .decrypt din).1, rfl⟩, by decide, by decide⟩

/-- UpdateCtrAppliesKeystream and DoFinalCtrAppliesKeystream: a counter about to wrap. -/
theorem witness_UpdateCtrAppliesKeystream :
    DataHypotheses (given (toy 16) ctrSession (zeros 32) []) .ctr (zeros 32) [] ∧ ctrSession.WidthInv (toy 16) := ctr_hypotheses _
theorem witness_DoFinalCtrAppliesKeystream :
    DataHypotheses (given (toy 16) ctrSession (zeros 20) []) .ctr (zeros 20) [] ∧ ctrSession.WidthInv (toy 16) := ctr_hypotheses _

/-- UpdateOcb3MasksBlocks and DoFinalOcb3EmitsTag: a fresh session, and the last block an index has room for. -/
theorem witness_UpdateOcb3MasksBlocks :
    (DataHypotheses (given (toy 16) (freshSession .decrypt) (zeros 40) []) .ocb3 (zeros 40) [] ∧
      (freshSession .decrypt).TableInv (toy 16) ∧ (freshSession .decrypt).midx.toNat + (zeros 40).length / 16 < 2 ^ 64) ∧
    (let e := longSession .encrypt (BitVec.ofNat 64 (2 ^ 64 - 2)) 0#64
     DataHypotheses (given (toy 16) e (zeros 16) []) .ocb3 (zeros 16) [] ∧ e.TableInv (toy 16) ∧
      e.midx.toNat + (zeros 16).length / 16 < 2 ^ 64) :=
  ⟨⟨(fresh_hypotheses _ _).1, (fresh_hypotheses .decrypt []).2, by decide⟩,
    (long_hypotheses _ _ _ (by decide) _).1, (long_hypotheses _ _ _ (by decide) []).2, by decide⟩
theorem witness_DoFinalOcb3EmitsTag :
    let e := longSession .decrypt (BitVec.ofNat 64 (2 ^ 64 - 2)) 0#64
    DataHypotheses (given (toy 16) e (zeros 31) []) .ocb3 (zeros 31) [] ∧ e.TableInv (toy 16) ∧
      e.midx.toNat + (zeros 31).length / 16 < 2 ^ 64 :=
  ⟨(long_hypotheses _ _ _ (by decide) _).1, (long_hypotheses _ _ _ (by decide) []).2, by decide⟩

/-- UpdateAadFoldsBlocks, at the same two ends. -/
theorem witness_UpdateAadFoldsBlocks :
    (DataHypotheses (given (toy 16) (freshSession .decrypt) (zeros 40) []) .ocb3 (zeros 40) [] ∧
      (freshSession .decrypt).TableInv (toy 16) ∧ (freshSession .decrypt).aidx.toNat + (zeros 40).length / 16 < 2 ^ 64) ∧
    (let e := longSession .encrypt 0#64 (BitVec.ofNat 64 (2 ^ 64 - 2))
     DataHypotheses (given (toy 16) e (zeros 16) []) .ocb3 (zeros 16) [] ∧ e.TableInv (toy 16) ∧
      e.aidx.toNat + (zeros 16).length / 16 < 2 ^ 64) :=
  ⟨⟨(fresh_hypotheses _ _).1, (fresh_hypotheses .decrypt []).2, by decide⟩,
    (long_hypotheses _ _ _ (by decide) _).1, (long_hypotheses _ _ _ (by decide) []).2, by decide⟩

/-- MessageIndexOverflowFails, with no block before the failing one and with one (V-OCB-D3). -/
theorem witness_MessageIndexOverflowFails :
    (let e := longSession .encrypt (BitVec.allOnes 64) 0#64
     DataHypotheses (given (toy 16) e (zeros 16) []) .ocb3 (zeros 16) [] ∧ e.TableInv (toy 16) ∧
      2 ^ 64 - 1 - e.midx.toNat < (e.buf ++ zeros 16).length / 16) ∧
    (let e := longSession .encrypt (BitVec.ofNat 64 (2 ^ 64 - 2)) 0#64
     DataHypotheses (given (toy 16) e (zeros 32) []) .ocb3 (zeros 32) [] ∧ e.TableInv (toy 16) ∧
      2 ^ 64 - 1 - e.midx.toNat < (e.buf ++ zeros 32).length / 16) :=
  ⟨⟨(long_hypotheses _ _ _ (by decide) _).1, (long_hypotheses _ _ _ (by decide) []).2, by decide⟩,
    (long_hypotheses _ _ _ (by decide) _).1, (long_hypotheses _ _ _ (by decide) []).2, by decide⟩

/-- AadIndexOverflowFails (V-OCB-D4). -/
theorem witness_AadIndexOverflowFails :
    let e := longSession .encrypt 0#64 (BitVec.allOnes 64)
    DataHypotheses (given (toy 16) e (zeros 16) []) .ocb3 (zeros 16) [] ∧ e.TableInv (toy 16) ∧
      2 ^ 64 - 1 - e.aidx.toNat < (e.abuf ++ zeros 16).length / 16 :=
  ⟨(long_hypotheses _ _ _ (by decide) _).1, (long_hypotheses _ _ _ (by decide) []).2, by decide⟩

/-- DataCommandsKeepConfiguration and TableEntriesAreImmutable: each data command answers. -/
theorem witness_DataCommandsKeepConfiguration :
    (∃ t, exec (.updateAad 16) (given (toy 16) (freshSession .encrypt) (zeros 16) []) = .next t) ∧
    (∃ t, exec (.update 16) (given (toy 16) (freshSession .encrypt) (zeros 16) []) = .next t) ∧
    (∃ t, exec (.doFinal 16) (given (toy 16) (freshSession .encrypt) (zeros 16) []) = .next t) :=
  ⟨next_of_after _ (by decide), next_of_after _ (by decide), next_of_after _ (by decide)⟩
theorem witness_TableEntriesAreImmutable :
    ∃ t, exec (.update 48) (given (toy 16) (freshSession .decrypt) (zeros 48) []) = .next t := next_of_after _ (by decide)

/-- SessionAfterEachOutcome. -/
theorem witness_SessionAfterEachOutcome :
    nonce1.length = (Instr.initModeOcb3 .encrypt false 16 12).dataLength ∧
    (given (toy 16) (bound (toy 16) key1) nonce1 []).input = sendBytes nonce1 ++ [] := by
  refine ⟨by decide, rfl⟩

/-- DoFinalIsUpdateThenFinal: an UPDATE that succeeds, and one that fails. -/
theorem witness_DoFinalIsUpdateThenFinal :
    (ecbSession true .decrypt).session.acceptsData = true ∧
    runsOk [(.update 16, zeros 16)] (given (toy 16) (ecbSession true .decrypt) [] []) = true ∧
    (longSession .encrypt (BitVec.allOnes 64) 0#64).session.acceptsData = true ∧
    runsOk [(.update 16, zeros 16)] (given (toy 16) (longSession .encrypt (BitVec.allOnes 64) 0#64) [] []) = false := by decide

/-- MessageSplitsDoNotMatter, AadSplitsDoNotMatter, AadAndMessageCommute: parts that cut a block, and an empty part. -/
theorem witness_MessageSplitsDoNotMatter :
    ∃ t, issueAll ([zeros 7, [], zeros 13].map fun d => (.update d.length, d)) (given (toy 16) (freshSession .encrypt) [] []) = .next t ∧
      allOk (given (toy 16) (freshSession .encrypt) [] []) t := runsOk_spec _ _ (by decide)
theorem witness_AadSplitsDoNotMatter :
    ∃ t, issueAll ([zeros 7, [], zeros 13].map fun d => (.updateAad d.length, d)) (given (toy 16) (freshSession .encrypt) [] []) =
        .next t ∧
      allOk (given (toy 16) (freshSession .encrypt) [] []) t := runsOk_spec _ _ (by decide)
theorem witness_AadAndMessageCommute :
    ∃ t, issueAll [(.updateAad 17, zeros 17), (.update 33, zeros 33)] (given (toy 16) (freshSession .encrypt) [] []) = .next t ∧
      allOk (given (toy 16) (freshSession .encrypt) [] []) t := runsOk_spec _ _ (by decide)

/-- UnpadInvertsPad, at the ends of the range of B. -/
theorem witness_UnpadInvertsPad : (zeros 255).length = 255 ∧ unpad 1 [0x01#8] = some [] ∧ [0x01#8].length = 1 := by
  refine ⟨by simp, by decide, rfl⟩

/-- DoubleByteForm16, DoubleByteForm32, CutIsShift. -/
theorem witness_DoubleByteForm16 : (List.replicate 16 0xFF#8 : Bytes).length = 16 := by decide
theorem witness_DoubleByteForm32 : (List.replicate 32 0xFF#8 : Bytes).length = 32 := by decide
theorem witness_CutIsShift : (zeros 32).length = 2 * 16 ∧ 15 < 16 ∧ 7 < 8 := by simp

/-- InvariantsHoldAfterReset, at the ends of the range of B. -/
theorem witness_InvariantsHoldAfterReset : Params.default.Wf ∧ (toy 1).Wf ∧ (toy 255).Wf := by decide

/-- The five statements that a step keeps an invariant: a step that changes the registers the invariant is about. -/
theorem witness_StepKeepsKeyBinding :
    (given (toy 16) (bound (toy 16) key1) [] []).engine.KeyInv (toy 16) ∧
    ∃ t, step (send (toy 16) (bound (toy 16) key1) 0x1000000F#32 (zeros 15)) = .next t :=
  ⟨bound_keyInv 16, next_of_after _ (by decide)⟩
theorem witness_StepKeepsRegisterWidths :
    ctrSession.WidthInv (toy 16) ∧ ∃ t, step (send (toy 16) ctrSession 0x40000010#32 (zeros 16)) = .next t :=
  ⟨ctrSession_widthInv, next_of_after _ (by decide)⟩
theorem witness_StepKeepsBufferBounds :
    (toy 16).Wf ∧ (ecbSession true .decrypt).BufferInv (toy 16) ∧
    ∃ t, step (send (toy 16) (ecbSession true .decrypt) 0x40000010#32 (zeros 16)) = .next t :=
  ⟨toy16_wf, ecbSession_bufferInv _ _, next_of_after _ (by decide)⟩
theorem witness_StepKeepsConfiguration :
    (toy 16).Wf ∧ (bound (toy 16) key1).ConfigInv (toy 16) ∧
    ∃ t, step (send (toy 16) (bound (toy 16) key1) 0x28100C00#32 nonce1) = .next t := by
  refine ⟨toy16_wf, ⟨?_, ?_, ?_, ?_, ?_, ?_⟩, next_of_after _ (by decide)⟩ <;> simp [bound, Engine.reset, zeros]
theorem witness_StepKeepsDoublingTable :
    (freshSession .encrypt).TableInv (toy 16) ∧
    ∃ t, step (send (toy 16) (freshSession .encrypt) 0x40000020#32 (zeros 32)) = .next t :=
  ⟨freshSession_tableInv _, next_of_after _ (by decide)⟩

/-- CtrSessionIsSelfInverse, EcbSessionRoundTrip. -/
theorem witness_CtrSessionIsSelfInverse :
    (toy 16).Wf ∧ (given (toy 16) (bound (toy 16) key1) [] []).engine.session ≠ .uninit ∧ key1.length ≤ (toy 16).blockBytes := by
  refine ⟨toy16_wf, by decide, by decide⟩
theorem witness_EcbSessionRoundTrip :
    (toy 16).Wf ∧ CipherRoundTrips (toy 16) ∧ (bound (toy 16) key1).session ≠ .uninit ∧ (bound (toy 16) key1).KeyInv (toy 16) ∧
    (false = false → (zeros 32).length % (toy 16).blockBytes = 0) :=
  ⟨toy16_wf, toy16_roundTrips, by decide, bound_keyInv 16, by decide⟩

/-- Ocb3SessionComputesTag and Ocb3SessionRoundTrip, at B = 32 with the longest nonce and tag. -/
theorem witness_Ocb3SessionComputesTag :
    (toy 32).blockBytes = 32 ∧ (bound (toy 32) key1).session ≠ .uninit ∧ 1 ≤ 32 ∧ 32 ≤ (toy 32).blockBytes ∧
    (zeros 31).length ≤ (toy 32).blockBytes - 1 ∧ (zeros 40).length / (toy 32).blockBytes < 2 ^ 64 := by
  refine ⟨rfl, by decide, by decide, by decide, by decide, by simp [toy]⟩
theorem witness_Ocb3SessionRoundTrip :
    (toy 32).blockBytes = 32 ∧ CipherRoundTrips (toy 32) ∧ (bound (toy 32) key1).session ≠ .uninit ∧
    (bound (toy 32) key1).KeyInv (toy 32) ∧ 32 ≤ (toy 32).blockBytes ∧ (zeros 31).length ≤ (toy 32).blockBytes - 1 ∧
    (zeros 40).length / (toy 32).blockBytes < 2 ^ 64 :=
  ⟨rfl, toyrot_cipherRoundTrips _ (by decide) rfl, by decide, bound_keyInv 32, by decide, by decide, by simp [toy]⟩

/-- TamperedBlockChangesTag: one bit of a full block, and one bit of the partial block (V-OCB-T5). -/
theorem witness_TamperedBlockChangesTag :
    (toy 16).blockBytes = 16 ∧ CipherRoundTrips (toy 16) ∧ (bound (toy 16) key1).session ≠ .uninit ∧
    (bound (toy 16) key1).KeyInv (toy 16) ∧ nonce1.length ≤ 15 ∧ (zeros 24).length / 16 < 2 ^ 64 ∧
    (0x01#8 :: zeros 23).length = (zeros 24).length ∧
    blockAt 16 (zeros 24) 0 ≠ blockAt 16 (0x01#8 :: zeros 23) 0 ∧
    (∀ i, i ≠ 0 → blockAt 16 (zeros 24) i = blockAt 16 (0x01#8 :: zeros 23) i) ∧
    blockAt 16 (hex "6820B3657B6F615A") 0 ≠ blockAt 16 (hex "6920B3657B6F615A") 0 := by
  refine ⟨rfl, toy16_roundTrips, by decide, bound_keyInv 16, by decide, by decide, by decide, by decide, ?_, by decide⟩
  intro i hi
  obtain ⟨k, rfl⟩ : ∃ k, i = k + 1 := ⟨i - 1, by omega⟩
  rw [blockAt, blockAt, Nat.mul_succ, Nat.add_comm, ← List.drop_drop, ← List.drop_drop]
  rfl

/-- KeyActsOnlyThroughCipher: TOYROT extends a short key on the left with zeros, so two keys can answer alike. -/
theorem witness_KeyActsOnlyThroughCipher :
    (∀ n, Instr.update 16 ≠ .initCipher n) ∧ (zeros 16).length = (Instr.update 16).dataLength ∧ [0x01#8] ≠ [0x00#8, 0x01#8] ∧
    (∀ blk, cipherEnc (toy 16) [0x01#8] blk = cipherEnc (toy 16) [0x00#8, 0x01#8] blk) ∧
    (∀ blk, cipherDec (toy 16) [0x01#8] blk = cipherDec (toy 16) [0x00#8, 0x01#8] blk) ∧
    (∃ t, issue (.update 16) (zeros 16) (given (toy 16) { ecbSession false .encrypt with key := some [0x01#8] } [] []) = .next t) ∧
    (∃ t, issue (.update 16) (zeros 16) (given (toy 16) { ecbSession false .encrypt with key := some [0x00#8, 0x01#8] } [] []) =
      .next t) :=
  ⟨by simp, by decide, by decide, fun _ => rfl, fun _ => rfl, next_of_after _ (by decide), next_of_after _ (by decide)⟩

end Sys2Proof.Machine
end

section
/-! PROOFS of the statements of 10_state.md. Two relations say once what the registers can go through, `DataWrite` (one register write
of the data path) and `EngineStep` (one step), and each invariant is a case analysis of them. The buffers' bounds, which hold between
bytes and not between writes, go through the byte loops; the key's noninterference is a renaming that every command commutes with. -/

namespace Sys2Proof.Machine

/-! ### The parameters, the records of a run, and the registers after reset -/

/-- Settles O15: every outcome of a step keeps the parameters and appends to the two records. -/
theorem stepKeepsParametersAndResponses : Obligations.StepKeepsParametersAndResponses := by
  intro s t h
  rcases step_next s t h with rfl | ⟨rest, rfl⟩ | ⟨rest, rfl⟩ | ⟨i, din, rest, _, rfl⟩ <;> simp

/-- Settles O10: each register of the reset state, read off its definition. -/
theorem resetRegisters : Obligations.ResetRegisters := by
  intro p
  exact ⟨rfl, rfl, rfl, rfl, rfl, rfl, rfl, rfl, rfl, rfl, rfl, rfl, rfl, rfl, rfl, rfl, rfl, rfl, rfl, rfl, rfl⟩

/-! ### The STATUS word (10_state.md R28) -/

/-- A field put above the bits in use adds its value, shifted. -/
theorem toNat_or_field {a x : Word} {n u v : Nat} (ha : a.toNat = u) (hu : u < 2 ^ n) (hx : x.toNat = v)
    (hv : v * 2 ^ n < 2 ^ 32) : (a ||| x <<< n).toNat = u + v * 2 ^ n := by
  subst ha hx
  rw [BitVec.toNat_or, BitVec.toNat_shiftLeft, Nat.shiftLeft_eq, Nat.mod_eq_of_lt hv, ← Nat.shiftLeft_eq, Nat.or_comm,
    ← Nat.shiftLeft_add_eq_or_of_lt hu, Nat.add_comm, Nat.shiftLeft_eq]

/-- Every field's value fits the bits that rule R28 gives it. -/
theorem statusFields_lt (err : Err) (e : Engine) :
    e.session.code < 2 ^ 3 ∧ err.code < 2 ^ 4 ∧ e.cfgMode.code < 2 ^ 2 ∧ dirCode e.cfgDir < 2 ∧ e.cfgPad.toNat < 2 ∧
      e.cfgTaglen.toNat < 2 ^ 8 ∧ e.buflen.toNat < 2 ^ 8 := by
  refine ⟨?_, ?_, ?_, ?_, e.cfgPad.toNat_lt, e.cfgTaglen.isLt, e.buflen.isLt⟩
  · cases e.session <;> decide
  · cases err <;> decide
  · cases e.cfgMode <;> decide
  · cases e.cfgDir <;> decide

/-- The STATUS word as the sum of its fields' places. -/
theorem statusWord_toNat (err : Err) (e : Engine) :
    (statusWord err e).toNat =
      e.session.code + err.code * 2 ^ 4 + e.cfgMode.code * 2 ^ 8 + dirCode e.cfgDir * 2 ^ 10 + e.cfgPad.toNat * 2 ^ 11 +
        e.cfgTaglen.toNat * 2 ^ 16 + e.buflen.toNat * 2 ^ 24 := by
  obtain ⟨hs, he, hm, hd, hp, ht, hb⟩ := statusFields_lt err e
  have small : ∀ n, n < 256 → (BitVec.ofNat 32 n).toNat = n := fun n hn => Nat.mod_eq_of_lt (by omega)
  have wide : ∀ x : BitVec 8, (x.setWidth 32).toNat = x.toNat := fun x => by simp; omega
  refine toNat_or_field (toNat_or_field (toNat_or_field (toNat_or_field (toNat_or_field (toNat_or_field (small _ ?_)
    ?_ (small _ ?_) ?_) ?_ (small _ ?_) ?_) ?_ (small _ ?_) ?_) ?_ (small _ ?_) ?_) ?_ (wide _) ?_) ?_ (wide _) ?_ <;> omega

/-- Settles O6: every field's place in the sum. -/
theorem statusWordFields : Obligations.StatusWordFields := by
  intro err e w
  obtain ⟨hs, he, hm, hd, hp, ht, hb⟩ := statusFields_lt err e
  simp only [bits, w, statusWord_toNat, Nat.shiftRight_eq_div_pow]
  refine ⟨?_, ?_, ?_, ?_, ?_, ?_, ?_, ?_, ?_⟩ <;> omega

/-! ### What the data path can write -/

/-- A session past INIT_MODE's configuration: the data commands start in one and end in one (41_engine.md R119). -/
def Session.Open (x : Session) : Prop := x ≠ .uninit ∧ x ≠ .keyBound

theorem Session.Open.of_acceptsData {x : Session} (h : x.acceptsData = true) : x.Open := by
  cases x <;> simp_all [Session.acceptsData, Session.Open]

/-- The registers after `IncreaseDelta` when the index does not overflow (46_ocb3_data.md R231). -/
def Engine.advance (p : Params) (st : Stream) (e : Engine) : Engine :=
  let k := ntz ((e.index st).toNat + 1)
  let lt := growTo p.blockBytes k e.lt
  match st with
  | .msg => { e with midx := e.midx + 1#64, lt := lt, delta := xorBytes e.delta (tableEntry p.blockBytes lt k) }
  | .aad => { e with aidx := e.aidx + 1#64, lt := lt, deltaAad := xorBytes e.deltaAad (tableEntry p.blockBytes lt k) }

/-- One register write of the data path of mode `m`: every kind there is. -/
inductive DataWrite (p : Params) : Mode → Engine → Engine → Prop
  | session {m : Mode} {e : Engine} (x : Session) (hx : x.Open) : DataWrite p m e { e with session := x }
  | buf {m : Mode} {e : Engine} (x : Bytes) : DataWrite p m e { e with buf := x }
  | abuf {e : Engine} (x : Bytes) : DataWrite p .ocb3 e { e with abuf := x }
  | ctr {e : Engine} : DataWrite p .ctr e { e with ctr := increment e.ctr }
  | advance {e : Engine} (st : Stream) (hi : e.index st ≠ BitVec.allOnes 64) : DataWrite p .ocb3 e (e.advance p st)
  | delta {e : Engine} (x : Bytes) (hx : x = e.lstar ∨ x = e.ldollar) :
    DataWrite p .ocb3 e { e with delta := xorBytes e.delta x }
  | deltaAad {e : Engine} : DataWrite p .ocb3 e { e with deltaAad := xorBytes e.deltaAad e.lstar }
  | checksum {e : Engine} (x : Bytes) (hx : e.delta.length = p.blockBytes → p.blockBytes ≤ x.length) :
    DataWrite p .ocb3 e { e with checksum := xorBytes e.checksum x }
  | authAcc {e : Engine} (x : Bytes) (hx : x.length = p.blockBytes) :
    DataWrite p .ocb3 e { e with authAcc := xorBytes e.authAcc x }

/-- Any number of register writes of the data path. -/
abbrev DataWrites (p : Params) (m : Mode) : Engine → Engine → Prop := Relation.ReflTransGen (DataWrite p m)

theorem DataWrite.session_open {p : Params} {m : Mode} {e e' : Engine} (h : DataWrite p m e e') (ho : e.session.Open) :
    e'.session.Open := by
  cases h with
  | session x hx => exact hx
  | advance st hi => cases st <;> exact ho
  | _ => exact ho

theorem DataWrite.keeps {p : Params} {m : Mode} {e e' : Engine} (h : DataWrite p m e e') : e.Keeps e' := by
  cases h with
  | advance st hi => cases st <;> exact ⟨rfl, rfl, rfl, rfl, rfl, rfl, rfl, growTo_prefix _ _ _⟩
  | _ => exact ⟨rfl, rfl, rfl, rfl, rfl, rfl, rfl, List.prefix_refl _⟩

/-- An invariant that every write of an open session keeps is kept by all of them. -/
theorem DataWrites.keep {p : Params} {m : Mode} {I : Engine → Prop} {e e' : Engine} (h : DataWrites p m e e')
    (ho : e.session.Open) (hm : e.cfgMode = m)
    (step : ∀ a b, a.session.Open → a.cfgMode = m → DataWrite p m a b → I a → I b) (hi : I e) : I e' := by
  suffices e'.session.Open ∧ e'.cfgMode = m ∧ I e' from this.2.2
  induction h with
  | refl => exact ⟨ho, hm, hi⟩
  | tail _ hw ih =>
    obtain ⟨ho', hm', hi'⟩ := ih
    exact ⟨hw.session_open ho', hw.keeps.cfgMode.trans hm', step _ _ ho' hm' hw hi'⟩

theorem failed_open : Session.failed.Open := by simp [Session.Open]

theorem raise_writes (p : Params) (m : Mode) (r : Run) (c : Err) : DataWrites p m r.engine (r.raise c).engine := by
  by_cases h : c = .illegalLength ∨ c = .invalidPadding
  · rw [raise_engine_data r c h]
    exact .single (.session _ failed_open)
  · rw [not_or] at h
    rw [raise_engine r c h.1 h.2]

theorem andThen_writes {p : Params} {m : Mode} {e : Engine} {r : Run} {k : Run → Run} (h : DataWrites p m e r.engine)
    (hk : r.err = .ok → DataWrites p m r.engine (k r).engine) : DataWrites p m e (r.andThen k).engine := by
  by_cases hr : r.err = .ok
  · rw [andThen_ok r k hr]
    exact h.trans (hk hr)
  · rwa [andThen_err r k hr]

theorem buf_writes (p : Params) (m : Mode) (e : Engine) (x : Bytes) : DataWrites p m e { e with buf := x } :=
  .single (.buf x)

/-! ### The writes of each operation -/

theorem increaseDelta_writes (p : Params) (st : Stream) (r : Run) :
    DataWrites p .ocb3 r.engine (increaseDelta p st r).engine := by
  rcases increaseDelta_cases p st r with ⟨_, h⟩ | ⟨hi, _, _, rfl, rfl, h⟩
  · rw [h]
    exact raise_writes p _ r _
  · rw [h]
    exact .single (.advance st hi)

theorem ocb3Block_writes (p : Params) (blk : Bytes) (r : Run) (hb : blk.length = p.blockBytes) :
    DataWrites p .ocb3 r.engine (ocb3Block p blk r).2.engine := by
  have h := increaseDelta_writes p .msg r
  unfold ocb3Block
  dsimp only
  split
  · exact h.tail (.checksum _ fun _ => hb.ge)
  · exact h.tail (.checksum _ fun hd => by simp [hd])
  · exact h

theorem blockOp_writes (p : Params) (blk : Bytes) (r : Run) (hb : blk.length = p.blockBytes) :
    DataWrites p r.engine.cfgMode r.engine (blockOp p blk r).2.engine := by
  unfold blockOp
  split
  · unfold ecbBlock
    split <;> exact .refl
  next hm =>
    rw [hm]
    exact .single .ctr
  next hm =>
    rw [hm]
    exact ocb3Block_writes p blk r hb

theorem release_writes (p : Params) (r : Run) (hb : r.engine.buf.length = p.blockBytes) :
    DataWrites p r.engine.cfgMode r.engine (release p r).engine :=
  andThen_writes (blockOp_writes p _ r hb) fun _ => buf_writes p _ _ []

theorem makeRoom_writes (p : Params) (r : Run) : DataWrites p r.engine.cfgMode r.engine (makeRoom p r).engine := by
  unfold makeRoom
  split
  next h =>
    rw [Bool.and_eq_true, beq_iff_eq] at h
    exact release_writes p r h.2
  next => exact .refl

theorem pushByte_writes (p : Params) (x : Byte) (r : Run) : DataWrites p r.engine.cfgMode r.engine (pushByte p x r).engine := by
  have hp := buf_writes p r.engine.cfgMode r.engine (r.engine.buf ++ [x])
  unfold pushByte
  dsimp only
  split
  next h =>
    rw [Bool.and_eq_true, beq_iff_eq] at h
    exact hp.trans (release_writes p _ h.2)
  next => exact hp

theorem feed_writes (p : Params) (r : Run) (x : Byte) : DataWrites p r.engine.cfgMode r.engine (feed p r x).engine :=
  andThen_writes .refl fun _ => andThen_writes (makeRoom_writes p r) fun _ => by
    rw [← (makeRoom_keeps p r).cfgMode]
    exact pushByte_writes p x _

theorem feedAll_writes (p : Params) (bs : Bytes) (r : Run) :
    DataWrites p r.engine.cfgMode r.engine (feedAll p bs r).engine := by
  induction bs generalizing r with
  | nil => exact .refl
  | cons x bs ih =>
    refine (feed_writes p r x).trans ?_
    rw [← (feed_keeps p r x).cfgMode]
    exact ih _

theorem aadFeed_writes (p : Params) (r : Run) (x : Byte) : DataWrites p .ocb3 r.engine (aadFeed p r x).engine := by
  refine andThen_writes .refl fun _ => ?_
  have hp : DataWrites p .ocb3 r.engine { r.engine with abuf := r.engine.abuf ++ [x] } := .single (.abuf _)
  dsimp only
  split
  · refine andThen_writes (hp.trans (increaseDelta_writes p .aad (r.setAbuf (r.engine.abuf ++ [x])))) fun _ => ?_
    exact .tail (.single (.authAcc _ (by simp))) (.abuf _)
  · exact hp

theorem aadFeedAll_writes (p : Params) (bs : Bytes) (r : Run) : DataWrites p .ocb3 r.engine (aadFeedAll p bs r).engine := by
  induction bs generalizing r with
  | nil => exact .refl
  | cons x bs ih => exact (aadFeed_writes p r x).trans (ih _)

theorem foldAad_writes (p : Params) (r : Run) : DataWrites p .ocb3 r.engine (foldAad p r).engine := by
  unfold foldAad
  split
  · exact .refl
  · exact .tail (.tail (.single .deltaAad) (.authAcc _ (by simp))) (.abuf _)

theorem foldMessage_writes (p : Params) (r : Run) : DataWrites p .ocb3 r.engine (foldMessage p r).engine := by
  unfold foldMessage
  split
  · exact .refl
  · exact .tail (.tail (.single (.delta _ (.inl rfl))) (.checksum _ fun _ => le_padOne_length _ _)) (.buf _)

theorem emitTag_writes (p : Params) (r : Run) : DataWrites p .ocb3 r.engine (emitTag p r).engine :=
  .single (.delta _ (.inr rfl))

theorem final_writes (p : Params) (r : Run) : DataWrites p r.engine.cfgMode r.engine (final p r).engine := by
  unfold final
  split
  · exact buf_writes p _ _ _
  · unfold finalEcbDecPad
    split
    · exact raise_writes p _ r _
    · dsimp only
      split
      · exact raise_writes p _ (r.ask p .dec r.engine.buf).2 _
      · exact buf_writes p _ _ _
  · unfold finalEcbNoPad ecbBlock
    split
    · exact .refl
    · split
      · dsimp only
        split <;> exact buf_writes p _ _ _
      · exact raise_writes p _ r _
  · unfold finalCtr
    split
    · exact .refl
    · exact buf_writes p _ _ _
  next _ _ hm =>
    rw [hm]
    exact ((foldAad_writes p r).trans (foldMessage_writes p _)).trans (emitTag_writes p _)

/-! ### What a command can do to the registers -/

/-- The commands that feed data to a configured session (41_engine.md R116 to R118). -/
def Instr.IsData : Instr → Prop
  | .updateAad _ | .update _ | .doFinal _ => True
  | .initCipher _ | .initModeEcb _ _ _ _ | .initModeCtr _ _ _ _ | .initModeOcb3 _ _ _ _ => False

/-- A data command either is refused and writes nothing, or makes writes of the mode's data path in an open session. -/
theorem dataRun_writes {i : Instr} (hi : Instr.IsData i) (p : Params) (din : Bytes) (e : Engine) :
    (Instr.run i p din e).engine = e ∨ e.session.Open ∧ DataWrites p e.cfgMode e (Instr.run i p din e).engine := by
  cases i <;> simp only [Instr.IsData] at hi
  case updateAad =>
    simp only [Instr.run, updateAadRun, Bool.and_eq_true, beq_iff_eq]
    split
    next h =>
      have ho := Session.Open.of_acceptsData h.1
      refine .inr ⟨ho, ?_⟩
      rw [h.2]
      refine andThen_writes (aadFeedAll_writes p din (Run.start e)) fun _ => .single (.session _ ?_)
      have hr : (aadFeedAll p din (Run.start e)).engine.session.Open :=
        (aadFeedAll_writes p din (Run.start e)).keep ho h.2 (fun _ _ ho _ hw _ => hw.session_open ho) ho
      split
      · simp [Session.Open]
      · exact hr
    next => exact .inl rfl
  case update =>
    simp only [Instr.run, updateRun]
    split
    next h =>
      exact .inr ⟨.of_acceptsData h, andThen_writes (feedAll_writes p din (Run.start e)) fun _ =>
        .single (.session _ (by simp [Session.Open]))⟩
    next => exact .inl rfl
  case doFinal =>
    simp only [Instr.run, doFinalRun]
    split
    next h =>
      have hf := feedAll_writes p din (Run.start e)
      refine .inr ⟨.of_acceptsData h, andThen_writes (andThen_writes hf fun _ => ?_) fun _ =>
        .single (.session _ (by simp [Session.Open]))⟩
      change DataWrites p (Run.start e).engine.cfgMode _ _
      rw [← (feedAll_keeps p din (Run.start e)).cfgMode]
      exact final_writes p _
    next => exact .inl rfl

/-- The registers of a bound key with no session (41_engine.md R111, R113). -/
def Engine.keyed (p : Params) (key : Option Bytes) : Engine := { Engine.reset p with session := .keyBound, key := key }

/-- The registers of a fresh session in a mode whose own registers are still to be set (41_engine.md R113). -/
def Engine.configured (p : Params) (key : Option Bytes) (mode : Mode) (dir : Dir) (pad : Bool) (taglen : BitVec 8) : Engine :=
  { Engine.reset p with
    session := .modeConfigured, key := key, cfgMode := mode, cfgDir := dir, cfgPad := pad, cfgTaglen := taglen }

/-- INIT_MODE in a session that is not UNINIT, where the mode's own part has failed or succeeded. -/
theorem initModeRun_engine (p : Params) (mode : Mode) (dir : Dir) (pad : Bool) (taglen : Nat) (init : Run → Run) (e : Engine)
    (h : e.session ≠ .uninit) :
    let r := init (Run.start (Engine.keyed p e.key))
    (initModeRun p mode dir pad taglen init e).engine =
      if r.err = .ok then
        { r.engine with
          session := .modeConfigured, cfgMode := mode, cfgDir := dir, cfgPad := pad, cfgTaglen := BitVec.ofNat 8 taglen }
      else r.engine := by
  dsimp only
  rw [initModeRun, if_neg h]
  change (Run.andThen (init (Run.start (Engine.keyed p e.key))) _).engine = _
  split
  next hr => rw [andThen_ok _ _ hr]; rfl
  next hr => rw [andThen_err _ _ hr]

/-- Everything one step can do to the registers. -/
inductive EngineStep (p : Params) (e : Engine) : Engine → Prop
  /-- Idle, an illegal word, or a command out of sequence (60_exceptions.md R276, R288). -/
  | same : EngineStep p e e
  /-- The reset input, or a key of a length that is not accepted (10_state.md R43, 41_engine.md R111). -/
  | reset : EngineStep p e (Engine.reset p)
  /-- INIT_CIPHER with an accepted key (41_engine.md R111). -/
  | bind (key : Bytes) (hk : key.length ∈ p.keyLengths) : EngineStep p e (Engine.keyed p (some key))
  /-- INIT_MODE with fields the mode refuses (41_engine.md R113). -/
  | refused (h : e.session ≠ .uninit) : EngineStep p e (Engine.keyed p e.key)
  /-- INIT_MODE.ECB (43_ecb.md R160). -/
  | ecb (h : e.session ≠ .uninit) (dir : Dir) (pad : Bool) :
    EngineStep p e (Engine.configured p e.key .ecb dir pad 0#8)
  /-- INIT_MODE.CTR (44_ctr.md R180). -/
  | ctr (h : e.session ≠ .uninit) (dir : Dir) (ctr : Bytes) (hc : ctr.length = p.blockBytes) :
    EngineStep p e { Engine.configured p e.key .ctr dir false 0#8 with ctr := ctr }
  /-- INIT_MODE.OCB3 (45_ocb3_nonce.md R200). -/
  | ocb3 (h : e.session ≠ .uninit) (dir : Dir) (taglen : Nat) (lstar delta : Bytes)
    (hb : p.blockBytes = 16 ∨ p.blockBytes = 32) (ht : 1 ≤ taglen ∧ taglen ≤ p.blockBytes)
    (hl : lstar.length = p.blockBytes) (hd : delta.length = p.blockBytes) :
    EngineStep p e
      { Engine.configured p e.key .ocb3 dir false (BitVec.ofNat 8 taglen) with
        lstar := lstar
        ldollar := double p.blockBytes lstar
        lt := [double p.blockBytes (double p.blockBytes lstar)]
        delta := delta }
  /-- A data command, whose writes are those of `dataRun_writes`. -/
  | data (i : Instr) (hi : Instr.IsData i) (din : Bytes) : EngineStep p e (Instr.run i p din e).engine

theorem initMode_engineStep_uninit {p : Params} {mode : Mode} {dir : Dir} {pad : Bool} {taglen : Nat} {init : Run → Run}
    {e : Engine} (h : e.session = .uninit) : EngineStep p e (initModeRun p mode dir pad taglen init e).engine := by
  rw [initModeRun, if_pos h]
  exact .same

theorem initEcb_engineStep (p : Params) (dir : Dir) (pad : Bool) (taglen ivlen : Nat) (e : Engine) :
    EngineStep p e (initModeRun p .ecb dir pad taglen (initEcb taglen ivlen) e).engine := by
  by_cases h : e.session = .uninit
  · exact initMode_engineStep_uninit h
  rw [initModeRun_engine _ _ _ _ _ _ _ h]
  by_cases hr : taglen ≠ 0 ∨ ivlen ≠ 0
  · simpa [initEcb, hr, raise_engine] using .refused h
  · obtain ⟨rfl, rfl⟩ : taglen = 0 ∧ ivlen = 0 := by omega
    exact .ecb h dir pad

theorem initCtr_engineStep (p : Params) (dir : Dir) (pad : Bool) (taglen : Nat) (iv : Bytes) (e : Engine) :
    EngineStep p e (initModeRun p .ctr dir pad taglen (initCtr p pad taglen iv) e).engine := by
  by_cases h : e.session = .uninit
  · exact initMode_engineStep_uninit h
  rw [initModeRun_engine _ _ _ _ _ _ _ h]
  by_cases hr : pad ∨ taglen ≠ 0 ∨ p.blockBytes < iv.length
  · simpa [initCtr, hr, raise_engine] using .refused h
  · rw [initCtr, if_neg hr]
    simp only [not_or, Bool.not_eq_true, not_not, Nat.not_lt] at hr
    obtain ⟨rfl, rfl, hl⟩ := hr
    exact .ctr h dir _ (by simp; omega)

theorem initOcb3_engineStep (p : Params) (dir : Dir) (pad : Bool) (taglen : Nat) (nonce : Bytes) (e : Engine) :
    EngineStep p e (initModeRun p .ocb3 dir pad taglen (initOcb3 p pad taglen nonce) e).engine := by
  by_cases h : e.session = .uninit
  · exact initMode_engineStep_uninit h
  rw [initModeRun_engine _ _ _ _ _ _ _ h]
  by_cases hr : refusesOcb3 p.blockBytes pad taglen nonce.length = true
  · simpa [initOcb3, hr, raise_engine] using .refused h
  · rw [initOcb3, if_neg hr]
    simp only [refusesOcb3, Bool.or_eq_true, Bool.not_eq_true', Bool.or_eq_false_iff, beq_iff_eq, beq_eq_false_iff_ne,
      decide_eq_true_eq, not_or, not_and_or, not_not, Nat.not_lt, Bool.not_eq_true] at hr
    obtain ⟨⟨⟨⟨ht, htb⟩, -⟩, rfl⟩, hb⟩ := hr
    exact .ocb3 h dir taglen _ _ (by omega) (by omega) (cipherEnc_length _ _ _) (cut_length _ _ _ _)

theorem initCipher_engineStep (p : Params) (key : Bytes) (e : Engine) : EngineStep p e (initCipherRun p key e).engine := by
  unfold initCipherRun
  dsimp only
  split
  next hk => exact .bind key hk
  next => exact .reset

theorem run_engineStep (i : Instr) (p : Params) (din : Bytes) (e : Engine) : EngineStep p e (Instr.run i p din e).engine := by
  cases i with
  | initCipher _ => exact initCipher_engineStep p din e
  | initModeEcb dir pad taglen _ => exact initEcb_engineStep p dir pad taglen _ e
  | initModeCtr dir pad taglen _ => exact initCtr_engineStep p dir pad taglen din e
  | initModeOcb3 dir pad taglen _ => exact initOcb3_engineStep p dir pad taglen din e
  | updateAad n => exact .data (.updateAad n) trivial din
  | update n => exact .data (.update n) trivial din
  | doFinal n => exact .data (.doFinal n) trivial din

/-- Every step is one of these on the registers, and keeps the parameters. -/
theorem step_engineStep {s t : State} (h : step s = .next t) :
    t.params = s.params ∧ EngineStep s.params s.engine t.engine := by
  rcases step_next s t h with rfl | ⟨rest, rfl⟩ | ⟨rest, rfl⟩ | ⟨i, din, rest, _, rfl⟩
  · exact ⟨rfl, .same⟩
  · exact ⟨rfl, .reset⟩
  · exact ⟨rfl, .same⟩
  · exact ⟨rfl, run_engineStep i s.params din s.engine⟩

/-- An invariant of the registers that every write of an open session keeps is kept by a data command. -/
theorem dataRun_keep {p : Params} {I : Engine → Prop} {i : Instr} (hi : Instr.IsData i) (din : Bytes) (e : Engine)
    (write : ∀ m a b, a.session.Open → a.cfgMode = m → DataWrite p m a b → I a → I b) (h : I e) :
    I (Instr.run i p din e).engine := by
  rcases dataRun_writes hi p din e with he | ⟨ho, hw⟩
  · rwa [he]
  · exact hw.keep ho rfl (write _) h

/-! ### KEY and STATE (10_state.md R22, R27) -/

theorem reset_keyInv (p : Params) : (Engine.reset p).KeyInv p := ⟨by simp, by simp⟩

/-- A key that stays bound outside UNINIT. -/
theorem Engine.KeyInv.of_key {p : Params} {e e' : Engine} (h : e.KeyInv p) (hs : e.session ≠ .uninit)
    (hs' : e'.session ≠ .uninit) (hk : e'.key = e.key) : e'.KeyInv p where
  bound := by simpa [hk, hs'] using mt h.bound.2 hs
  length k he := h.length k (hk ▸ he)

theorem EngineStep.keyInv {p : Params} {e e' : Engine} (he : EngineStep p e e') (h : e.KeyInv p) : e'.KeyInv p := by
  cases he with
  | same => exact h
  | reset => exact reset_keyInv _
  | bind key hk => exact ⟨by simp [Engine.keyed], by simpa [Engine.keyed] using hk⟩
  | data i hi din =>
    exact dataRun_keep hi din _ (fun _ _ _ ho _ hw h => h.of_key ho.1 (hw.session_open ho).1 hw.keeps.key) h
  | _ hs => exact h.of_key hs (by simp [Engine.keyed, Engine.configured]) rfl

/-- Settles O49: KEY and UNINIT change together, and a data command changes neither. -/
theorem stepKeepsKeyBinding : Obligations.StepKeepsKeyBinding := by
  intro s t h hst
  obtain ⟨hp, he⟩ := step_engineStep hst
  rw [hp]
  exact he.keyInv h

/-! ### The widths of the block registers (10_state.md R32 to R39) -/

theorem reset_widthInv (p : Params) : (Engine.reset p).WidthInv p := by constructor <;> simp

theorem tableEntry_length {b : Nat} {lt : List Bytes} (h : ∀ x ∈ lt, x.length = b) (k : Nat) :
    (tableEntry b lt k).length = b := by
  unfold tableEntry
  rw [List.getD_eq_getElem?_getD]
  cases hk : lt[k]? with
  | none => simp
  | some x => exact h x (List.mem_of_getElem? hk)

theorem growTable_entries_length {b : Nat} (n : Nat) {lt : List Bytes} (h : ∀ x ∈ lt, x.length = b) :
    ∀ x ∈ growTable b n lt, x.length = b := by
  induction n generalizing lt with
  | zero => exact h
  | succ n ih =>
    refine ih fun x hx => ?_
    rcases List.mem_append.1 hx with hx | hx
    · exact h x hx
    · rw [List.mem_singleton.1 hx, double_length]

theorem ntz_index_lt (x : BitVec 64) (h : x ≠ BitVec.allOnes 64) : ntz (x.toNat + 1) < 64 := by
  have hx := (x + 1#64).isLt
  rw [index_succ x h] at hx
  exact ntz_lt _ (by omega) hx

theorem Engine.WidthInv.advance {p : Params} {e : Engine} (h : e.WidthInv p) (st : Stream)
    (hi : e.index st ≠ BitVec.allOnes 64) : (e.advance p st).WidthInv p := by
  have hg := growTable_entries_length (ntz ((e.index st).toNat + 1) + 1 - e.lt.length) h.entries
  have ht := tableEntry_length hg (ntz ((e.index st).toNat + 1))
  have hn : (growTo p.blockBytes (ntz ((e.index st).toNat + 1)) e.lt).length ≤ 64 := by
    have := ntz_index_lt _ hi
    have := h.lcount
    rw [growTo_length]
    omega
  cases st with
  | msg => exact { h with delta := by simp [Engine.advance, growTo, h.delta, ht], entries := hg, lcount := hn }
  | aad => exact { h with deltaAad := by simp [Engine.advance, growTo, h.deltaAad, ht], entries := hg, lcount := hn }

theorem DataWrite.widthInv {p : Params} {m : Mode} {e e' : Engine} (hw : DataWrite p m e e') (h : e.WidthInv p) :
    e'.WidthInv p := by
  cases hw with
  | session x hx => exact { h with }
  | buf x => exact { h with }
  | abuf x => exact { h with }
  | ctr => exact { h with ctr := by simp [h.ctr] }
  | advance st hi => exact h.advance st hi
  | delta x hx =>
    have hl : x.length = p.blockBytes := by
      rcases hx with rfl | rfl
      · exact h.lstar
      · exact h.ldollar
    exact { h with delta := by simp [h.delta, hl] }
  | deltaAad => exact { h with deltaAad := by simp [h.deltaAad, h.lstar] }
  | checksum x hx => exact { h with checksum := by simp [h.checksum, hx h.delta] }
  | authAcc x hx => exact { h with authAcc := by simp [h.authAcc, hx] }

theorem EngineStep.widthInv {p : Params} {e e' : Engine} (he : EngineStep p e e') (h : e.WidthInv p) : e'.WidthInv p := by
  have hr := reset_widthInv p
  cases he with
  | same => exact h
  | ctr _ _ _ hc => exact { hr with ctr := hc }
  | ocb3 _ _ _ _ _ _ _ hl hd =>
    exact { hr with lstar := hl, ldollar := double_length _ _, delta := hd, entries := by simp, lcount := by simp }
  | data i hi din => exact dataRun_keep hi din _ (fun _ _ _ _ _ hw h => hw.widthInv h) h
  | _ => exact { hr with }

/-- Settles O50: a fresh session's registers have the widths, and every write of the data path keeps them. -/
theorem stepKeepsRegisterWidths : Obligations.StepKeepsRegisterWidths := by
  intro s t h hst
  obtain ⟨hp, he⟩ := step_engineStep hst
  rw [hp]
  exact he.widthInv h

/-! ### The configuration (10_state.md R25, R26, 41_engine.md R112, R114) -/

theorem reset_configInv (p : Params) : (Engine.reset p).ConfigInv p := by constructor <;> simp [Engine.reset, zeros]

/-- Outside a session the registers of a cleared session meet the invariant. -/
theorem keyed_configInv (p : Params) (key : Option Bytes) : (Engine.keyed p key).ConfigInv p :=
  { reset_configInv p with noSession := fun _ => rfl }

theorem DataWrite.configInv {p : Params} {m : Mode} {e e' : Engine} (ho : e.session.Open) (hm : e.cfgMode = m)
    (hw : DataWrite p m e e') (h : e.ConfigInv p) : e'.ConfigInv p := by
  have hn (hs : e'.session = .uninit ∨ e'.session = .keyBound) :
      e' = { Engine.reset p with session := e'.session, key := e'.key } := by
    obtain ⟨h0, h1⟩ := hw.session_open ho
    exact absurd hs (by simp [h0, h1])
  cases hw with
  | session x hx => exact { h with noSession := hn }
  | buf x => exact { h with noSession := hn }
  | ctr => exact { h with noSession := hn, ctrElse := fun hc => absurd hm hc }
  | advance st hi =>
    cases st <;> exact { h with noSession := hn, ocb3Else := fun hc => absurd hm hc }
  | _ => exact { h with noSession := hn, ocb3Else := fun hc => absurd hm hc }

theorem EngineStep.configInv {p : Params} {e e' : Engine} (hwf : p.Wf) (he : EngineStep p e e') (h : e.ConfigInv p) :
    e'.ConfigInv p := by
  have hr := reset_configInv p
  cases he with
  | same => exact h
  | reset => exact hr
  | bind key _ => exact keyed_configInv _ _
  | refused _ => exact keyed_configInv _ _
  | ecb _ dir pad => exact { hr with padOnlyEcb := fun _ => rfl, noSession := by simp [Engine.configured] }
  | ctr _ dir ctr hc => constructor <;> simp [Engine.configured]
  | ocb3 _ dir taglen lstar delta hb ht hl hd =>
    have hb := hwf.2
    have htn : (BitVec.ofNat 8 taglen).toNat = taglen := Nat.mod_eq_of_lt (by omega)
    constructor <;> simp [Engine.configured, htn, ht]
  | data i hi din => exact dataRun_keep hi din _ (fun _ _ _ ho hm hw h => hw.configInv ho hm h) h

/-- Settles O52: INIT_MODE sets a consistent configuration, and the data path of a mode writes that mode's registers only. -/
theorem stepKeepsConfiguration : Obligations.StepKeepsConfiguration := by
  intro s t hwf h hst
  obtain ⟨hp, he⟩ := step_engineStep hst
  rw [hp]
  exact he.configInv hwf h

/-! ### The doubling cache (10_state.md R41, R42) -/

theorem Engine.TableInv.of_mode {p : Params} {e : Engine} (h : e.cfgMode ≠ .ocb3) : e.TableInv p := by
  constructor <;> exact fun hm => absurd hm h

@[simp] theorem masks_length (b : Nat) (lstar : Bytes) (n : Nat) : (masks b lstar n).length = n := by simp [masks]

theorem advance_lt (p : Params) (st : Stream) (e : Engine) :
    (e.advance p st).lt = growTo p.blockBytes (ntz ((e.index st).toNat + 1)) e.lt := by
  cases st <;> rfl

/-- The larger block index after an update. -/
theorem advance_max_index (p : Params) (st : Stream) (e : Engine) (hi : e.index st ≠ BitVec.allOnes 64) :
    max (e.advance p st).midx.toNat (e.advance p st).aidx.toNat =
      max (max e.midx.toNat e.aidx.toNat) ((e.index st).toNat + 1) := by
  have hs := index_succ _ hi
  cases st <;> simp only [Engine.advance, Engine.index] at hs ⊢ <;> omega

theorem index_le_max (st : Stream) (e : Engine) : (e.index st).toNat ≤ max e.midx.toNat e.aidx.toNat := by
  cases st
  · exact le_max_left _ _
  · exact le_max_right _ _

/-- What the update's index needs is all that the table grows by. -/
theorem Engine.TableInv.advance {p : Params} {e : Engine} (h : e.TableInv p) (st : Stream) (hm : e.cfgMode = .ocb3)
    (hi : e.index st ≠ BitVec.allOnes 64) : (e.advance p st).TableInv p := by
  have hk : (e.advance p st).lstar = e.lstar ∧ (e.advance p st).ldollar = e.ldollar := by cases st <;> exact ⟨rfl, rfl⟩
  obtain ⟨hlstar, hldollar⟩ := hk
  have hmax := advance_max_index p st e hi
  have hlen : (e.advance p st).lt.length = max e.lt.length (ntz ((e.index st).toNat + 1) + 1) := by
    rw [advance_lt, growTo_length]
  have hne := h.nonempty hm
  constructor <;> intro _
  case size => exact h.size hm
  case ldollar => rw [hlstar, hldollar, h.ldollar hm]
  case entries =>
    rw [hlen, advance_lt, hlstar, h.entries hm, growTo_masks _ _ _ _ hne, masks_length]
  case nonempty => omega
  case covers =>
    rw [hmax, hlen]
    intro i h1 h2
    rcases le_or_gt i (max e.midx.toNat e.aidx.toNat) with hle | hgt
    · have := h.covers hm i h1 hle
      omega
    · have hle := index_le_max st e
      obtain rfl : i = (e.index st).toNat + 1 := by omega
      omega
  case exact =>
    rw [hmax, hlen]
    rcases le_or_gt (ntz ((e.index st).toNat + 1) + 1) e.lt.length with hle | hgt
    · rw [max_eq_left hle]
      exact (h.exact hm).imp_right fun ⟨i, h1, h2, h3⟩ => ⟨i, h1, le_max_of_le_left h2, h3⟩
    · exact .inr ⟨_, by omega, le_max_right _ _, max_eq_right hgt.le⟩

theorem DataWrite.tableInv {p : Params} {m : Mode} {e e' : Engine} (hm : e.cfgMode = m) (hw : DataWrite p m e e')
    (h : e.TableInv p) : e'.TableInv p := by
  cases hw with
  | advance st hi => exact h.advance st hm hi
  | _ => exact { h with }

theorem EngineStep.tableInv {p : Params} {e e' : Engine} (he : EngineStep p e e') (h : e.TableInv p) : e'.TableInv p := by
  cases he with
  | same => exact h
  | ocb3 _ _ taglen lstar _ hb _ _ _ =>
    constructor <;> intro _
    case size => exact hb
    case covers =>
      intro i h1 h2
      exact absurd (h1.trans h2) (by simp [Engine.configured])
    case exact => exact .inl rfl
    all_goals simp [masks, maskL]
  | data i hi din => exact dataRun_keep hi din _ (fun _ _ _ _ hm hw h => hw.tableInv hm h) h
  | _ => exact .of_mode (by simp [Engine.keyed, Engine.configured])

/-- Settles O53: INIT_MODE starts the table with one entry, and each index update grows it to what the new index needs. -/
theorem stepKeepsDoublingTable : Obligations.StepKeepsDoublingTable := by
  intro s t h hst
  obtain ⟨hp, he⟩ := step_engineStep hst
  rw [hp]
  exact he.tableInv h

/-! ### The table within a session (10_state.md R37) -/

/-- A data command writes no configuration, no key, and only adds to the table. -/
theorem dataRun_keeps {i : Instr} (hi : Instr.IsData i) (p : Params) (din : Bytes) (e : Engine) :
    e.Keeps (Instr.run i p din e).engine :=
  dataRun_keep hi din e (fun _ _ _ _ _ hw h => h.trans hw.keeps) (.refl e)

/-- Settles O37: a data command on its data-in only appends to the table. -/
theorem tableEntriesAreImmutable : Obligations.TableEntriesAreImmutable := by
  intro s t din rest i hin hi hst
  have hdata : Instr.IsData i ∧ din.length = i.dataLength := by rcases hi with rfl | rfl | rfl <;> exact ⟨trivial, rfl⟩
  rw [exec_supplied i s din rest hdata.2 hin, Host.Outcome.next.injEq] at hst
  rw [← hst]
  exact (dataRun_keeps hdata.1 s.params din s.engine).lt

/-! ### The buffers (10_state.md R30, R31, 41_engine.md R127) -/

theorem reset_bufferInv {p : Params} (hwf : p.Wf) : (Engine.reset p).BufferInv p := by
  have hb := hwf.1
  constructor <;> simp <;> omega

/-- A run whose registers are within the buffers' bounds, failed exactly when an error has ended it. -/
structure Run.Buffered (p : Params) (r : Run) : Prop where
  inv : r.engine.BufferInv p
  failed : r.err = .ok ↔ r.engine.session ≠ .failed

theorem raise_buffered {p : Params} {r : Run} {c : Err} (hc : c = .illegalLength ∨ c = .invalidPadding)
    (hb : r.engine.buf.length ≤ p.blockBytes) (ha : r.engine.abuf.length ≤ p.blockBytes) : (r.raise c).Buffered p := by
  constructor
  · rw [raise_engine_data r c hc]
    exact ⟨hb, by simp, ha, by simp⟩
  · rw [raise_err, raise_engine_data r c hc]
    rcases hc with rfl | rfl <;> simp

theorem Run.Buffered.andThen {p : Params} {r : Run} {k : Run → Run} (h : r.Buffered p)
    (hk : r.err = .ok → (k r).Buffered p) : (r.andThen k).Buffered p := by
  by_cases hr : r.err = .ok
  · rw [andThen_ok r k hr]
    exact hk hr
  · rwa [andThen_err r k hr]

/-- Two runs alike in what the buffers' bounds rest on. -/
structure Run.Alike (r r' : Run) : Prop where
  err : r'.err = r.err
  session : r'.engine.session = r.engine.session
  buf : r'.engine.buf = r.engine.buf
  abuf : r'.engine.abuf = r.engine.abuf
  holdBack : r'.engine.holdBack = r.engine.holdBack

theorem increaseDelta_alike (p : Params) (st : Stream) (r : Run) :
    increaseDelta p st r = r.raise .illegalLength ∨ r.Alike (increaseDelta p st r) := by
  rcases increaseDelta_cases p st r with ⟨_, h⟩ | ⟨_, _, _, _, _, h⟩
  · exact .inl h
  · refine .inr ?_
    rw [h]
    cases st <;> exact ⟨rfl, rfl, rfl, rfl, rfl⟩

theorem ocb3Block_alike (p : Params) (blk : Bytes) (r : Run) (hr : r.err = .ok) :
    (ocb3Block p blk r).2 = r.raise .illegalLength ∨ r.Alike (ocb3Block p blk r).2 := by
  unfold ocb3Block
  rcases increaseDelta_alike p .msg r with h | ⟨he, hs, hb, ha, hh⟩
  · exact .inl (by simp [h])
  · refine .inr ?_
    dsimp only
    rw [he, hr]
    cases (increaseDelta p .msg r).engine.cfgDir <;> exact ⟨he, hs, hb, ha, hh⟩

theorem blockOp_alike (p : Params) (blk : Bytes) (r : Run) (hr : r.err = .ok) :
    (blockOp p blk r).2 = r.raise .illegalLength ∨ r.Alike (blockOp p blk r).2 := by
  unfold blockOp
  split
  · refine .inr ?_
    unfold ecbBlock
    split <;> exact ⟨rfl, rfl, rfl, rfl, rfl⟩
  · exact .inr ⟨rfl, rfl, rfl, rfl, rfl⟩
  · exact ocb3Block_alike p blk r hr

/-- A release fails and keeps the block in BUF, or empties BUF. -/
theorem release_alike (p : Params) (r : Run) (hr : r.err = .ok) :
    release p r = r.raise .illegalLength ∨ (r.setBuf []).Alike (release p r) := by
  unfold release
  dsimp only
  rcases blockOp_alike p r.engine.buf r hr with h | ⟨he, hs, _, ha, hh⟩
  · exact .inl (by rw [h, andThen_err _ _ (by simp)])
  · rw [andThen_ok _ _ (he.trans hr)]
    exact .inr ⟨he, hs, rfl, ha, hh⟩

/-- A fold fails and keeps the block in ABUF, or empties ABUF. -/
theorem foldAadBlock_alike (p : Params) (blk : Bytes) (r : Run) (hr : r.err = .ok) :
    foldAadBlock p blk r = (r.setAbuf blk).raise .illegalLength ∨ (r.setAbuf []).Alike (foldAadBlock p blk r) := by
  unfold foldAadBlock
  rcases increaseDelta_alike p .aad (r.setAbuf blk) with h | ⟨he, hs, hb, _, hh⟩
  · exact .inl (by rw [h, andThen_err _ _ (by simp)])
  · rw [andThen_ok _ _ (he.trans hr)]
    exact .inr ⟨he, hs, hb, rfl, hh⟩

theorem foldAad_alike (p : Params) (r : Run) : (r.setAbuf []).Alike (foldAad p r) := by
  unfold foldAad
  split
  next h =>
    rw [setAbuf_nil r h]
    exact ⟨rfl, rfl, rfl, rfl, rfl⟩
  next => exact ⟨rfl, rfl, rfl, rfl, rfl⟩

theorem foldMessage_alike (p : Params) (r : Run) : (r.setBuf []).Alike (foldMessage p r) := by
  unfold foldMessage
  split
  next h =>
    rw [setBuf_nil r h]
    exact ⟨rfl, rfl, rfl, rfl, rfl⟩
  next => exact ⟨rfl, rfl, rfl, rfl, rfl⟩

/-- The bounds pass from a run to one alike. -/
theorem Run.Buffered.of_alike {p : Params} {r r' : Run} (h : r.Buffered p) (ha : r.Alike r') : r'.Buffered p := by
  obtain ⟨he, hs, hb, ha, hh⟩ := ha
  obtain ⟨⟨h1, h2, h3, h4⟩, h5⟩ := h
  constructor
  · exact ⟨by rwa [hb], by rwa [hb, hs, hh], by rwa [ha], by rwa [ha, hs]⟩
  · rwa [he, hs]

/-- A data command that a session accepts ends within the bounds, whatever session it ends in. -/
theorem Run.Buffered.bufferInv {p : Params} {r : Run} (h : r.Buffered p) (x : Engine → Session) :
    (r.andThen fun r => r.modify fun e => { e with session := x e }).engine.BufferInv p := by
  by_cases hr : r.err = .ok
  · rw [andThen_ok _ _ hr]
    have hs := h.failed.1 hr
    exact { h.inv with bufEager := fun _ => h.inv.bufEager hs, abufEager := fun _ => h.inv.abufEager hs }
  · rw [andThen_err _ _ hr]
    exact h.inv

section
variable {p : Params} (h1 : 1 ≤ p.blockBytes)
include h1

theorem Run.Buffered.setBuf_nil {r : Run} (h : r.Buffered p) : (r.setBuf []).Buffered p :=
  ⟨{ h.inv with buf := Nat.zero_le _, bufEager := fun _ _ => h1 }, h.failed⟩

theorem Run.Buffered.setAbuf_nil {r : Run} (h : r.Buffered p) : (r.setAbuf []).Buffered p :=
  ⟨{ h.inv with abuf := Nat.zero_le _, abufEager := fun _ => h1 }, h.failed⟩

theorem release_buffered {r : Run} (hr : r.err = .ok) (hs : r.engine.session ≠ .failed)
    (hb : r.engine.buf.length ≤ p.blockBytes) (ha : r.engine.abuf.length < p.blockBytes) : (release p r).Buffered p := by
  rcases release_alike p r hr with h | h
  · rw [h]
    exact raise_buffered (.inl rfl) hb ha.le
  · exact Run.Buffered.of_alike (r := r.setBuf []) ⟨⟨Nat.zero_le _, fun _ _ => h1, ha.le, fun _ => ha⟩, by simp [hr, hs]⟩ h

/-- After the hold-back half of `Feed` there is room for a byte. -/
theorem makeRoom_buffered {r : Run} (h : r.Buffered p) (hr : r.err = .ok) :
    (makeRoom p r).Buffered p ∧ ((makeRoom p r).err = .ok → (makeRoom p r).engine.buf.length < p.blockBytes) := by
  have hs := h.failed.1 hr
  unfold makeRoom
  split
  next hc =>
    refine ⟨release_buffered h1 hr hs h.inv.buf (h.inv.abufEager hs), fun he => ?_⟩
    rw [release_buf p r he]
    exact h1
  next hc =>
    refine ⟨h, fun _ => ?_⟩
    have hb := h.inv.buf
    have hbe := h.inv.bufEager hs
    rw [Bool.and_eq_true, beq_iff_eq, not_and] at hc
    cases hh : r.engine.holdBack
    · exact hbe hh
    · exact lt_of_le_of_ne hb (hc hh)

theorem pushByte_buffered {r : Run} (h : r.Buffered p) (hr : r.err = .ok) (hl : r.engine.buf.length < p.blockBytes) (x : Byte) :
    (pushByte p x r).Buffered p := by
  have hs := h.failed.1 hr
  have ha := h.inv.abufEager hs
  have hb : (r.engine.buf ++ [x]).length ≤ p.blockBytes := by simpa using hl
  unfold pushByte
  dsimp only
  split
  next hc => exact release_buffered h1 hr hs hb ha
  next hc =>
    rw [Bool.and_eq_true, beq_iff_eq, not_and] at hc
    exact ⟨⟨hb, fun _ hh => lt_of_le_of_ne hb (hc (congrArg not hh)), ha.le, fun _ => ha⟩, h.failed⟩

theorem feed_buffered {r : Run} (h : r.Buffered p) (x : Byte) : (feed p r x).Buffered p :=
  h.andThen fun hr =>
    have hm := makeRoom_buffered h1 h hr
    hm.1.andThen fun he => pushByte_buffered h1 hm.1 he (hm.2 he) x

theorem feedAll_buffered {r : Run} (h : r.Buffered p) (bs : Bytes) : (feedAll p bs r).Buffered p := by
  induction bs generalizing r with
  | nil => exact h
  | cons x bs ih => exact ih (feed_buffered h1 h x)

theorem aadFeed_buffered {r : Run} (h : r.Buffered p) (x : Byte) : (aadFeed p r x).Buffered p := by
  refine h.andThen fun hr => ?_
  have hs := h.failed.1 hr
  have ha : (r.engine.abuf ++ [x]).length ≤ p.blockBytes := by simpa using h.inv.abufEager hs
  dsimp only
  split
  next hc =>
    change (foldAadBlock p (r.engine.abuf ++ [x]) r).Buffered p
    rcases foldAadBlock_alike p (r.engine.abuf ++ [x]) r hr with hf | hf
    · rw [hf]
      exact raise_buffered (.inl rfl) h.inv.buf ha
    · exact (h.setAbuf_nil h1).of_alike hf
  next hc => exact ⟨{ h.inv with abuf := ha, abufEager := fun _ => lt_of_le_of_ne ha hc }, h.failed⟩

theorem aadFeedAll_buffered {r : Run} (h : r.Buffered p) (bs : Bytes) : (aadFeedAll p bs r).Buffered p := by
  induction bs generalizing r with
  | nil => exact h
  | cons x bs ih => exact ih (aadFeed_buffered h1 h x)

theorem finalOcb3_buffered {r : Run} (h : r.Buffered p) : (finalOcb3 p r).Buffered p := by
  have ha := (h.setAbuf_nil h1).of_alike (foldAad_alike p r)
  have hm := (ha.setBuf_nil h1).of_alike (foldMessage_alike p _)
  exact hm.of_alike ⟨rfl, rfl, rfl, rfl, rfl⟩

theorem final_buffered {r : Run} (h : r.Buffered p) : (final p r).Buffered p := by
  have emptied {r' : Run} (ha : (r.setBuf []).Alike r') : r'.Buffered p := (h.setBuf_nil h1).of_alike ha
  have fails {c : Err} (hc : c = .illegalLength ∨ c = .invalidPadding) : (r.raise c).Buffered p :=
    raise_buffered hc h.inv.buf h.inv.abuf
  unfold final
  split
  · exact emptied ⟨rfl, rfl, rfl, rfl, rfl⟩
  · unfold finalEcbDecPad
    split
    · exact fails (.inl rfl)
    · dsimp only
      split
      · exact raise_buffered (r := (r.ask p .dec r.engine.buf).2) (.inr rfl) h.inv.buf h.inv.abuf
      · exact emptied ⟨rfl, rfl, rfl, rfl, rfl⟩
  · unfold finalEcbNoPad ecbBlock
    split
    · exact h
    · split
      · dsimp only
        split <;> exact emptied ⟨rfl, rfl, rfl, rfl, rfl⟩
      · exact fails (.inl rfl)
  · unfold finalCtr
    split
    · exact h
    · exact emptied ⟨rfl, rfl, rfl, rfl, rfl⟩
  · exact finalOcb3_buffered h1 h

theorem dataRun_bufferInv {i : Instr} (hi : Instr.IsData i) (din : Bytes) {e : Engine} (h : e.BufferInv p) :
    (Instr.run i p din e).engine.BufferInv p := by
  have start (ha : e.session.acceptsData = true) : (Run.start e).Buffered p :=
    ⟨h, by cases hs : e.session <;> simp_all [Session.acceptsData]⟩
  cases i <;> simp only [Instr.IsData] at hi
  case updateAad =>
    simp only [Instr.run, updateAadRun, Bool.and_eq_true]
    split
    next ha => exact (aadFeedAll_buffered h1 (start ha.1) din).bufferInv _
    next => exact h
  case update =>
    simp only [Instr.run, updateRun]
    split
    next ha => exact (feedAll_buffered h1 (start ha) din).bufferInv _
    next => exact h
  case doFinal =>
    simp only [Instr.run, doFinalRun]
    split
    next ha =>
      exact ((feedAll_buffered h1 (start ha) din).andThen fun _ =>
        final_buffered h1 (feedAll_buffered h1 (start ha) din)).bufferInv _
    next => exact h

end

theorem EngineStep.bufferInv {p : Params} {e e' : Engine} (hwf : p.Wf) (he : EngineStep p e e') (h : e.BufferInv p) :
    e'.BufferInv p := by
  have hr := reset_bufferInv hwf
  cases he with
  | same => exact h
  | data i hi din => exact dataRun_bufferInv hwf.1 hi din h
  | _ =>
    exact { hr with bufEager := fun _ _ => hwf.1, abufEager := fun _ => hwf.1 }

/-- Settles O51: INIT_MODE empties both buffers, and `Feed`, `AadFeed` and `Final` keep their bounds byte by byte. -/
theorem stepKeepsBufferBounds : Obligations.StepKeepsBufferBounds := by
  intro s t hwf h hst
  obtain ⟨hp, he⟩ := step_engineStep hst
  rw [hp]
  exact he.bufferInv hwf h

/-- Settles O48: the base case of each of the five invariants. -/
theorem invariantsHoldAfterReset : Obligations.InvariantsHoldAfterReset := by
  intro p hwf
  exact ⟨reset_keyInv p, reset_widthInv p, reset_bufferInv hwf, reset_configInv p, .of_mode (by simp)⟩

/-! ### KEY acts only through the cipher (10_state.md R27) -/

/-- The registers with the key renamed. -/
def Engine.rekey (σ : Bytes → Bytes) (e : Engine) : Engine := { e with key := some (σ e.boundKey) }

/-- A command in progress with the key renamed, in the registers and in the requests so far. -/
def Run.rekey (σ : Bytes → Bytes) (r : Run) : Run :=
  { r with engine := r.engine.rekey σ, requests := r.requests.map fun q => { q with key := σ q.key } }

/-- The cipher answers alike under a key and its new name. -/
structure AnswersAlike (p : Params) (σ : Bytes → Bytes) : Prop where
  enc : ∀ key blk, cipherEnc p (σ key) blk = cipherEnc p key blk
  dec : ∀ key blk, cipherDec p (σ key) blk = cipherDec p key blk

@[simp] theorem rekey_cfgMode (σ : Bytes → Bytes) (r : Run) : (r.rekey σ).engine.cfgMode = r.engine.cfgMode := rfl
@[simp] theorem rekey_cfgDir (σ : Bytes → Bytes) (r : Run) : (r.rekey σ).engine.cfgDir = r.engine.cfgDir := rfl
@[simp] theorem rekey_cfgPad (σ : Bytes → Bytes) (r : Run) : (r.rekey σ).engine.cfgPad = r.engine.cfgPad := rfl
@[simp] theorem rekey_holdBack (σ : Bytes → Bytes) (r : Run) : (r.rekey σ).engine.holdBack = r.engine.holdBack := rfl
@[simp] theorem rekey_buf (σ : Bytes → Bytes) (r : Run) : (r.rekey σ).engine.buf = r.engine.buf := rfl
@[simp] theorem rekey_abuf (σ : Bytes → Bytes) (r : Run) : (r.rekey σ).engine.abuf = r.engine.abuf := rfl

section
variable {p : Params} {σ : Bytes → Bytes} (h : AnswersAlike p σ)

theorem raise_rekey (r : Run) (c : Err) : (r.rekey σ).raise c = (r.raise c).rekey σ := by cases c <;> rfl

theorem modify_rekey {f : Engine → Engine} (hf : ∀ e, f (e.rekey σ) = (f e).rekey σ) (r : Run) :
    (r.rekey σ).modify f = (r.modify f).rekey σ := by
  change ({ r.rekey σ with engine := f (r.engine.rekey σ) } : Run) = _
  rw [hf]
  rfl

theorem ite_rekey {c : Prop} [Decidable c] {a a' b b' : Run} (ha : a' = a.rekey σ) (hb : b' = b.rekey σ) :
    (if c then a' else b') = (if c then a else b).rekey σ := by
  rw [ha, hb]
  exact (apply_ite (Run.rekey σ) c a b).symm

theorem andThen_rekey {r : Run} {k : Run → Run} (hk : k (r.rekey σ) = (k r).rekey σ) :
    (r.rekey σ).andThen k = (r.andThen k).rekey σ := by
  by_cases hr : r.err = .ok
  · rw [andThen_ok r k hr, ← hk, andThen_ok (r.rekey σ) k hr]
  · rw [andThen_err r k hr, andThen_err (r.rekey σ) k hr]

theorem increaseDelta_rekey (st : Stream) (r : Run) : increaseDelta p st (r.rekey σ) = (increaseDelta p st r).rekey σ := by
  unfold increaseDelta
  by_cases hi : r.engine.index st = BitVec.allOnes 64
  · rw [if_pos hi, ← raise_rekey]
    exact if_pos (by cases st <;> exact hi)
  · rw [if_neg hi]
    cases st <;> exact if_neg hi

theorem initModeRun_rekey {mode : Mode} {dir : Dir} {pad : Bool} {taglen : Nat} {init : Run → Run}
    (hi : ∀ r : Run, init (r.rekey σ) = (init r).rekey σ) (e : Engine) :
    initModeRun p mode dir pad taglen init (e.rekey σ) = (initModeRun p mode dir pad taglen init e).rekey σ := by
  unfold initModeRun
  change (if e.session = .uninit then _ else
    Run.andThen (init (Run.rekey σ (Run.start { e.clearSession p with session := .keyBound }))) _) = _
  split
  · rfl
  · rw [hi]
    exact andThen_rekey rfl

include h

/-- A request under the new name has the same answer. -/
theorem ask_rekey (op : CipherOp) (blk : Bytes) (r : Run) :
    (r.rekey σ).ask p op blk = ((r.ask p op blk).1, (r.ask p op blk).2.rekey σ) := by
  cases op <;>
    simp [Run.ask, cipherAnswer, Run.rekey, Engine.rekey, Engine.boundKey, h.enc, h.dec]

theorem ecbBlock_rekey (blk : Bytes) (r : Run) :
    ecbBlock p blk (r.rekey σ) = ((ecbBlock p blk r).1, (ecbBlock p blk r).2.rekey σ) := by
  unfold ecbBlock
  rw [rekey_cfgDir]
  cases r.engine.cfgDir <;> exact ask_rekey h _ blk r

theorem ctrBlock_rekey (blk : Bytes) (r : Run) :
    ctrBlock p blk (r.rekey σ) = ((ctrBlock p blk r).1, (ctrBlock p blk r).2.rekey σ) := by
  unfold ctrBlock
  rw [ask_rekey h]
  rfl

theorem ocb3Block_rekey (blk : Bytes) (r : Run) :
    ocb3Block p blk (r.rekey σ) = ((ocb3Block p blk r).1, (ocb3Block p blk r).2.rekey σ) := by
  unfold ocb3Block
  dsimp only
  rw [increaseDelta_rekey]
  generalize increaseDelta p .msg r = r
  simp only [ask_rekey h]
  obtain ⟨e, dout, asked, err⟩ := r
  obtain ⟨_, _, dir, _⟩ := e
  cases err <;> cases dir <;> rfl

theorem blockOp_rekey (blk : Bytes) (r : Run) :
    blockOp p blk (r.rekey σ) = ((blockOp p blk r).1, (blockOp p blk r).2.rekey σ) := by
  unfold blockOp
  rw [rekey_cfgMode]
  cases r.engine.cfgMode
  · exact ecbBlock_rekey h blk r
  · exact ctrBlock_rekey h blk r
  · exact ocb3Block_rekey h blk r

theorem release_rekey (r : Run) : release p (r.rekey σ) = (release p r).rekey σ := by
  unfold release
  rw [rekey_buf, blockOp_rekey h]
  exact andThen_rekey rfl

theorem makeRoom_rekey (r : Run) : makeRoom p (r.rekey σ) = (makeRoom p r).rekey σ := by
  unfold makeRoom
  rw [rekey_holdBack, rekey_buf]
  exact ite_rekey (release_rekey h r) rfl

theorem pushByte_rekey (x : Byte) (r : Run) : pushByte p x (r.rekey σ) = (pushByte p x r).rekey σ := by
  unfold pushByte
  dsimp only
  rw [modify_rekey, rekey_holdBack, rekey_buf]
  · exact ite_rekey (release_rekey h _) rfl
  · exact fun _ => rfl

theorem feed_rekey (r : Run) (x : Byte) : feed p (r.rekey σ) x = (feed p r x).rekey σ := by
  refine andThen_rekey ?_
  rw [makeRoom_rekey h]
  exact andThen_rekey (pushByte_rekey h x _)

theorem feedAll_rekey (bs : Bytes) (r : Run) : feedAll p bs (r.rekey σ) = (feedAll p bs r).rekey σ := by
  induction bs generalizing r with
  | nil => rfl
  | cons x bs ih =>
    change feedAll p bs (feed p (r.rekey σ) x) = _
    rw [feed_rekey h]
    exact ih _

theorem foldAadBlock_rekey (blk : Bytes) (r : Run) : foldAadBlock p blk (r.rekey σ) = (foldAadBlock p blk r).rekey σ := by
  unfold foldAadBlock
  change Run.andThen (increaseDelta p .aad (Run.rekey σ (r.setAbuf blk))) _ = _
  rw [increaseDelta_rekey]
  refine andThen_rekey ?_
  rw [ask_rekey h]
  rfl

theorem aadFeed_rekey (r : Run) (x : Byte) : aadFeed p (r.rekey σ) x = (aadFeed p r x).rekey σ := by
  refine andThen_rekey ?_
  change (if (r.engine.abuf ++ [x]).length = p.blockBytes then foldAadBlock p (r.engine.abuf ++ [x]) (r.rekey σ)
    else (r.setAbuf (r.engine.abuf ++ [x])).rekey σ) = _
  exact ite_rekey (foldAadBlock_rekey h _ r) rfl

theorem aadFeedAll_rekey (bs : Bytes) (r : Run) : aadFeedAll p bs (r.rekey σ) = (aadFeedAll p bs r).rekey σ := by
  induction bs generalizing r with
  | nil => rfl
  | cons x bs ih =>
    change aadFeedAll p bs (aadFeed p (r.rekey σ) x) = _
    rw [aadFeed_rekey h]
    exact ih _

theorem finalEcbEncPad_rekey (r : Run) : finalEcbEncPad p (r.rekey σ) = (finalEcbEncPad p r).rekey σ := by
  unfold finalEcbEncPad
  rw [ask_rekey h]
  rfl

theorem finalEcbDecPad_rekey (r : Run) : finalEcbDecPad p (r.rekey σ) = (finalEcbDecPad p r).rekey σ := by
  unfold finalEcbDecPad
  rw [rekey_buf]
  split
  · exact raise_rekey _ _
  · rw [ask_rekey h]
    dsimp only
    cases unpad p.blockBytes (r.ask p .dec r.engine.buf).1 with
    | none => exact raise_rekey _ _
    | some plain => rfl

theorem finalEcbNoPad_rekey (r : Run) : finalEcbNoPad p (r.rekey σ) = (finalEcbNoPad p r).rekey σ := by
  unfold finalEcbNoPad
  rw [rekey_buf, ecbBlock_rekey h, raise_rekey]
  split
  · rfl
  · split <;> rfl

theorem finalCtr_rekey (r : Run) : finalCtr p (r.rekey σ) = (finalCtr p r).rekey σ := by
  unfold finalCtr
  rw [rekey_buf, ask_rekey h]
  exact ite_rekey rfl rfl

theorem foldAad_rekey (r : Run) : foldAad p (r.rekey σ) = (foldAad p r).rekey σ := by
  unfold foldAad
  dsimp only
  rw [rekey_abuf]
  split
  · rfl
  · rw [modify_rekey, ask_rekey h]
    · rfl
    · exact fun _ => rfl

theorem foldMessage_rekey (r : Run) : foldMessage p (r.rekey σ) = (foldMessage p r).rekey σ := by
  unfold foldMessage
  dsimp only
  rw [rekey_buf]
  split
  · rfl
  · rw [modify_rekey, ask_rekey h]
    · rfl
    · exact fun _ => rfl

theorem emitTag_rekey (r : Run) : emitTag p (r.rekey σ) = (emitTag p r).rekey σ := by
  unfold emitTag
  dsimp only
  rw [modify_rekey, ask_rekey h]
  · rfl
  · exact fun _ => rfl

theorem final_rekey (r : Run) : final p (r.rekey σ) = (final p r).rekey σ := by
  unfold final
  rw [rekey_cfgMode, rekey_cfgPad, rekey_cfgDir]
  split
  · exact finalEcbEncPad_rekey h r
  · exact finalEcbDecPad_rekey h r
  · exact finalEcbNoPad_rekey h r
  · exact finalCtr_rekey h r
  · rw [finalOcb3, foldAad_rekey h, foldMessage_rekey h]
    exact emitTag_rekey h _

theorem initOcb3_rekey (pad : Bool) (taglen : Nat) (nonce : Bytes) (r : Run) :
    initOcb3 p pad taglen nonce (r.rekey σ) = (initOcb3 p pad taglen nonce r).rekey σ := by
  unfold initOcb3
  dsimp only
  rw [ask_rekey h]
  dsimp only
  rw [ask_rekey h, raise_rekey]
  split <;> rfl

/-- Every command but INIT_CIPHER does the same under the key's new name. -/
theorem run_rekey {i : Instr} (hi : ∀ n, i ≠ .initCipher n) (din : Bytes) (e : Engine) :
    Instr.run i p din (e.rekey σ) = (Instr.run i p din e).rekey σ := by
  cases i with
  | initCipher n => exact absurd rfl (hi n)
  | initModeEcb dir pad taglen ivlen =>
    refine initModeRun_rekey (fun r => ?_) e
    unfold initEcb
    split <;> rfl
  | initModeCtr dir pad taglen ivlen =>
    refine initModeRun_rekey (fun r => ?_) e
    unfold initCtr
    split <;> rfl
  | initModeOcb3 dir pad taglen ivlen => exact initModeRun_rekey (initOcb3_rekey h pad taglen din) e
  | updateAad n =>
    change updateAadRun p din (e.rekey σ) = (updateAadRun p din e).rekey σ
    unfold updateAadRun
    change (if e.session.acceptsData && e.cfgMode == .ocb3 then (aadFeedAll p din ((Run.start e).rekey σ)).andThen _ else _) = _
    rw [aadFeedAll_rekey h]
    split
    · exact andThen_rekey rfl
    · rfl
  | update n =>
    change updateRun p din (e.rekey σ) = (updateRun p din e).rekey σ
    unfold updateRun
    change (if e.session.acceptsData then (feedAll p din ((Run.start e).rekey σ)).andThen _ else _) = _
    rw [feedAll_rekey h]
    split
    · exact andThen_rekey rfl
    · rfl
  | doFinal n =>
    change doFinalRun p din (e.rekey σ) = (doFinalRun p din e).rekey σ
    unfold doFinalRun
    change (if e.session.acceptsData then ((feedAll p din ((Run.start e).rekey σ)).andThen (final p)).andThen _ else _) = _
    rw [feedAll_rekey h, andThen_rekey (final_rekey h _)]
    split
    · exact andThen_rekey rfl
    · rfl

end

theorem initModeRun_key {init : Run → Run} (hi : ∀ r, (init r).engine.key = r.engine.key) (p : Params) (mode : Mode)
    (dir : Dir) (pad : Bool) (taglen : Nat) (e : Engine) : (initModeRun p mode dir pad taglen init e).engine.key = e.key := by
  by_cases h : e.session = .uninit
  · rw [initModeRun, if_pos h]
    rfl
  · rw [initModeRun_engine _ _ _ _ _ _ _ h]
    split <;> exact hi _

/-- INIT_CIPHER alone writes KEY. -/
theorem run_key {i : Instr} (hi : ∀ n, i ≠ .initCipher n) (p : Params) (din : Bytes) (e : Engine) :
    (Instr.run i p din e).engine.key = e.key := by
  cases i with
  | initCipher n => exact absurd rfl (hi n)
  | initModeEcb dir pad taglen ivlen =>
    refine initModeRun_key (fun r => ?_) _ _ _ _ _ _
    unfold initEcb
    split <;> rfl
  | initModeCtr dir pad taglen ivlen =>
    refine initModeRun_key (fun r => ?_) _ _ _ _ _ _
    unfold initCtr
    split <;> rfl
  | initModeOcb3 dir pad taglen ivlen =>
    refine initModeRun_key (fun r => ?_) _ _ _ _ _ _
    unfold initOcb3
    dsimp only
    split <;> rfl
  | updateAad n => exact (dataRun_keeps (i := .updateAad n) trivial p din e).key
  | update n => exact (dataRun_keeps (i := .update n) trivial p din e).key
  | doFinal n => exact (dataRun_keeps (i := .doFinal n) trivial p din e).key

/-- The key k under the name k', every other key under its own. -/
def renameKey (k k' key : Bytes) : Bytes := if key = k then k' else key

theorem renameKey_answersAlike {p : Params} {k k' : Bytes} (he : ∀ blk, cipherEnc p k blk = cipherEnc p k' blk)
    (hd : ∀ blk, cipherDec p k blk = cipherDec p k' blk) : AnswersAlike p (renameKey k k') := by
  constructor <;> intro key blk <;> by_cases hk : key = k <;> simp [renameKey, hk, he, hd]

/-- Settles O59: the second run is the first with the key renamed. -/
theorem keyActsOnlyThroughCipher : Obligations.KeyActsOnlyThroughCipher := by
  intro s i din k k' t t' hi hl he hd ht ht'
  have h := renameKey_answersAlike he hd
  have hin : sendBytes din = sendBytes din ++ [] := (List.append_nil _).symm
  rw [issue, exec_supplied i _ din [] hl hin, Host.Outcome.next.injEq] at ht ht'
  have hrun := run_rekey h hi din { s.engine with key := some k }
  have hname : ({ s.engine with key := some k } : Engine).rekey (renameKey k k') = { s.engine with key := some k' } := by
    simp [Engine.rekey, Engine.boundKey, renameKey]
  rw [hname] at hrun
  have hkey := run_key hi s.params din { s.engine with key := some k }
  rw [← ht, ← ht']
  simp only [answered_responses, answered_engine]
  rw [hrun]
  refine ⟨rfl, ?_⟩
  change Engine.rekey _ _ = _
  rw [Engine.rekey, Engine.boundKey, hkey]
  simp [renameKey]

end Sys2Proof.Machine
end

section
/-! PROOFS of the statements of 30_encoding.md. The fields of each format (rules R82, R83, R85) are written once, as a relation between a
word and a command (`Instr.HasFields`). The decoder answers a command exactly when the word has its fields, and a word has a command's
fields exactly when it is the encoding of that well-formed command; the statements on words follow. -/

namespace Sys2Proof

/-! ### The fields of a word -/

theorem bits_eq (hi lo : Nat) (w : Word) : bits hi lo w = w.toNat / 2 ^ lo % 2 ^ (hi - lo + 1) := by
  rw [bits, Nat.shiftRight_eq_div_pow]

theorem bits_lt (hi lo : Nat) (w : Word) : bits hi lo w < 2 ^ (hi - lo + 1) := Nat.mod_lt _ (Nat.two_pow_pos _)

theorem dirOfBit_bit (dir : Dir) : dirOfBit dir.bit = dir := by cases dir <;> rfl

theorem bit_dirOfBit {b : Nat} (hb : b < 2) : (dirOfBit b).bit = b := by
  obtain rfl | rfl : b = 0 ∨ b = 1 := by omega
  · rfl
  · rfl

theorem toNat_beq_one {b : Nat} (hb : b < 2) : (b == 1).toNat = b := by
  obtain rfl | rfl : b = 0 ∨ b = 1 := by omega
  · rfl
  · rfl

theorem Dir.bit_lt (dir : Dir) : dir.bit < 2 := by cases dir <;> decide

/-- Format F-CIPHER (30_encoding.md R82). -/
structure HasCipherFields (klen : Nat) (w : Word) : Prop where
  opc : bits 31 28 w = 1
  reserved : bits 27 8 w = 0
  klen : bits 7 0 w = klen

/-- Format F-MODE (30_encoding.md R83). -/
structure HasModeFields (mode : Nat) (dir : Dir) (pad : Bool) (taglen ivlen : Nat) (w : Word) : Prop where
  opc : bits 31 28 w = 2
  mode : bits 27 26 w = mode
  dir : bits 25 25 w = dir.bit
  pad : bits 24 24 w = pad.toNat
  taglen : bits 23 16 w = taglen
  ivlen : bits 15 8 w = ivlen
  reserved : bits 7 0 w = 0

/-- Format F-DATA (30_encoding.md R85). -/
structure HasDataFields (opc len : Nat) (w : Word) : Prop where
  opc : bits 31 28 w = opc
  reserved : bits 27 16 w = 0
  len : bits 15 0 w = len

/-- The word has the command's fields, and zeros where its format reserves bits (30_encoding.md R82, R83, R85, R90). -/
def Instr.HasFields (w : Word) : Instr → Prop
  | .initCipher klen => HasCipherFields klen w
  | .initModeEcb dir pad taglen ivlen => HasModeFields 0 dir pad taglen ivlen w
  | .initModeCtr dir pad taglen ivlen => HasModeFields 1 dir pad taglen ivlen w
  | .initModeOcb3 dir pad taglen ivlen => HasModeFields 2 dir pad taglen ivlen w
  | .updateAad len => HasDataFields 3 len w
  | .update len => HasDataFields 4 len w
  | .doFinal len => HasDataFields 5 len w

/-! ### The decoder reads the fields -/

/-- A word of format F-MODE, with the fields the decoder reads from it. -/
theorem hasModeFields_of_bits {w : Word} {mode : Nat} (ho : bits 31 28 w = 2) (hm : bits 27 26 w = mode) (hr : bits 7 0 w = 0) :
    HasModeFields mode (dirOfBit (bits 25 25 w)) (bits 24 24 w == 1) (bits 23 16 w) (bits 15 8 w) w :=
  ⟨ho, hm, (bit_dirOfBit (bits_lt 25 25 w)).symm, (toNat_beq_one (bits_lt 24 24 w)).symm, rfl, rfl, hr⟩

theorem hasFields_of_decodeInitMode {w : Word} {i : Instr} (ho : bits 31 28 w = 2) (h : decodeInitMode w = .command i) :
    i.HasFields w := by
  unfold decodeInitMode at h
  dsimp only at h
  split_ifs at h with h3 hr h0 h1 <;> cases h
  case pos => exact hasModeFields_of_bits ho h0 (not_not.1 hr)
  case pos => exact hasModeFields_of_bits ho h1 (not_not.1 hr)
  case neg =>
    have hlt := bits_lt 27 26 w
    exact hasModeFields_of_bits ho (by omega) (not_not.1 hr)

theorem decodeData_eq_command {mk : Nat → Instr} {w : Word} {i : Instr} (h : decodeData mk w = .command i) :
    bits 27 16 w = 0 ∧ i = mk (bits 15 0 w) := by
  unfold decodeData at h
  split_ifs at h with hr
  exact ⟨hr, (Decoded.command.inj h).symm⟩

theorem hasFields_of_decode {w : Word} {i : Instr} (h : decode w = .command i) : i.HasFields w := by
  unfold decode at h
  split_ifs at h with ho hr ho ho ho ho
  · cases h
    exact ⟨ho, hr, rfl⟩
  · exact hasFields_of_decodeInitMode ho h
  all_goals
    obtain ⟨hr, rfl⟩ := decodeData_eq_command h
    exact ⟨ho, hr, rfl⟩

theorem decode_of_hasFields {w : Word} {i : Instr} (h : i.HasFields w) : decode w = .command i := by
  cases i with
  | initCipher klen => simp [decode, h.opc, h.reserved, h.klen]
  | initModeEcb dir pad taglen ivlen | initModeCtr dir pad taglen ivlen | initModeOcb3 dir pad taglen ivlen =>
    simp [decode, decodeInitMode, h.opc, h.mode, h.dir, h.pad, h.taglen, h.ivlen, h.reserved, dirOfBit_bit]
  | updateAad len | update len | doFinal len => simp [decode, decodeData, h.opc, h.reserved, h.len]

theorem decode_eq_command_iff_hasFields (w : Word) (i : Instr) : decode w = .command i ↔ i.HasFields w :=
  ⟨hasFields_of_decode, decode_of_hasFields⟩

/-! ### The encoder writes the fields -/

theorem ofNat_eq_iff {n : Nat} (hn : n < 2 ^ 32) (w : Word) : BitVec.ofNat 32 n = w ↔ n = w.toNat := by
  rw [← BitVec.toNat_inj, BitVec.toNat_ofNat, Nat.mod_eq_of_lt hn]

theorem fitsByte_iff (n : Nat) : fitsByte n = true ↔ n < 256 := decide_eq_true_iff

theorem fitsLen_iff (n : Nat) : fitsLen n = true ↔ n < 65536 := decide_eq_true_iff

theorem hasCipherFields_iff (klen : Nat) (w : Word) :
    HasCipherFields klen w ↔ fitsByte klen = true ∧ BitVec.ofNat 32 (1 * 2 ^ 28 + klen) = w := by
  rw [fitsByte_iff]
  have hw := w.isLt
  constructor
  · rintro ⟨ho, hr, hk⟩
    rw [bits_eq] at ho hr hk
    exact ⟨by omega, (ofNat_eq_iff (by omega) w).2 (by omega)⟩
  · rintro ⟨hk, h⟩
    rw [ofNat_eq_iff (by omega)] at h
    constructor <;> rw [bits_eq] <;> omega

theorem hasModeFields_iff {mode : Nat} (hm : mode < 4) (dir : Dir) (pad : Bool) (taglen ivlen : Nat) (w : Word) :
    HasModeFields mode dir pad taglen ivlen w ↔
      (fitsByte taglen && fitsByte ivlen) = true ∧ encodeInitMode mode dir pad taglen ivlen = w := by
  rw [Bool.and_eq_true, fitsByte_iff, fitsByte_iff]
  have hw := w.isLt
  have hdir := dir.bit_lt
  have hpad := pad.toNat_lt
  unfold encodeInitMode
  constructor
  · rintro ⟨ho, hmode, hd, hp, ht, hi, hr⟩
    rw [bits_eq] at ho hmode hd hp ht hi hr
    exact ⟨by omega, (ofNat_eq_iff (by omega) w).2 (by omega)⟩
  · rintro ⟨hf, h⟩
    rw [ofNat_eq_iff (by omega)] at h
    constructor <;> rw [bits_eq] <;> omega

theorem hasDataFields_iff {opc : Nat} (ho : opc < 16) (len : Nat) (w : Word) :
    HasDataFields opc len w ↔ fitsLen len = true ∧ BitVec.ofNat 32 (opc * 2 ^ 28 + len) = w := by
  rw [fitsLen_iff]
  have hw := w.isLt
  constructor
  · rintro ⟨hopc, hr, hl⟩
    rw [bits_eq] at hopc hr hl
    exact ⟨by omega, (ofNat_eq_iff (by omega) w).2 (by omega)⟩
  · rintro ⟨hl, h⟩
    rw [ofNat_eq_iff (by omega)] at h
    constructor <;> rw [bits_eq] <;> omega

theorem hasFields_iff_encode (w : Word) (i : Instr) : i.HasFields w ↔ i.wf = true ∧ encode i = w := by
  cases i with
  | initCipher klen => exact hasCipherFields_iff klen w
  | initModeEcb dir pad taglen ivlen => exact hasModeFields_iff (mode := 0) (by decide) dir pad taglen ivlen w
  | initModeCtr dir pad taglen ivlen => exact hasModeFields_iff (mode := 1) (by decide) dir pad taglen ivlen w
  | initModeOcb3 dir pad taglen ivlen => exact hasModeFields_iff (mode := 2) (by decide) dir pad taglen ivlen w
  | updateAad len => exact hasDataFields_iff (opc := 3) (by decide) len w
  | update len => exact hasDataFields_iff (opc := 4) (by decide) len w
  | doFinal len => exact hasDataFields_iff (opc := 5) (by decide) len w

/-- A word decodes to a command exactly when it is that well-formed command's encoding. -/
theorem decode_eq_command_iff (w : Word) (i : Instr) : decode w = .command i ↔ i.wf = true ∧ encode i = w :=
  (decode_eq_command_iff_hasFields w i).trans (hasFields_iff_encode w i)

theorem decode_encode {i : Instr} (h : i.wf = true) : decode (encode i) = .command i :=
  (decode_eq_command_iff _ i).2 ⟨h, rfl⟩

/-- Settles O1: the encoding has the command's fields, which the decoder reads. -/
theorem encodedCommandsDecodeBack : Obligations.EncodedCommandsDecodeBack := fun _ h => decode_encode h

/-- Settles O2: a word that decodes has the command's fields, so it is the command's encoding. -/
theorem decodedWordsEncodeBack : Obligations.DecodedWordsEncodeBack := fun w i h => (decode_eq_command_iff w i).1 h

/-- Settles O5: each word has the fields of its command, but the last, whose MODE is 3. -/
theorem specWordsDecode : Obligations.SpecWordsDecode := by
  unfold Obligations.SpecWordsDecode
  decide

/-! ### The legal words -/

/-- Settles O4: a command's fields meet its format's condition, and a word that meets a condition has a command's fields. -/
theorem legalWordsAreExactlyThese : Obligations.LegalWordsAreExactlyThese := by
  intro w
  simp only [decode_eq_command_iff_hasFields]
  constructor
  · rintro ⟨i, h⟩
    cases i with
    | initCipher klen => exact .inl ⟨h.opc, h.reserved⟩
    | initModeEcb dir pad taglen ivlen | initModeCtr dir pad taglen ivlen | initModeOcb3 dir pad taglen ivlen =>
      exact .inr (.inl ⟨h.opc, by simp [h.mode], h.reserved⟩)
    | updateAad len | update len | doFinal len => exact .inr (.inr ⟨by simp [h.opc], h.reserved⟩)
  · rintro (⟨ho, hr⟩ | ⟨ho, hm, hr⟩ | ⟨ho | ho | ho, hr⟩)
    · exact ⟨.initCipher _, ho, hr, rfl⟩
    · have hlt := bits_lt 27 26 w
      obtain h | h | h : bits 27 26 w = 0 ∨ bits 27 26 w = 1 ∨ bits 27 26 w = 2 := by omega
      · exact ⟨.initModeEcb _ _ _ _, hasModeFields_of_bits ho h hr⟩
      · exact ⟨.initModeCtr _ _ _ _, hasModeFields_of_bits ho h hr⟩
      · exact ⟨.initModeOcb3 _ _ _ _, hasModeFields_of_bits ho h hr⟩
    · exact ⟨.updateAad _, ho, hr, rfl⟩
    · exact ⟨.update _, ho, hr, rfl⟩
    · exact ⟨.doFinal _, ho, hr, rfl⟩

/-! ### The opcode map (30_encoding.md R90) -/

theorem encode_matches_row (i : Instr) : Laws.RowMatches.Statement i := by
  cases i with
  | initCipher klen => exact Laws.RowMatches.initCipher klen
  | initModeEcb dir pad taglen ivlen => exact Laws.RowMatches.initModeEcb dir pad taglen ivlen
  | initModeCtr dir pad taglen ivlen => exact Laws.RowMatches.initModeCtr dir pad taglen ivlen
  | initModeOcb3 dir pad taglen ivlen => exact Laws.RowMatches.initModeOcb3 dir pad taglen ivlen
  | updateAad len => exact Laws.RowMatches.updateAad len
  | update len => exact Laws.RowMatches.update len
  | doFinal len => exact Laws.RowMatches.doFinal len

theorem row_of_decode {w : Word} {i : Instr} (h : decode w = .command i) :
    i.row ∈ opcodeMap ∧ w &&& i.row.mask = i.row.pattern := by
  obtain ⟨hwf, rfl⟩ := (decode_eq_command_iff w i).1 h
  obtain ⟨hmem, hmatch⟩ := encode_matches_row i hwf
  exact ⟨hmem, beq_iff_eq.1 hmatch⟩

theorem bits_and (hi lo : Nat) (w m : Word) : bits hi lo (w &&& m) = bits hi lo w &&& bits hi lo m := by
  simp only [bits, BitVec.toNat_and, Nat.shiftRight_and_distrib, Nat.and_mod_two_pow]

/-- A field that the row's mask keeps whole is the pattern's. -/
theorem bits_of_mask {w mask pattern : Word} (h : w &&& mask = pattern) (hi lo : Nat)
    (hm : bits hi lo mask = 2 ^ (hi - lo + 1) - 1) : bits hi lo w = bits hi lo pattern := by
  rw [← h, bits_and, hm, Nat.and_two_pow_sub_one_eq_mod, Nat.mod_eq_of_lt (bits_lt hi lo w)]

theorem decode_of_row {w : Word} {r : OpcodeRow} (hr : r ∈ opcodeMap) (h : w &&& r.mask = r.pattern) :
    ∃ i, decode w = .command i ∧ i.row = r := by
  simp only [decode_eq_command_iff_hasFields]
  have field := bits_of_mask h
  simp only [opcodeMap, List.mem_cons, List.not_mem_nil, or_false] at hr
  obtain rfl | rfl | rfl | rfl | rfl | rfl | rfl := hr
  · exact ⟨.initCipher _, ⟨field 31 28 rfl, field 27 8 rfl, rfl⟩, rfl⟩
  · exact ⟨.initModeEcb _ _ _ _, hasModeFields_of_bits (field 31 28 rfl) (field 27 26 rfl) (field 7 0 rfl), rfl⟩
  · exact ⟨.initModeCtr _ _ _ _, hasModeFields_of_bits (field 31 28 rfl) (field 27 26 rfl) (field 7 0 rfl), rfl⟩
  · exact ⟨.initModeOcb3 _ _ _ _, hasModeFields_of_bits (field 31 28 rfl) (field 27 26 rfl) (field 7 0 rfl), rfl⟩
  · exact ⟨.updateAad _, ⟨field 31 28 rfl, field 27 16 rfl, rfl⟩, rfl⟩
  · exact ⟨.update _, ⟨field 31 28 rfl, field 27 16 rfl, rfl⟩, rfl⟩
  · exact ⟨.doFinal _, ⟨field 31 28 rfl, field 27 16 rfl, rfl⟩, rfl⟩

/-- Settles O3: two rows that a word matches are both the row of the one command it decodes to. -/
theorem decodingFollowsOpcodeMap : Obligations.DecodingFollowsOpcodeMap := by
  intro w
  refine ⟨fun i => row_of_decode, fun r => decode_of_row, fun r hr r' hr' h h' => ?_⟩
  obtain ⟨i, hi, rfl⟩ := decode_of_row hr h
  obtain ⟨i', hi', rfl⟩ := decode_of_row hr' h'
  rw [Decoded.command.inj (hi.symm.trans hi')]

end Sys2Proof

namespace Sys2Proof.Machine

/-! ### The pseudo-commands' long data (30_encoding.md R92) -/

/-- The parts joined are the data. -/
theorem splitData_flatten (fuel : Nat) (bs : Bytes) : (splitData fuel bs).1.flatten ++ (splitData fuel bs).2 = bs := by
  induction fuel generalizing bs with
  | zero => rfl
  | succ fuel ih =>
    unfold splitData
    split
    · rfl
    · simp [ih]

/-- With fuel for every byte, each part fits one command. -/
theorem splitData_part_length (fuel : Nat) (bs : Bytes) (hf : bs.length ≤ fuel) :
    ∀ d ∈ (splitData fuel bs).1 ++ [(splitData fuel bs).2], d.length ≤ 65535 := by
  induction fuel generalizing bs with
  | zero =>
    obtain rfl := List.eq_nil_of_length_eq_zero (Nat.le_zero.1 hf)
    simp [splitData]
  | succ fuel ih =>
    unfold splitData
    split
    next hs => simpa using hs
    next hl =>
      have hrest := ih (bs.drop 65535) (by rw [List.length_drop]; omega)
      rw [List.cons_append, List.forall_mem_cons]
      exact ⟨by simp, hrest⟩

/-- A command built from its decoded form and as many data bytes as it names. -/
theorem encoded_command {i : Instr} (hi : i.wf = true) {d : Bytes} (hd : d.length = i.dataLength) :
    decode (encode i) = .command i ∧ (Command.mk (encode i) d).wf = true := by
  have h := decode_encode hi
  exact ⟨h, by simp [Command.wf, dataInLength, h, hd]⟩

/-- Settles O60: the split loses nothing and each part fits a command, so each command is built from a well-formed one. -/
theorem pseudoCommandsSplitLongData : Obligations.PseudoCommandsSplitLongData := by
  intro data
  have hjoin := splitData_flatten data.length data
  have hfit := splitData_part_length data.length data le_rfl
  simp only [finalCommands, aadCommands]
  generalize splitData data.length data = parts at hjoin hfit ⊢
  obtain ⟨init, last⟩ := parts
  have hwf {d : Bytes} (hd : d ∈ init ++ [last]) : fitsLen d.length = true :=
    (fitsLen_iff _).2 (Nat.lt_succ_of_le (hfit d hd))
  have hinit {d : Bytes} (hd : d ∈ init) := encoded_command (i := .update d.length) (hwf (by simp [hd])) (d := d) rfl
  have hlast := encoded_command (i := .doFinal last.length) (hwf (by simp)) (d := last) rfl
  refine ⟨?_, ?_, ?_, ?_, ?_, ?_⟩
  · simpa [Function.comp_def] using hjoin
  · rw [List.forall_mem_append, List.forall_mem_map, List.forall_mem_singleton]
    exact ⟨fun d hd => ⟨(hinit hd).2, hfit d (by simp [hd])⟩, hlast.2, hfit last (by simp)⟩
  · rw [List.dropLast_concat, List.forall_mem_map]
    exact fun d hd => (hinit hd).1
  · intro c hc
    rw [List.getLast?_concat, Option.some.injEq] at hc
    subst hc
    exact hlast.1
  · split
    next => simp
    next =>
      rw [List.forall_mem_map]
      exact fun d hd => encoded_command (i := .updateAad d.length) (hwf hd) (d := d) rfl
  · split
    next hnil => simp [hnil]
    next => simpa [Function.comp_def] using hjoin

end Sys2Proof.Machine
end

section
/-! PROOFS of the statements of 41_engine.md. A command's run is described once by what it can end in (`Run.Streams` and the `_cases`
lemmas), by what it leaves alone (`Engine.streamView`), and, for the splitting rules R125 and R126, by how it goes on from an earlier
run (`Run.after`). -/

namespace Sys2Proof.Machine

/-! ### A step runs the decoded command (41_engine.md R110) -/

/-- Settles O7: the fetch takes the word's four bytes off the channel. -/
theorem stepRunsDecodedCommand : Obligations.StepRunsDecodedCommand := by
  intro s w i rest hin hw
  rw [step, fetch_word s w rest hin, hw]

/-! ### INIT_CIPHER (41_engine.md R111) -/

theorem initCipherRun_accepted {p : Params} {key : Bytes} (hk : key.length ∈ p.keyLengths) (e : Engine) :
    initCipherRun p key e = Run.start (Engine.keyed p (some key)) := if_pos hk

theorem initCipherRun_refused {p : Params} {key : Bytes} (hk : key.length ∉ p.keyLengths) (e : Engine) :
    initCipherRun p key e = (Run.start (Engine.reset p)).raise .configError := if_neg hk

/-- Settles O16: the run of an accepted key leaves a bound key and no session. -/
theorem initCipherBindsKey : Obligations.InitCipherBindsKey := by
  intro s key rest hk hin
  rw [exec_supplied (.initCipher key.length) s key rest rfl hin, Instr.run, initCipherRun_accepted hk]
  rfl

/-- Settles O17: the run of a refused key leaves the reset registers. -/
theorem initCipherRefusesKeyLength : Obligations.InitCipherRefusesKeyLength := by
  intro s key rest hk hin
  rw [exec_supplied (.initCipher key.length) s key rest rfl hin, Instr.run, initCipherRun_refused hk]
  rfl

/-! ### Commands out of sequence (41_engine.md R119, 60_exceptions.md R276) -/

theorem exec_outOfSequence {i : Instr} {s : State} {din : Bytes} {rest : List HostInput} (hl : din.length = i.dataLength)
    (hin : s.input = sendBytes din ++ rest)
    (hrun : Instr.run i s.params din s.engine = (Run.start s.engine).raise .sequenceError) :
    exec i s = .next (s.answered rest s.engine .sequenceError [] []) := by
  rw [exec_supplied i s din rest hl hin, hrun]
  rfl

theorem initModeRun_refused {p : Params} {mode : Mode} {dir : Dir} {pad : Bool} {taglen : Nat} {init : Run → Run} {e : Engine}
    (h : e.session = .uninit) : initModeRun p mode dir pad taglen init e = (Run.start e).raise .sequenceError := if_pos h

/-- Settles O18: the state check comes before the mode's own part. -/
theorem initModeNeedsKey : Obligations.InitModeNeedsKey := by
  intro s dir pad taglen iv rest hs hin
  exact ⟨exec_outOfSequence rfl hin (initModeRun_refused hs), exec_outOfSequence rfl hin (initModeRun_refused hs),
    exec_outOfSequence rfl hin (initModeRun_refused hs)⟩

theorem ne_failed_of_acceptsData {x : Session} (h : x.acceptsData = true) : x ≠ .failed := by
  rintro rfl
  cases h

/-- The byte loop of the stream's command: `Feed` or `AadFeed`. -/
def Stream.feedByte (p : Params) : Stream → Run → Byte → Run
  | .msg => feed p
  | .aad => aadFeed p

/-- Where the stream's command is accepted (41_engine.md R119). -/
def Stream.accepts : Stream → Engine → Bool
  | .msg, e => e.session.acceptsData
  | .aad, e => e.session.acceptsData && e.cfgMode == .ocb3

/-- The session after the stream's command has succeeded (41_engine.md R120). -/
def Stream.next : Stream → Session → Session
  | .msg, _ => .messageAccepting
  | .aad, x => if x = .modeConfigured then .aadAccepting else x

/-- The stream's command: UPDATE or UPDATE_AAD. -/
def Stream.instr : Stream → Nat → Instr
  | .msg, n => .update n
  | .aad, n => .updateAad n

/-- STATE moves on. -/
def Run.enter (next : Session → Session) (r : Run) : Run := r.modify fun e => { e with session := next e.session }

/-- The run of the stream's command (41_engine.md R116, R117). -/
def streamRun (p : Params) (st : Stream) (bs : Bytes) (e : Engine) : Run :=
  if st.accepts e then (bs.foldl (st.feedByte p) (Run.start e)).andThen (Run.enter st.next)
  else (Run.start e).raise .sequenceError

theorem run_instr (st : Stream) (n : Nat) (p : Params) (bs : Bytes) (e : Engine) :
    Instr.run (st.instr n) p bs e = streamRun p st bs e := by
  cases st <;> rfl

theorem instr_dataLength (st : Stream) (n : Nat) : (st.instr n).dataLength = n := by cases st <;> rfl

theorem streamRun_accepted {p : Params} {st : Stream} {bs : Bytes} {e : Engine} (h : st.accepts e = true) :
    streamRun p st bs e = (bs.foldl (st.feedByte p) (Run.start e)).andThen (Run.enter st.next) := if_pos h

theorem streamRun_refused {p : Params} {st : Stream} {bs : Bytes} {e : Engine} (h : st.accepts e = false) :
    streamRun p st bs e = (Run.start e).raise .sequenceError := by
  simp [streamRun, h]

theorem exec_instr (st : Stream) {s : State} {din : Bytes} {rest : List HostInput} (hin : s.input = sendBytes din ++ rest) :
    let r := streamRun s.params st din s.engine
    exec (st.instr din.length) s = .next (s.answered rest r.engine r.err r.dout r.requests) := by
  rw [exec_supplied _ s din rest (instr_dataLength st _).symm hin, run_instr]

theorem exec_instr_refused (st : Stream) {s : State} {din : Bytes} {rest : List HostInput} (hin : s.input = sendBytes din ++ rest)
    (h : st.accepts s.engine = false) :
    exec (st.instr din.length) s = .next (s.answered rest s.engine .sequenceError [] []) := by
  rw [exec_instr st hin, streamRun_refused h]
  rfl

theorem doFinalRun_refused {p : Params} {msg : Bytes} {e : Engine} (h : e.session.acceptsData = false) :
    doFinalRun p msg e = (Run.start e).raise .sequenceError := by
  simp [doFinalRun, h]

/-- Settles O23: each data command is refused where its check fails. -/
theorem dataCommandsOutOfSequence : Obligations.DataCommandsOutOfSequence := by
  intro s din rest refused hin
  have closed (h : s.engine.session.acceptsData = false) (st : Stream) : st.accepts s.engine = false := by
    cases st <;> simp [Stream.accepts, h]
  refine ⟨fun hs => ?_, fun hm => exec_instr_refused .aad hin (by simp [Stream.accepts, hm])⟩
  have hs : s.engine.session.acceptsData = false := by rcases hs with h | h | h | h <;> rw [h] <;> rfl
  exact ⟨exec_instr_refused .aad hin (closed hs .aad), exec_instr_refused .msg hin (closed hs .msg),
    exec_outOfSequence rfl hin (doFinalRun_refused hs)⟩

/-! ### UPDATE_AAD while no block index overflows (41_engine.md R116, 46_ocb3_data.md R231 to R236) -/

/-- Settles O27: the byte loop is a loop over blocks, whose closed form is known while no index overflows. -/
theorem updateAadFoldsBlocks : Obligations.UpdateAadFoldsBlocks := by
  intro s aad rest p e b text n off hwf hbuf htab hs hm hidx hin
  have hloop : aad.foldl (Stream.aad.feedByte p) (Run.start e) =
      (foldAadBlocks p ((List.range n).map (blockAt b text)) (Run.start e)).andThen (Run.setAbuf (remainder b text n)) :=
    aadFeedAll_eq p aad (Run.start e) hwf.1 rfl (hbuf.abufEager (ne_failed_of_acceptsData hs))
  have hblocks := foldAadBlocks_ok p (blockAt b text) n (remainder b text n) (Run.start e) e.lt.length rfl (htab.nonempty hm)
    (htab.entries hm) hidx
  have hok : (foldAadBlocks p ((List.range n).map (blockAt b text)) (Run.start e)).err = .ok := congrArg Run.err hblocks
  have hacc : Stream.aad.accepts e = true := by simp [Stream.accepts, hs, hm]
  refine (exec_instr .aad hin).trans ?_
  rw [streamRun_accepted hacc, hloop, andThen_ok _ _ hok, hblocks]
  rfl

/-! ### The streams are separate (46_ocb3_data.md R237) -/

/-- The registers that of the two streams' commands only this stream's writes. -/
def Engine.streamView (e : Engine) : Stream → List Bytes × BitVec 64
  | .msg => ([e.buf, e.ctr, e.delta, e.checksum], e.midx)
  | .aad => ([e.abuf, e.deltaAad, e.authAcc], e.aidx)

/-- The other stream. -/
def Stream.other : Stream → Stream
  | .msg => .aad
  | .aad => .msg

theorem andThen_view {st : Stream} {v : List Bytes × BitVec 64} {r : Run} {k : Run → Run} (h : r.engine.streamView st = v)
    (hk : r.err = .ok → (k r).engine.streamView st = v) : (r.andThen k).engine.streamView st = v := by
  by_cases hr : r.err = .ok
  · rw [andThen_ok r k hr]
    exact hk hr
  · rwa [andThen_err r k hr]

theorem increaseDelta_view (p : Params) (st : Stream) (r : Run) :
    (increaseDelta p st r).engine.streamView st.other = r.engine.streamView st.other := by
  rcases increaseDelta_cases p st r with ⟨_, h⟩ | ⟨_, _, _, _, _, h⟩ <;> rw [h] <;> cases st <;> rfl

theorem aadFeed_view (p : Params) (r : Run) (x : Byte) : (aadFeed p r x).engine.streamView .msg = r.engine.streamView .msg := by
  refine andThen_view rfl fun _ => ?_
  dsimp only
  split
  · exact andThen_view (increaseDelta_view p .aad _) fun _ => increaseDelta_view p .aad _
  · rfl

theorem blockOp_view (p : Params) (blk : Bytes) (r : Run) :
    (blockOp p blk r).2.engine.streamView .aad = r.engine.streamView .aad := by
  unfold blockOp
  split
  · unfold ecbBlock
    split <;> rfl
  · rfl
  · unfold ocb3Block
    dsimp only
    split <;> exact increaseDelta_view p .msg r

theorem release_view (p : Params) (r : Run) : (release p r).engine.streamView .aad = r.engine.streamView .aad :=
  andThen_view (blockOp_view p _ r) fun _ => blockOp_view p _ r

theorem feed_view (p : Params) (r : Run) (x : Byte) : (feed p r x).engine.streamView .aad = r.engine.streamView .aad := by
  have hroom : (makeRoom p r).engine.streamView .aad = r.engine.streamView .aad := by
    unfold makeRoom
    split
    · exact release_view p r
    · rfl
  have hpush (r : Run) : (pushByte p x r).engine.streamView .aad = r.engine.streamView .aad := by
    unfold pushByte
    dsimp only
    split
    · exact release_view p _
    · rfl
  exact andThen_view rfl fun _ => andThen_view hroom fun _ => (hpush _).trans hroom

theorem streamRun_view (p : Params) (st : Stream) (bs : Bytes) (e : Engine) :
    (streamRun p st bs e).engine.streamView st.other = e.streamView st.other := by
  have hfeed (r : Run) (x : Byte) : (st.feedByte p r x).engine.streamView st.other = r.engine.streamView st.other := by
    cases st
    · exact feed_view p r x
    · exact aadFeed_view p r x
  have hloop : (bs.foldl (st.feedByte p) (Run.start e)).engine.streamView st.other = e.streamView st.other :=
    List.foldlRecOn bs _ (motive := fun r => r.engine.streamView st.other = e.streamView st.other) rfl
      fun r hr x _ => (hfeed r x).trans hr
  unfold streamRun
  split
  · exact andThen_view hloop fun _ => hloop
  · rfl

/-- Settles O35: no data command writes the configuration, and each stream's command leaves the other stream alone. -/
theorem dataCommandsKeepConfiguration : Obligations.DataCommandsKeepConfiguration := by
  intro s t din rest i hin hi hst
  have hdata : Instr.IsData i ∧ din.length = i.dataLength := by rcases hi with rfl | rfl | rfl <;> exact ⟨trivial, rfl⟩
  rw [exec_supplied i s din rest hdata.2 hin, Host.Outcome.next.injEq] at hst
  obtain ⟨hmode, hdir, hpad, htag, hkey, hlstar, hldollar, -⟩ := dataRun_keeps hdata.1 s.params din s.engine
  have hview (st : Stream) (hst' : i = st.instr din.length) :
      t.engine.streamView st.other = s.engine.streamView st.other := by
    rw [← hst, hst', run_instr]
    exact streamRun_view s.params st din s.engine
  rw [← hst] at hview ⊢
  refine ⟨hmode, hdir, hpad, htag, hkey, hlstar, hldollar, rfl, fun h => ?_, fun h => ?_⟩
  · simpa [Engine.streamView, Stream.other, and_assoc] using hview .aad h
  · simpa [Engine.streamView, Stream.other, and_assoc] using hview .msg h

/-! ### How a command can end (41_engine.md R120, 60_exceptions.md R276) -/

/-- A run of a byte loop that has got to session `x`, or failed on an index that would overflow (46_ocb3_data.md R233). -/
structure Run.Streams (x : Session) (r : Run) : Prop where
  session : r.err = .ok → r.engine.session = x
  failed : r.err ≠ .ok → r.err = .illegalLength ∧ r.engine.session = .failed

theorem Run.Streams.andThen {x y : Session} {r : Run} {k : Run → Run} (h : r.Streams x) (hk : r.err = .ok → (k r).Streams y) :
    (r.andThen k).Streams y := by
  by_cases hr : r.err = .ok
  · rw [andThen_ok r k hr]
    exact hk hr
  · rw [andThen_err r k hr]
    exact ⟨fun h => absurd h hr, h.failed⟩

theorem Run.Streams.enter {x : Session} {r : Run} (h : r.Streams x) (next : Session → Session) :
    (r.andThen (Run.enter next)).Streams (next x) :=
  h.andThen fun hr => ⟨fun _ => congrArg next (h.session hr), fun hn => absurd hr hn⟩

theorem Run.Streams.of_alike {x : Session} {r r' : Run} (h : r.Streams x) (ha : r.Alike r') : r'.Streams x := by
  obtain ⟨he, hs, -⟩ := ha
  exact ⟨by rw [he, hs]; exact h.session, by rw [he, hs]; exact h.failed⟩

theorem start_streams (e : Engine) : (Run.start e).Streams e.session := ⟨fun _ => rfl, fun h => absurd rfl h⟩

theorem raise_streams (x : Session) (r : Run) : (r.raise .illegalLength).Streams x := ⟨(nomatch ·), fun _ => ⟨rfl, rfl⟩⟩

theorem Run.Streams.of_step {x : Session} {r r₀ r' : Run} (h : r₀.Streams x) (hr : r' = r.raise .illegalLength ∨ r₀.Alike r') :
    r'.Streams x := by
  rcases hr with rfl | hr
  · exact raise_streams x r
  · exact h.of_alike hr

theorem Run.Streams.setBuf {x : Session} {r : Run} (h : r.Streams x) (y : Bytes) : (r.setBuf y).Streams x := ⟨h.session, h.failed⟩

theorem Run.Streams.setAbuf {x : Session} {r : Run} (h : r.Streams x) (y : Bytes) : (r.setAbuf y).Streams x := ⟨h.session, h.failed⟩

theorem release_streams {p : Params} {x : Session} {r : Run} (h : r.Streams x) (hr : r.err = .ok) : (release p r).Streams x :=
  (h.setBuf []).of_step (release_alike p r hr)

theorem feed_streams {p : Params} {x : Session} {r : Run} (h : r.Streams x) (b : Byte) : (feed p r b).Streams x := by
  refine h.andThen fun hr => ?_
  have hroom : (makeRoom p r).Streams x := by
    unfold makeRoom
    split
    · exact release_streams h hr
    · exact h
  refine hroom.andThen fun hr' => ?_
  unfold pushByte
  dsimp only
  split
  · exact release_streams (hroom.setBuf _) hr'
  · exact hroom.setBuf _

theorem aadFeed_streams {p : Params} {x : Session} {r : Run} (h : r.Streams x) (b : Byte) : (aadFeed p r b).Streams x := by
  refine h.andThen fun hr => ?_
  dsimp only
  split
  · exact (h.setAbuf []).of_step (foldAadBlock_alike p (r.engine.abuf ++ [b]) r hr)
  · exact h.setAbuf _

theorem feedByte_streams {p : Params} {x : Session} (st : Stream) {r : Run} (h : r.Streams x) (b : Byte) :
    (st.feedByte p r b).Streams x := by
  cases st
  · exact feed_streams h b
  · exact aadFeed_streams h b

theorem loop_streams (p : Params) (st : Stream) (bs : Bytes) (e : Engine) :
    (bs.foldl (st.feedByte p) (Run.start e)).Streams e.session :=
  List.foldlRecOn bs _ (motive := Run.Streams e.session) (start_streams e) fun _ h b _ => feedByte_streams st h b

/-- Everything UPDATE and UPDATE_AAD can end in. -/
theorem streamRun_cases (p : Params) (st : Stream) (bs : Bytes) (e : Engine) :
    streamRun p st bs e = (Run.start e).raise .sequenceError ∨ (streamRun p st bs e).Streams (st.next e.session) := by
  unfold streamRun
  split
  · exact .inr ((loop_streams p st bs e).enter st.next)
  · exact .inl rfl

/-- UPDATE_AAD makes no output (41_engine.md R116). -/
theorem streamRun_aad_dout (p : Params) (bs : Bytes) (e : Engine) : (streamRun p .aad bs e).dout = [] := by
  have and {r : Run} {k : Run → Run} (h : r.dout = []) (hk : (k r).dout = []) : (r.andThen k).dout = [] := by
    unfold Run.andThen
    split
    · exact hk
    · exact h
  have hdelta (r : Run) (h : r.dout = []) : (increaseDelta p .aad r).dout = [] := by
    rcases increaseDelta_cases p .aad r with ⟨_, hc⟩ | ⟨_, _, _, _, _, hc⟩ <;> rw [hc]
    · rwa [raise_dout]
    · exact h
  have hfeed (r : Run) (h : r.dout = []) (x : Byte) : (aadFeed p r x).dout = [] := by
    refine and h ?_
    dsimp only
    split
    · exact and (hdelta _ h) (hdelta _ h)
    · exact h
  have hloop : (bs.foldl (aadFeed p) (Run.start e)).dout = [] :=
    List.foldlRecOn bs _ (motive := fun r => r.dout = []) rfl fun r h x _ => hfeed r h x
  unfold streamRun
  split
  · exact and hloop hloop
  · rfl

/-- Everything Final can do: a data error, or success with BUF empty (41_engine.md R123, 43_ecb.md R164, R165). -/
theorem final_cases (p : Params) {r : Run} (hr : r.err = .ok) :
    (∃ r' c, (c = .illegalLength ∨ c = .invalidPadding) ∧ final p r = Run.raise r' c) ∨
    ((final p r).err = .ok ∧ (final p r).engine.buf = []) := by
  unfold final
  split
  · exact .inr ⟨hr, rfl⟩
  · unfold finalEcbDecPad
    split
    · exact .inl ⟨_, _, .inl rfl, rfl⟩
    · dsimp only
      split
      · exact .inl ⟨_, _, .inr rfl, rfl⟩
      · exact .inr ⟨hr, rfl⟩
  · unfold finalEcbNoPad ecbBlock
    split
    next h => exact .inr ⟨hr, List.eq_nil_of_length_eq_zero h⟩
    next =>
      split
      · refine .inr ?_
        dsimp only
        split <;> exact ⟨hr, rfl⟩
      · exact .inl ⟨_, _, .inl rfl, rfl⟩
  · unfold finalCtr
    split
    next h => exact .inr ⟨hr, h⟩
    next => exact .inr ⟨hr, rfl⟩
  · have ha := foldAad_alike p r
    have hm := foldMessage_alike p (foldAad p r)
    exact .inr ⟨hm.err.trans (ha.err.trans hr), hm.buf⟩

/-- A Final that does not succeed fails the session. -/
theorem final_failed {p : Params} {r : Run} (hr : r.err = .ok) (h : (final p r).err ≠ .ok) :
    (final p r).engine.session = .failed := by
  rcases final_cases p hr with ⟨r', c, hc, hf⟩ | ⟨hok, -⟩
  · rw [hf, raise_engine_data r' c hc]
  · exact absurd hok h

/-- DO_FINAL in a session that accepts data: the byte loop, Final, then FINALIZED (41_engine.md R118). -/
theorem doFinalRun_accepted {p : Params} {msg : Bytes} {e : Engine} (h : e.session.acceptsData = true) :
    doFinalRun p msg e = ((feedAll p msg (Run.start e)).andThen (final p)).andThen (Run.enter fun _ => .finalized) := if_pos h

/-- Everything DO_FINAL can end in. -/
theorem doFinalRun_cases (p : Params) (msg : Bytes) (e : Engine) :
    doFinalRun p msg e = (Run.start e).raise .sequenceError ∨
    ((doFinalRun p msg e).err = .ok ∧ (doFinalRun p msg e).engine.session = .finalized ∧ (doFinalRun p msg e).engine.buf = []) ∨
    (((doFinalRun p msg e).err = .illegalLength ∨ (doFinalRun p msg e).err = .invalidPadding) ∧
      (doFinalRun p msg e).engine.session = .failed) := by
  cases hacc : e.session.acceptsData
  · exact .inl (doFinalRun_refused hacc)
  refine .inr ?_
  rw [doFinalRun_accepted hacc]
  have hloop := loop_streams p .msg msg e
  change (feedAll p msg (Run.start e)).Streams e.session at hloop
  by_cases hr : (feedAll p msg (Run.start e)).err = .ok
  · rw [andThen_ok _ (final p) hr]
    rcases final_cases p hr with ⟨r', c, hc, hf⟩ | ⟨hok, hbuf⟩
    · have hne : c ≠ .ok := by rcases hc with rfl | rfl <;> simp
      rw [hf, andThen_err _ _ (by rwa [raise_err]), raise_err, raise_engine_data r' c hc]
      exact .inr ⟨hc, rfl⟩
    · rw [andThen_ok _ _ hok]
      exact .inl ⟨hok, rfl, hbuf⟩
  · obtain ⟨herr, hs⟩ := hloop.failed hr
    rw [andThen_err _ (final p) hr, andThen_err _ _ hr]
    exact .inr ⟨.inl herr, hs⟩

/-- INIT_MODE with a key bound: the mode's own part on a cleared session, then the configuration (41_engine.md R113). -/
theorem initModeRun_keyed {p : Params} {mode : Mode} {dir : Dir} {pad : Bool} {taglen : Nat} {init : Run → Run} {e : Engine}
    (h : e.session ≠ .uninit) :
    initModeRun p mode dir pad taglen init e =
      (init (Run.start (Engine.keyed p e.key))).andThen fun r => r.modify fun e =>
        { e with
          session := .modeConfigured, cfgMode := mode, cfgDir := dir, cfgPad := pad, cfgTaglen := BitVec.ofNat 8 taglen } :=
  if_neg h

/-- Everything INIT_MODE can end in, when the mode's own part refuses its fields or succeeds (41_engine.md R113). -/
theorem initModeRun_cases {p : Params} {mode : Mode} {dir : Dir} {pad : Bool} {taglen : Nat} {init : Run → Run}
    (hinit : ∀ r : Run, r.err = .ok → init r = r.raise .configError ∨ (init r).err = .ok) (e : Engine) :
    let r := initModeRun p mode dir pad taglen init e
    r = (Run.start e).raise .sequenceError ∨ (r.err = .ok ∧ r.engine.session = .modeConfigured) ∨
      r = (Run.start (Engine.keyed p e.key)).raise .configError := by
  by_cases h : e.session = .uninit
  · exact .inl (initModeRun_refused h)
  rw [initModeRun_keyed h]
  rcases hinit (Run.start (Engine.keyed p e.key)) rfl with hf | hok
  · exact .inr (.inr (by rw [hf]; rfl))
  · rw [andThen_ok _ _ hok]
    exact .inr (.inl ⟨hok, rfl⟩)

theorem initEcb_cases (taglen ivlen : Nat) (r : Run) (hr : r.err = .ok) :
    initEcb taglen ivlen r = r.raise .configError ∨ (initEcb taglen ivlen r).err = .ok := by
  unfold initEcb
  split
  · exact .inl rfl
  · exact .inr hr

theorem initCtr_cases (p : Params) (pad : Bool) (taglen : Nat) (iv : Bytes) (r : Run) (hr : r.err = .ok) :
    initCtr p pad taglen iv r = r.raise .configError ∨ (initCtr p pad taglen iv r).err = .ok := by
  unfold initCtr
  split
  · exact .inl rfl
  · exact .inr hr

theorem initOcb3_cases (p : Params) (pad : Bool) (taglen : Nat) (nonce : Bytes) (r : Run) (hr : r.err = .ok) :
    initOcb3 p pad taglen nonce r = r.raise .configError ∨ (initOcb3 p pad taglen nonce r).err = .ok := by
  unfold initOcb3
  dsimp only
  split
  · exact .inl rfl
  · exact .inr hr

/-- A SEQUENCE_ERROR comes from a command's state check alone. -/
theorem run_of_sequenceError {i : Instr} {p : Params} {din : Bytes} {e : Engine}
    (h : (Instr.run i p din e).err = .sequenceError) : Instr.run i p din e = (Run.start e).raise .sequenceError := by
  have initMode {r : Run} (hr : r.err = .sequenceError)
      (hc : r = (Run.start e).raise .sequenceError ∨ (r.err = .ok ∧ r.engine.session = .modeConfigured) ∨
        r = (Run.start (Engine.keyed p e.key)).raise .configError) : r = (Run.start e).raise .sequenceError := by
    rcases hc with hc | ⟨hok, -⟩ | rfl
    · exact hc
    · cases hok.symm.trans hr
    · cases hr
  have stream (st : Stream) (hr : (streamRun p st din e).err = .sequenceError) :
      streamRun p st din e = (Run.start e).raise .sequenceError := by
    rcases streamRun_cases p st din e with hc | hc
    · exact hc
    · have hill := (hc.failed (by rw [hr]; simp)).1
      cases hill.symm.trans hr
  cases i with
  | initCipher _ =>
    simp only [Instr.run] at h
    by_cases hk : din.length ∈ p.keyLengths
    · rw [initCipherRun_accepted hk] at h
      cases h
    · rw [initCipherRun_refused hk] at h
      cases h
  | initModeEcb _ _ _ _ => exact initMode h (initModeRun_cases (initEcb_cases _ _) e)
  | initModeCtr _ _ _ _ => exact initMode h (initModeRun_cases (initCtr_cases p _ _ din) e)
  | initModeOcb3 _ _ _ _ => exact initMode h (initModeRun_cases (initOcb3_cases p _ _ din) e)
  | updateAad _ => exact stream .aad h
  | update _ => exact stream .msg h
  | doFinal _ =>
    change (doFinalRun p din e).err = .sequenceError at h
    rcases doFinalRun_cases p din e with hc | ⟨hok, -⟩ | ⟨hc | hc, -⟩
    · exact hc
    · cases hok.symm.trans h
    · cases hc.symm.trans h
    · cases hc.symm.trans h

theorem streamRun_outcome (p : Params) (st : Stream) (bs : Bytes) (e : Engine) :
    let r := streamRun p st bs e
    (r.err = .ok ∧ r.engine.session = st.next e.session) ∨ (r.err = .illegalLength ∧ r.engine.session = .failed) ∨
      r.err = .sequenceError := by
  dsimp only
  rcases streamRun_cases p st bs e with h | h
  · rw [h]
    exact .inr (.inr rfl)
  · by_cases hr : (streamRun p st bs e).err = .ok
    · exact .inl ⟨hr, h.session hr⟩
    · exact .inr (.inl (h.failed hr))

/-- Settles O36: each command's outcomes, read off the cases of its run. -/
theorem sessionAfterEachOutcome : Obligations.SessionAfterEachOutcome := by
  intro s din rest i hin hl
  refine ⟨_, _, _, exec_supplied i s din rest hl hin, rfl, rfl, fun h => ?_, ?_⟩
  · rw [answered_engine, answered_requests, run_of_sequenceError h]
    exact ⟨rfl, rfl, List.append_nil _⟩
  have initMode {r : Run}
      (hc : r = (Run.start s.engine).raise .sequenceError ∨ (r.err = .ok ∧ r.engine.session = .modeConfigured) ∨
        r = (Run.start (Engine.keyed s.params s.engine.key)).raise .configError) :
      (r.err = .ok ∧ r.engine.session = .modeConfigured) ∨
        (r.err = .configError ∧ r.engine.session = .keyBound ∧ r.engine.key = s.engine.key ∧ r.dout = []) ∨
        r.err = .sequenceError := by
    rcases hc with rfl | hc | rfl
    · exact .inr (.inr rfl)
    · exact .inl hc
    · exact .inr (.inl ⟨rfl, rfl, rfl, rfl⟩)
  cases i with
  | initCipher _ =>
    simp only [Instr.run, answered_engine]
    by_cases hk : din.length ∈ s.params.keyLengths
    · rw [initCipherRun_accepted hk]
      exact .inl ⟨rfl, rfl⟩
    · rw [initCipherRun_refused hk]
      exact .inr ⟨rfl, rfl, rfl⟩
  | initModeEcb _ _ _ _ => exact initMode (initModeRun_cases (initEcb_cases _ _) s.engine)
  | initModeCtr _ _ _ _ => exact initMode (initModeRun_cases (initCtr_cases s.params _ _ din) s.engine)
  | initModeOcb3 _ _ _ _ => exact initMode (initModeRun_cases (initOcb3_cases s.params _ _ din) s.engine)
  | updateAad _ =>
    have hd := streamRun_aad_dout s.params din s.engine
    rcases streamRun_outcome s.params .aad din s.engine with ⟨hok, hs⟩ | h
    · exact .inl ⟨hok, hs, hd⟩
    · exact .inr h
  | update _ => exact streamRun_outcome s.params .msg din s.engine
  | doFinal _ =>
    rcases doFinalRun_cases s.params din s.engine with h | h | h
    · exact .inr (.inr (congrArg Run.err h))
    · exact .inl h
    · exact .inr (.inl h)

/-! ### Going on from an earlier run (41_engine.md R125, R126) -/

/-- STATE of a command that goes on from a session: FAILED stays FAILED. -/
def Session.resume (before now : Session) : Session := if now = .failed then .failed else before

/-- The run `r` with what the run `a` before it had put out and asked, in the session of `a` as long as it has not failed. -/
def Run.after (a r : Run) : Run where
  engine := { r.engine with session := a.engine.session.resume r.engine.session }
  dout := a.dout ++ r.dout
  requests := a.requests ++ r.requests
  err := r.err

/-- A run without an error goes on from its own registers, in whatever session. -/
theorem after_start {a : Run} (ha : a.err = .ok) {x : Session} (hx : x ≠ .failed) :
    a.after (Run.start { a.engine with session := x }) = a := by
  obtain ⟨e, dout, asked, err⟩ := a
  subst ha
  simp [Run.after, Run.start, Session.resume, hx]

@[simp] theorem after_cfgMode (a r : Run) : (a.after r).engine.cfgMode = r.engine.cfgMode := rfl
@[simp] theorem after_cfgDir (a r : Run) : (a.after r).engine.cfgDir = r.engine.cfgDir := rfl
@[simp] theorem after_cfgPad (a r : Run) : (a.after r).engine.cfgPad = r.engine.cfgPad := rfl
@[simp] theorem after_holdBack (a r : Run) : (a.after r).engine.holdBack = r.engine.holdBack := rfl
@[simp] theorem after_buf (a r : Run) : (a.after r).engine.buf = r.engine.buf := rfl
@[simp] theorem after_abuf (a r : Run) : (a.after r).engine.abuf = r.engine.abuf := rfl
@[simp] theorem after_err (a r : Run) : (a.after r).err = r.err := rfl
@[simp] theorem after_dout (a r : Run) : (a.after r).dout = a.dout ++ r.dout := rfl
@[simp] theorem after_requests (a r : Run) : (a.after r).requests = a.requests ++ r.requests := rfl

section
variable (a : Run) (p : Params)

theorem raise_after (r : Run) (c : Err) : (a.after r).raise c = a.after (r.raise c) := by cases c <;> rfl

theorem out_after (r : Run) (bs : Bytes) : (a.after r).out bs = a.after (r.out bs) := by
  simp only [Run.after, Run.out, List.append_assoc]

theorem ask_after (op : CipherOp) (blk : Bytes) (r : Run) :
    (a.after r).ask p op blk = ((r.ask p op blk).1, a.after (r.ask p op blk).2) := by
  simp only [Run.after, Run.ask, Engine.boundKey, List.append_assoc]

/-- A write of registers other than STATE. -/
theorem modify_after {f : Engine → Engine} (hf : ∀ e x, f { e with session := x } = { f e with session := x }) (r : Run) :
    (a.after r).modify f = a.after (r.modify f) := by
  have hs := congrArg Engine.session (hf r.engine r.engine.session)
  change (f r.engine).session = r.engine.session at hs
  simp only [Run.after, Run.modify, hs]
  rw [hf]

theorem ite_after {a : Run} {c : Prop} [Decidable c] {r r' s s' : Run} (hr : r' = a.after r) (hs : s' = a.after s) :
    (if c then r' else s') = a.after (if c then r else s) := by
  rw [hr, hs]
  exact (apply_ite (Run.after a) c r s).symm

theorem andThen_after {a r : Run} {k : Run → Run} (hk : k (a.after r) = a.after (k r)) :
    (a.after r).andThen k = a.after (r.andThen k) := by
  by_cases hr : r.err = .ok
  · rw [andThen_ok r k hr, ← hk, andThen_ok (a.after r) k hr]
  · rw [andThen_err r k hr, andThen_err (a.after r) k hr]

theorem increaseDelta_after (st : Stream) (r : Run) : increaseDelta p st (a.after r) = a.after (increaseDelta p st r) := by
  unfold increaseDelta
  by_cases hi : r.engine.index st = BitVec.allOnes 64
  · rw [if_pos hi, ← raise_after]
    exact if_pos (by cases st <;> exact hi)
  · rw [if_neg hi]
    cases st <;> exact if_neg hi

theorem blockOp_after (blk : Bytes) (r : Run) : blockOp p blk (a.after r) = ((blockOp p blk r).1, a.after (blockOp p blk r).2) := by
  unfold blockOp
  rw [after_cfgMode]
  split
  · unfold ecbBlock
    rw [after_cfgDir]
    split <;> exact ask_after a p _ blk r
  · unfold ctrBlock
    rw [ask_after]
    rfl
  · unfold ocb3Block
    dsimp only
    rw [increaseDelta_after, after_err, after_cfgDir]
    simp only [ask_after]
    split <;> rfl

theorem release_after (r : Run) : release p (a.after r) = a.after (release p r) := by
  unfold release
  rw [after_buf, blockOp_after]
  refine andThen_after ?_
  rw [out_after]
  exact modify_after a (fun _ _ => rfl) _

theorem makeRoom_after (r : Run) : makeRoom p (a.after r) = a.after (makeRoom p r) := by
  unfold makeRoom
  rw [after_holdBack, after_buf]
  exact ite_after (release_after a p r) rfl

theorem pushByte_after (x : Byte) (r : Run) : pushByte p x (a.after r) = a.after (pushByte p x r) := by
  unfold pushByte
  dsimp only
  rw [modify_after a (fun _ _ => rfl), after_holdBack, after_buf]
  exact ite_after (release_after a p _) rfl

theorem feed_after (r : Run) (x : Byte) : feed p (a.after r) x = a.after (feed p r x) := by
  refine andThen_after ?_
  rw [makeRoom_after]
  exact andThen_after (pushByte_after a p x _)

theorem aadFeed_after (r : Run) (x : Byte) : aadFeed p (a.after r) x = a.after (aadFeed p r x) := by
  refine andThen_after ?_
  dsimp only
  rw [modify_after a (fun _ _ => rfl), after_abuf, increaseDelta_after]
  refine ite_after (andThen_after ?_) rfl
  rw [ask_after]
  exact modify_after a (fun _ _ => rfl) _

/-- A byte loop goes on from an earlier run. -/
theorem loop_after (st : Stream) (bs : Bytes) (r : Run) :
    bs.foldl (st.feedByte p) (a.after r) = a.after (bs.foldl (st.feedByte p) r) := by
  refine List.foldl_hom (Run.after a) fun r x => ?_
  cases st
  · exact feed_after a p r x
  · exact aadFeed_after a p r x

theorem finalEcb_after (r : Run) :
    finalEcbEncPad p (a.after r) = a.after (finalEcbEncPad p r) ∧ finalEcbDecPad p (a.after r) = a.after (finalEcbDecPad p r) ∧
      finalEcbNoPad p (a.after r) = a.after (finalEcbNoPad p r) := by
  refine ⟨?_, ?_, ?_⟩
  · unfold finalEcbEncPad
    simp only [after_buf, ask_after, out_after]
    rfl
  · unfold finalEcbDecPad
    simp only [after_buf, ask_after, out_after, raise_after]
    refine ite_after rfl ?_
    split <;> rfl
  · unfold finalEcbNoPad ecbBlock
    simp only [after_buf, after_cfgDir, ask_after, raise_after]
    refine ite_after rfl (ite_after ?_ rfl)
    split <;> simp only [out_after] <;> rfl

theorem finalCtr_after (r : Run) : finalCtr p (a.after r) = a.after (finalCtr p r) := by
  unfold finalCtr
  simp only [after_buf, ask_after, out_after]
  exact ite_after rfl rfl

theorem foldAad_after (r : Run) : foldAad p (a.after r) = a.after (foldAad p r) := by
  unfold foldAad
  dsimp only
  rw [after_abuf, modify_after a (fun _ _ => rfl), ask_after]
  exact ite_after rfl rfl

theorem foldMessage_after (r : Run) : foldMessage p (a.after r) = a.after (foldMessage p r) := by
  unfold foldMessage
  dsimp only
  rw [after_buf, modify_after a (fun _ _ => rfl), ask_after, out_after]
  exact ite_after rfl rfl

theorem emitTag_after (r : Run) : emitTag p (a.after r) = a.after (emitTag p r) := by
  unfold emitTag
  dsimp only
  rw [modify_after a (fun _ _ => rfl), ask_after, out_after]
  rfl

/-- Final goes on from an earlier run. -/
theorem final_after (r : Run) : final p (a.after r) = a.after (final p r) := by
  obtain ⟨hencPad, hdecPad, hnoPad⟩ := finalEcb_after a p r
  unfold final
  rw [after_cfgMode, after_cfgPad, after_cfgDir]
  split
  · exact hencPad
  · exact hdecPad
  · exact hnoPad
  · exact finalCtr_after a p r
  · rw [finalOcb3, foldAad_after, foldMessage_after, emitTag_after, finalOcb3]

end

/-! ### Two commands as one run -/

/-- Two runs in a row, shown as one. -/
def Run.seq (a b : Run) : Run := ⟨b.engine, a.dout ++ b.dout, a.requests ++ b.requests, b.err⟩

/-- A command's end after an earlier run: its own new session, or FAILED (60_exceptions.md R276). -/
theorem andThen_enter_after {a b : Run} {next : Session → Session} (hfail : b.err ≠ .ok → b.engine.session = .failed)
    (hnext : next (a.engine.session.resume b.engine.session) = next b.engine.session) (x : Session → Session) :
    (a.after b).andThen (Run.enter next) = (a.enter x).seq (b.andThen (Run.enter next)) := by
  by_cases hb : b.err = .ok
  · rw [andThen_ok b _ hb, andThen_ok (a.after b) _ hb]
    simp only [Run.enter, Run.modify, Run.after, Run.seq, hnext]
  · rw [andThen_err b _ hb, andThen_err (a.after b) _ hb]
    have hs := hfail hb
    simp only [Run.after, Run.seq, Run.enter, Run.modify, Session.resume, hs, if_true]
    rw [← hs]

theorem acceptsData_of_accepts {st : Stream} {e : Engine} (h : st.accepts e = true) : e.session.acceptsData = true := by
  cases st
  · exact h
  · rw [Stream.accepts, Bool.and_eq_true] at h
    exact h.1

theorem next_next (st : Stream) (x : Session) : st.next (st.next x) = st.next x := by
  cases st
  · rfl
  · cases x <;> rfl

/-- A stream's command that succeeds was accepted, and its byte loop succeeded. -/
theorem streamRun_of_ok {p : Params} {st : Stream} {bs : Bytes} {e : Engine} (h : (streamRun p st bs e).err = .ok) :
    st.accepts e = true ∧ (bs.foldl (st.feedByte p) (Run.start e)).err = .ok ∧
      streamRun p st bs e = (bs.foldl (st.feedByte p) (Run.start e)).enter st.next := by
  cases hacc : st.accepts e
  · rw [streamRun_refused hacc] at h
    cases h
  · rw [streamRun_accepted hacc] at h ⊢
    by_cases hr : (bs.foldl (st.feedByte p) (Run.start e)).err = .ok
    · exact ⟨rfl, hr, andThen_ok _ _ hr⟩
    · rw [andThen_err _ _ hr] at h
      exact absurd h hr

/-- Two commands of a stream that succeed are one with the bytes of both (41_engine.md R125). -/
theorem streamRun_append {p : Params} {st : Stream} {x y : Bytes} {e : Engine} (hx : (streamRun p st x e).err = .ok)
    (hy : (streamRun p st y (streamRun p st x e).engine).err = .ok) :
    streamRun p st (x ++ y) e = (streamRun p st x e).seq (streamRun p st y (streamRun p st x e).engine) := by
  obtain ⟨hacc, hr, hrun⟩ := streamRun_of_ok hx
  rw [hrun] at hy ⊢
  obtain ⟨hacc', hr', hrun'⟩ := streamRun_of_ok hy
  have hs := (loop_streams p st x e).session hr
  have hs' := (loop_streams p st y ((x.foldl (st.feedByte p) (Run.start e)).enter st.next).engine).session hr'
  rw [hrun', streamRun_accepted hacc, List.foldl_append]
  generalize x.foldl (st.feedByte p) (Run.start e) = a at *
  have hne : st.next a.engine.session ≠ .failed := ne_failed_of_acceptsData (acceptsData_of_accepts hacc')
  have hloop : y.foldl (st.feedByte p) a = a.after (y.foldl (st.feedByte p) (Run.start (a.enter st.next).engine)) := by
    rw [← loop_after]
    exact congrArg (y.foldl (st.feedByte p)) (after_start hr hne).symm
  rw [hloop]
  generalize y.foldl (st.feedByte p) (Run.start (a.enter st.next).engine) = b at *
  change b.engine.session = st.next a.engine.session at hs'
  rw [andThen_enter_after (fun h => absurd hr' h) (by rw [hs', next_next, Session.resume, if_neg hne]) st.next,
    andThen_ok b _ hr']

/-- DO_FINAL with data is UPDATE with it and DO_FINAL without, where UPDATE succeeds (41_engine.md R126). -/
theorem doFinalRun_eq_seq {p : Params} {msg : Bytes} {e : Engine} (h : (updateRun p msg e).err = .ok) :
    doFinalRun p msg e = (updateRun p msg e).seq (doFinalRun p [] (updateRun p msg e).engine) := by
  obtain ⟨hacc, hr, hrun⟩ := streamRun_of_ok (st := .msg) h
  change updateRun p msg e = (feedAll p msg (Run.start e)).enter fun _ => .messageAccepting at hrun
  change (feedAll p msg (Run.start e)).err = .ok at hr
  rw [hrun, doFinalRun_accepted hacc]
  generalize feedAll p msg (Run.start e) = a at *
  have hfinal : final p a = a.after (final p (Run.start (a.enter fun _ => .messageAccepting).engine)) := by
    rw [← final_after]
    exact congrArg (final p) (after_start hr (x := .messageAccepting) (by simp)).symm
  have hend : doFinalRun p [] (a.enter fun _ => .messageAccepting).engine =
      (final p (Run.start (a.enter fun _ => .messageAccepting).engine)).andThen (Run.enter fun _ => .finalized) :=
    doFinalRun_accepted rfl
  rw [andThen_ok _ _ hr, hfinal, hend]
  exact andThen_enter_after (final_failed rfl) rfl _

/-- Where UPDATE fails, DO_FINAL with the same data fails alike (41_engine.md R126). -/
theorem doFinalRun_of_update_err {p : Params} {msg : Bytes} {e : Engine} (h : (updateRun p msg e).err ≠ .ok) :
    doFinalRun p msg e = updateRun p msg e := by
  unfold doFinalRun
  unfold updateRun at h ⊢
  split at h
  next hacc =>
    rw [if_pos hacc, if_pos hacc]
    have hr : (feedAll p msg (Run.start e)).err ≠ .ok := fun hr => h (by rw [andThen_ok _ _ hr]; exact hr)
    rw [andThen_err _ (final p) hr, andThen_err _ _ hr, andThen_err _ _ hr]
  next hacc => rw [if_neg hacc, if_neg hacc]

/-! ### What the host is shown of a command -/

/-- The machine after a command on exactly its data-in. -/
def State.ran (s : State) (r : Run) : State := ({ s with input := [] } : State).answer r

theorem issue_supplied {i : Instr} {din : Bytes} (hl : din.length = i.dataLength) (s : State) :
    issue i din s = .next (s.ran (Instr.run i s.params din s.engine)) :=
  exec_supplied i { s with input := sendBytes din } din [] hl (List.append_nil _).symm

theorem issue_instr (st : Stream) (din : Bytes) (s : State) :
    issue (st.instr din.length) din s = .next (s.ran (streamRun s.params st din s.engine)) := by
  rw [issue_supplied (instr_dataLength st _).symm, run_instr]

@[simp] theorem ran_params (s : State) (r : Run) : (s.ran r).params = s.params := rfl
@[simp] theorem ran_engine (s : State) (r : Run) : (s.ran r).engine = r.engine := rfl
@[simp] theorem ran_requests (s : State) (r : Run) : (s.ran r).requests = s.requests ++ r.requests := rfl

theorem ran_responses_prefix (s : State) (r : Run) : s.responses <+: (s.ran r).responses := List.prefix_append _ _

@[simp] theorem responsesSince_ran (s : State) (r : Run) : responsesSince s (s.ran r) = [r.response] :=
  List.drop_left

@[simp] theorem outputSince_ran (s : State) (r : Run) : outputSince s (s.ran r) = r.dout := by
  simp [outputSince]

theorem response_err (r : Run) : r.response.err = r.err.code := by
  obtain ⟨-, -, herr, -⟩ := statusWordFields r.err r.engine
  exact herr

theorem allOk_ran (s : State) (r : Run) : allOk s (s.ran r) ↔ r.err = .ok := by
  simp only [allOk, responsesSince_ran, List.mem_singleton, forall_eq, response_err]
  cases r.err <;> simp [Err.code]

theorem responsesSince_trans {s t u : State} (h : s.responses <+: t.responses) (h' : t.responses <+: u.responses) :
    responsesSince s u = responsesSince s t ++ responsesSince t u := by
  obtain ⟨x, hx⟩ := h
  obtain ⟨y, hy⟩ := h'
  simp [responsesSince, ← hy, ← hx]

theorem outputSince_trans {s t u : State} (h : s.responses <+: t.responses) (h' : t.responses <+: u.responses) :
    outputSince s u = outputSince s t ++ outputSince t u := by
  simp [outputSince, responsesSince_trans h h']

theorem allOk_trans {s t u : State} (h : s.responses <+: t.responses) (h' : t.responses <+: u.responses) :
    allOk s u ↔ allOk s t ∧ allOk t u := by
  simp only [allOk, responsesSince_trans h h', List.forall_mem_append]

/-- Settles O38: the run of the single command is that of the two, or fails as the first does. -/
theorem doFinalIsUpdateThenFinal : Obligations.DoFinalIsUpdateThenFinal := by
  intro s msg _
  let r := updateRun s.params msg s.engine
  let r' := doFinalRun s.params [] r.engine
  refine ⟨s.ran r, s.ran (doFinalRun s.params msg s.engine), issue_supplied rfl s, issue_supplied rfl s, ?_, ?_⟩
  · rw [allOk_ran]
    intro hok
    have hv := ran_responses_prefix (s.ran r) r'
    rw [show doFinalRun s.params msg s.engine = r.seq r' from doFinalRun_eq_seq hok]
    refine ⟨(s.ran r).ran r', issue_supplied rfl _, rfl, ?_, ?_, ?_⟩
    · rw [outputSince_trans (ran_responses_prefix s r) hv]
      simp [Run.seq]
    · simp [Run.seq]
    · simp [response_err, Run.seq]
  · rw [allOk_ran]
    intro herr
    rw [show doFinalRun s.params msg s.engine = r from doFinalRun_of_update_err herr]
    exact ⟨rfl, rfl, rfl⟩

/-! ### Splitting a stream (41_engine.md R125) -/

theorem issueAll_instr_cons (st : Stream) (d : Bytes) (ds : List Bytes) (s : State) :
    issueAll ((d :: ds).map fun d => (st.instr d.length, d)) s =
      issueAll (ds.map fun d => (st.instr d.length, d)) (s.ran (streamRun s.params st d s.engine)) := by
  simp only [List.map_cons, issueAll, issue_instr]

theorem issueAll_instr_responses {st : Stream} {ds : List Bytes} {s t : State}
    (h : issueAll (ds.map fun d => (st.instr d.length, d)) s = .next t) : s.responses <+: t.responses := by
  induction ds generalizing s with
  | nil =>
    cases h
    exact List.prefix_refl _
  | cons d ds ih =>
    rw [issueAll_instr_cons] at h
    exact (ran_responses_prefix _ _).trans (ih h)

/-- Commands of a stream that all succeed show together the run of one command. -/
theorem issueAll_instr {st : Stream} {parts : List Bytes} {s t : State} (hne : parts ≠ [])
    (h : issueAll (parts.map fun d => (st.instr d.length, d)) s = .next t) (hok : allOk s t) :
    let r := streamRun s.params st parts.flatten s.engine
    r.err = .ok ∧ t.engine = r.engine ∧ outputSince s t = r.dout ∧ t.requests = s.requests ++ r.requests := by
  induction parts generalizing s with
  | nil => exact absurd rfl hne
  | cons d ds ih =>
    rw [issueAll_instr_cons] at h
    have hs := ran_responses_prefix s (streamRun s.params st d s.engine)
    have ht := issueAll_instr_responses h
    rw [allOk_trans hs ht, allOk_ran] at hok
    obtain ⟨hd, hds⟩ := hok
    cases ds with
    | nil =>
      cases h
      simp [hd]
    | cons d' ds' =>
      obtain ⟨herr, heng, hout, hreq⟩ := ih (by simp) h hds
      rw [ran_params, ran_engine] at herr heng hout hreq
      rw [List.flatten_cons, streamRun_append hd herr]
      refine ⟨herr, heng, ?_, ?_⟩
      · rw [outputSince_trans hs ht, hout, outputSince_ran]
        rfl
      · rw [hreq, ran_requests, List.append_assoc]
        rfl

theorem issue_flatten {st : Stream} {parts : List Bytes} {s t : State} (hne : parts ≠ [])
    (h : issueAll (parts.map fun d => (st.instr d.length, d)) s = .next t) (hok : allOk s t) :
    ∃ u, issue (st.instr parts.flatten.length) parts.flatten s = .next u ∧ allOk s u ∧ u.engine = t.engine ∧
      outputSince s u = outputSince s t ∧ u.requests = t.requests := by
  obtain ⟨herr, heng, hout, hreq⟩ := issueAll_instr hne h hok
  exact ⟨_, issue_instr st _ s, (allOk_ran s _).2 herr, heng.symm, by rw [outputSince_ran, hout], hreq.symm⟩

/-- Settles O39: the message stream's case. -/
theorem messageSplitsDoNotMatter : Obligations.MessageSplitsDoNotMatter :=
  fun _ _ _ hne h hok => issue_flatten (st := .msg) hne h hok

/-- Settles O40: the AAD stream's case. -/
theorem aadSplitsDoNotMatter : Obligations.AadSplitsDoNotMatter := by
  intro s t parts hne h hok
  obtain ⟨u, hu, hok', heng, -, hreq⟩ := issue_flatten (st := .aad) hne h hok
  exact ⟨u, hu, hok', heng, hreq⟩

end Sys2Proof.Machine
end

section
/-! PROOFS of the statements of 42_padding.md. What an accepted block looks like is said once, in `unpad_eq_some_iff`; the two
directions of the round trip then read the padding byte off the block's last place. -/

namespace Sys2Proof.Machine

/-- Rules R152 to R154: the padding byte p is in 1..b, the last p bytes are all p, and the bytes before them are the answer. -/
theorem unpad_eq_some_iff {b : Nat} {blk src : Bytes} {p : Byte} (hp : blk.getD (b - 1) 0#8 = p) :
    unpad b blk = some src ↔
      1 ≤ p.toNat ∧ p.toNat ≤ b ∧ (∀ x ∈ blk.drop (b - p.toNat), x = p) ∧ blk.take (b - p.toNat) = src := by
  subst hp
  rw [unpad, Option.ite_none_left_eq_some, Option.ite_none_right_eq_some, Option.some_inj, List.all_eq_true, not_or, not_lt,
    ← ne_eq, ← Nat.one_le_iff_ne_zero, and_assoc]
  simp only [beq_iff_eq]

/-- The last byte of padding tells how long the padding is (rule R150). -/
theorem getD_pad_last {b : Nat} {src : Bytes} (hr : src.length < b) :
    (pad b src).getD (b - 1) 0#8 = BitVec.ofNat 8 (b - src.length) := by
  rw [pad, List.getD_append_right _ _ _ _ (by omega), List.getD_replicate _ (by omega)]

/-- Rule R155: b at most 255 keeps the padding's length in one byte. -/
theorem unpad_pad {b : Nat} {src : Bytes} (hb : b ≤ 255) (hr : src.length < b) : unpad b (pad b src) = some src := by
  have hq : (BitVec.ofNat 8 (b - src.length)).toNat = b - src.length := Nat.mod_eq_of_lt (by omega)
  have hcut : b - (b - src.length) = src.length := by omega
  rw [unpad_eq_some_iff (getD_pad_last hr), hq, hcut, pad, List.drop_left, List.take_left]
  exact ⟨by omega, by omega, fun _ hx => List.eq_of_mem_replicate hx, rfl⟩

/-- An accepted block is the padding of its answer. -/
theorem eq_pad_of_unpad {b : Nat} {blk src : Bytes} (hlen : blk.length = b) (h : unpad b blk = some src) :
    src.length < b ∧ blk = pad b src := by
  obtain ⟨hpos, hle, hall, rfl⟩ := (unpad_eq_some_iff rfl).1 h
  generalize blk.getD (b - 1) 0#8 = p at hpos hle hall ⊢
  have hsrc : (blk.take (b - p.toNat)).length = b - p.toNat := List.length_take_of_le (by omega)
  have hq : b - (b - p.toNat) = p.toNat := by omega
  have htail : blk.drop (b - p.toNat) = List.replicate p.toNat p :=
    List.eq_replicate_iff.2 ⟨by rw [List.length_drop, hlen, hq], hall⟩
  refine ⟨by omega, ?_⟩
  rw [pad, hsrc, hq, BitVec.ofNat_toNat, BitVec.setWidth_eq, ← htail, List.take_append_drop]

/-- Settles O42: an accepted block is the padding of its answer, and a padded source is accepted. -/
theorem unpadInvertsPad : Obligations.UnpadInvertsPad := by
  intro b blk src _ hb hlen
  refine ⟨eq_pad_of_unpad hlen, ?_⟩
  rintro ⟨hr, rfl⟩
  exact unpad_pad hb hr

end Sys2Proof.Machine
end

section
/-! PROOFS of the statements of 43_ecb.md. A data command on an ECB session is described once, as a run: the byte loop releases blocks
(`ecbReleased`), and each Final has one equation per outcome. The statements about `exec` and the round trip of two sessions both read
off these equations. -/

namespace Sys2Proof.Machine

/-! ### INIT_MODE.ECB (43_ecb.md R160) -/

theorem initModeRun_ecb {p : Params} {dir : Dir} {pad : Bool} {e : Engine} (h : e.session ≠ .uninit) :
    initModeRun p .ecb dir pad 0 (initEcb 0 0) e = Run.start (Engine.configured p e.key .ecb dir pad 0#8) :=
  initModeRun_keyed h

/-- Settles O19: the ECB part writes nothing, so the registers are those of a fresh session. -/
theorem initModeEcbConfigures : Obligations.InitModeEcbConfigures := by
  intro s dir pad hs
  rw [exec_supplied (.initModeEcb dir pad 0 0) s [] s.input rfl rfl, Instr.run, List.length_nil, initModeRun_ecb hs]
  rfl

/-! ### The byte loop (43_ecb.md R161, R162) -/

/-- An ECB session that accepts data, in an engine the spec defines. -/
structure Engine.EcbReady (p : Params) (e : Engine) : Prop where
  wf : p.Wf
  buf : e.BufferInv p
  accepts : e.session.acceptsData = true
  mode : e.cfgMode = .ecb

/-- The run that has put the first n blocks of a text through the cipher, in order, and holds the rest in BUF. -/
def ecbReleased (p : Params) (e : Engine) (text : Bytes) (n : Nat) : Run where
  engine := { e with buf := remainder p.blockBytes text n }
  dout := (List.range n).flatMap fun i => cipherOf p e.cfgDir e.boundKey (blockAt p.blockBytes text i)
  requests := (List.range n).map fun i => ⟨opOf e.cfgDir, e.boundKey, blockAt p.blockBytes text i⟩
  err := .ok

theorem feedAll_ecb {p : Params} {e : Engine} (h : e.EcbReady p) (msg : Bytes) :
    feedAll p msg (Run.start e) =
      ecbReleased p e (e.buf ++ msg) (releasedBlocks e.holdBack p.blockBytes (e.buf ++ msg).length) := by
  have hloop := feedAll_eq p msg (Run.start e) h.wf.1 rfl h.buf.buf (h.buf.bufEager (ne_failed_of_acceptsData h.accepts))
  dsimp only [start_engine] at hloop
  generalize releasedBlocks e.holdBack p.blockBytes (e.buf ++ msg).length = n at hloop ⊢
  have hblocks := releaseBlocks_ecb p ((List.range n).map (blockAt p.blockBytes (e.buf ++ msg)))
    (remainder p.blockBytes (e.buf ++ msg) n) (Run.start e) rfl h.mode
  have hok : (releaseBlocks p ((List.range n).map (blockAt p.blockBytes (e.buf ++ msg))) (Run.start e)).err = .ok :=
    congrArg Run.err hblocks
  rw [hloop, andThen_ok _ _ hok, hblocks, List.flatMap_map, List.map_map]
  rfl

/-- Settles O24: the byte loop's blocks, under the session's release policy. -/
theorem updateEcbReleasesBlocks : Obligations.UpdateEcbReleasesBlocks := by
  intro s msg rest p e b text n hwf hbuf hs hm hin
  have hloop : msg.foldl (Stream.msg.feedByte p) (Run.start e) = ecbReleased p e text n := feedAll_ecb ⟨hwf, hbuf, hs, hm⟩ msg
  have hacc : Stream.msg.accepts e = true := hs
  refine (exec_instr .msg hin).trans ?_
  rw [streamRun_accepted hacc, hloop]
  rfl

/-! ### DO_FINAL -/

theorem exec_doFinal {s : State} {msg : Bytes} {rest : List HostInput} {r : Run} (hin : s.input = sendBytes msg ++ rest)
    (hr : doFinalRun s.params msg s.engine = r) :
    exec (.doFinal msg.length) s = .next (s.answered rest r.engine r.err r.dout r.requests) := by
  subst hr
  exact exec_supplied (.doFinal msg.length) s msg rest rfl hin

theorem doFinalRun_ecb {p : Params} {e : Engine} (h : e.EcbReady p) (msg : Bytes) :
    doFinalRun p msg e =
      (final p (ecbReleased p e (e.buf ++ msg) (releasedBlocks e.holdBack p.blockBytes (e.buf ++ msg).length))).andThen
        (Run.enter fun _ => .finalized) := by
  rw [doFinalRun_accepted h.accepts, feedAll_ecb h, andThen_ok _ (final p) rfl]

/-- The run of a Final that has succeeded: BUF empty, the session FINALIZED (41_engine.md R118, R123). -/
def Run.finalized (r : Run) (dout : Bytes) (asked : List CipherRequest) : Run where
  engine := { r.engine with session := .finalized, buf := [] }
  dout := r.dout ++ dout
  requests := r.requests ++ asked
  err := .ok

theorem andThen_finalized {r : Run} (hr : r.err = .ok) (hb : r.engine.buf = []) :
    r.andThen (Run.enter fun _ => .finalized) = r.finalized [] [] := by
  rw [andThen_ok _ _ hr]
  simp [Run.enter, Run.modify, Run.finalized, hr, hb]

/-! ### Encrypt with PKCS7 (43_ecb.md R163) -/

theorem doFinalRun_encPad {p : Params} {e : Engine} (h : e.EcbReady p) (hp : e.cfgPad = true) (hd : e.cfgDir = .encrypt)
    (msg : Bytes) :
    let text := e.buf ++ msg
    let n := text.length / p.blockBytes
    let last := pad p.blockBytes (remainder p.blockBytes text n)
    doFinalRun p msg e =
      (ecbReleased p e text n).finalized (cipherEnc p e.boundKey last) [⟨.enc, e.boundKey, last⟩] := by
  intro text n last
  have hhold : e.holdBack = false := by simp [Engine.holdBack, hd]
  have hfinal : ∀ n, final p (ecbReleased p e text n) = finalEcbEncPad p (ecbReleased p e text n) := by
    simp [final, ecbReleased, h.mode, hp, hd]
  rw [doFinalRun_ecb h, hhold, hfinal]
  rfl

/-- Settles O28: the remainder, padded, is the one block of Final. -/
theorem doFinalEcbEncryptPads : Obligations.DoFinalEcbEncryptPads := by
  intro s msg rest p e b text n r last hwf hbuf hs hm hp hd hin
  rw [exec_doFinal hin (doFinalRun_encPad ⟨hwf, hbuf, hs, hm⟩ hp hd msg)]
  simp only [Run.finalized, ecbReleased, hd]
  rfl

/-! ### Decrypt with PKCS7 (43_ecb.md R164) -/

/-- Hold-back leaves exactly a block when the text is one or more whole blocks. -/
theorem length_remainder_heldBack {b : Nat} (hb : 1 ≤ b) (text : Bytes) :
    (remainder b text (releasedBlocks true b text.length)).length = b ↔ text.length ≠ 0 ∧ text.length % b = 0 := by
  rw [remainder_length, releasedBlocks, if_pos rfl]
  have hdiv := Nat.div_add_mod (text.length - 1) b
  have hmod := Nat.mod_lt (text.length - 1) hb
  generalize (text.length - 1) / b = q at hdiv ⊢
  generalize (text.length - 1) % b = m at hdiv hmod
  by_cases h0 : text.length = 0
  · omega
  have hlen : text.length = b * q + (m + 1) := by omega
  rw [hlen, Nat.mul_add_mod]
  by_cases hm : m + 1 = b
  · rw [hm, Nat.mod_self]
    omega
  · rw [Nat.mod_eq_of_lt (by omega)]
    omega

theorem finalEcbDecPad_illegalLength {p : Params} {r : Run} (h : r.engine.buf.length ≠ p.blockBytes) :
    finalEcbDecPad p r = r.raise .illegalLength := if_pos h

theorem finalEcbDecPad_unpadded {p : Params} {r : Run} {src : Bytes} (h : r.engine.buf.length = p.blockBytes)
    (hu : unpad p.blockBytes (cipherDec p r.engine.boundKey r.engine.buf) = some src) :
    finalEcbDecPad p r = ((r.ask p .dec r.engine.buf).2.out src).setBuf [] := by
  simp only [finalEcbDecPad, h, ne_eq, not_true_eq_false, if_false, ask_dec, hu]
  rfl

theorem finalEcbDecPad_invalidPadding {p : Params} {r : Run} (h : r.engine.buf.length = p.blockBytes)
    (hu : unpad p.blockBytes (cipherDec p r.engine.boundKey r.engine.buf) = none) :
    finalEcbDecPad p r = (r.ask p .dec r.engine.buf).2.raise .invalidPadding := by
  simp only [finalEcbDecPad, h, ne_eq, not_true_eq_false, if_false, ask_dec, hu]

section
variable {p : Params} {e : Engine} (h : e.EcbReady p) (hp : e.cfgPad = true) (hd : e.cfgDir = .decrypt) (msg : Bytes)
include h hp hd

theorem doFinalRun_decPad :
    let text := e.buf ++ msg
    let n := releasedBlocks true p.blockBytes text.length
    doFinalRun p msg e = (finalEcbDecPad p (ecbReleased p e text n)).andThen (Run.enter fun _ => .finalized) := by
  intro text n
  have hhold : e.holdBack = true := by simp [Engine.holdBack, h.mode, hp, hd]
  have hfinal : final p (ecbReleased p e text n) = finalEcbDecPad p (ecbReleased p e text n) := by
    simp [final, ecbReleased, h.mode, hp, hd]
  rw [doFinalRun_ecb h, hhold, ← hfinal]

theorem doFinalRun_decPad_illegalLength :
    let text := e.buf ++ msg
    let n := releasedBlocks true p.blockBytes text.length
    text.length = 0 ∨ text.length % p.blockBytes ≠ 0 →
      doFinalRun p msg e = (ecbReleased p e text n).raise .illegalLength := by
  intro text n hl
  have hbuf : (remainder p.blockBytes text n).length ≠ p.blockBytes := by
    rw [ne_eq, length_remainder_heldBack h.wf.1, not_and_or, not_ne_iff]
    exact hl
  rw [doFinalRun_decPad h hp hd, finalEcbDecPad_illegalLength hbuf]
  rfl

theorem doFinalRun_decPad_unpadded {src : Bytes} :
    let text := e.buf ++ msg
    let n := releasedBlocks true p.blockBytes text.length
    let held := remainder p.blockBytes text n
    held.length = p.blockBytes → unpad p.blockBytes (cipherDec p e.boundKey held) = some src →
      doFinalRun p msg e = (ecbReleased p e text n).finalized src [⟨.dec, e.boundKey, held⟩] := by
  intro text n held hheld hu
  rw [doFinalRun_decPad h hp hd, finalEcbDecPad_unpadded hheld hu]
  rfl

theorem doFinalRun_decPad_invalidPadding :
    let text := e.buf ++ msg
    let n := releasedBlocks true p.blockBytes text.length
    let held := remainder p.blockBytes text n
    held.length = p.blockBytes → unpad p.blockBytes (cipherDec p e.boundKey held) = none →
      doFinalRun p msg e = ((ecbReleased p e text n).ask p .dec held).2.raise .invalidPadding := by
  intro text n held hheld hu
  rw [doFinalRun_decPad h hp hd, finalEcbDecPad_invalidPadding hheld hu]
  rfl

end

/-- Settles O29: BUF holds a whole block exactly when the text is whole blocks, and `Unpad` accepts exactly the padded blocks. -/
theorem doFinalEcbDecryptUnpads : Obligations.DoFinalEcbDecryptUnpads := by
  intro s msg rest p e b text n blocks asked r last padded hwf hbuf hs hm hp hd hin
  have h : e.EcbReady p := ⟨hwf, hbuf, hs, hm⟩
  have hreleased : ecbReleased p e text n = ⟨{ e with buf := r }, blocks, asked, .ok⟩ := by
    simp only [ecbReleased, hd]
    rfl
  refine ⟨fun hl => ?_, fun h0 hmod => ?_⟩
  · have hrun : doFinalRun p msg e = (ecbReleased p e text n).raise .illegalLength :=
      doFinalRun_decPad_illegalLength h hp hd msg hl
    rw [exec_doFinal hin hrun, hreleased]
    rfl
  have hheld : r.length = b := (length_remainder_heldBack hwf.1 text).2 ⟨h0, hmod⟩
  refine ⟨fun src hsrc hlast => ?_, fun hlast => ?_⟩
  · have hu : unpad b last = some src := by
      rw [hlast]
      exact unpad_pad hwf.2 hsrc
    rw [exec_doFinal hin (doFinalRun_decPad_unpadded h hp hd msg hheld hu), hreleased]
    rfl
  · have hu : unpad b last = none := by
      rw [Option.eq_none_iff_forall_ne_some]
      intro src hu
      obtain ⟨hsrc, hpad⟩ := eq_pad_of_unpad (cipherDec_length _ _ _) hu
      exact hlast src hsrc hpad
    rw [exec_doFinal hin (doFinalRun_decPad_invalidPadding h hp hd msg hheld hu), hreleased]
    rfl

/-! ### No padding (43_ecb.md R165) -/

theorem finalEcbNoPad_empty {p : Params} {r : Run} (h : r.engine.buf = []) : finalEcbNoPad p r = r :=
  if_pos (List.length_eq_zero_iff.2 h)

theorem finalEcbNoPad_residue {p : Params} {r : Run} (h0 : r.engine.buf.length ≠ 0) (hb : r.engine.buf.length < p.blockBytes) :
    finalEcbNoPad p r = r.raise .illegalLength :=
  (if_neg h0).trans (if_neg hb.ne)

theorem length_remainder_div (b : Nat) (text : Bytes) : (remainder b text (text.length / b)).length = text.length % b := by
  rw [remainder_length, Nat.mod_eq_sub_mul_div]

section
variable {p : Params} {e : Engine} (h : e.EcbReady p) (hp : e.cfgPad = false) (msg : Bytes)
include h hp

theorem doFinalRun_noPad :
    let text := e.buf ++ msg
    doFinalRun p msg e =
      (finalEcbNoPad p (ecbReleased p e text (text.length / p.blockBytes))).andThen (Run.enter fun _ => .finalized) := by
  intro text
  have hhold : e.holdBack = false := by simp [Engine.holdBack, hp]
  have hfinal : ∀ n, final p (ecbReleased p e text n) = finalEcbNoPad p (ecbReleased p e text n) := by
    simp [final, ecbReleased, h.mode, hp]
  rw [doFinalRun_ecb h, hhold, hfinal]
  rfl

theorem doFinalRun_noPad_whole :
    let text := e.buf ++ msg
    text.length % p.blockBytes = 0 →
      doFinalRun p msg e = (ecbReleased p e text (text.length / p.blockBytes)).finalized [] [] := by
  intro text hmod
  have hnil : remainder p.blockBytes text (text.length / p.blockBytes) = [] :=
    List.eq_nil_of_length_eq_zero ((length_remainder_div _ _).trans hmod)
  rw [doFinalRun_noPad h hp, finalEcbNoPad_empty hnil, andThen_finalized rfl hnil]

theorem doFinalRun_noPad_residue :
    let text := e.buf ++ msg
    text.length % p.blockBytes ≠ 0 →
      doFinalRun p msg e = (ecbReleased p e text (text.length / p.blockBytes)).raise .illegalLength := by
  intro text hmod
  have hlen := length_remainder_div p.blockBytes text
  have hlt := Nat.mod_lt text.length h.wf.1
  rw [doFinalRun_noPad h hp, finalEcbNoPad_residue (hlen.trans_ne hmod) (hlen.trans_lt hlt)]
  rfl

end

/-- Settles O30: what the loop leaves in BUF is the residue, and without padding Final takes none. -/
theorem doFinalEcbNeedsWholeBlocks : Obligations.DoFinalEcbNeedsWholeBlocks := by
  intro s msg rest p e b text n blocks asked hwf hbuf hs hm hp hin
  have h : e.EcbReady p := ⟨hwf, hbuf, hs, hm⟩
  refine ⟨fun hmod => ?_, fun hmod => ?_⟩
  · rw [exec_doFinal hin (doFinalRun_noPad_whole h hp msg hmod)]
    simp only [Run.finalized, List.append_nil]
    rfl
  · rw [exec_doFinal hin (doFinalRun_noPad_residue h hp msg hmod)]
    rfl

/-! ### A session of two commands -/

theorem configured_ecbReady {p : Params} (hwf : p.Wf) (key : Option Bytes) (dir : Dir) (pad : Bool) :
    (Engine.configured p key .ecb dir pad 0#8).EcbReady p :=
  ⟨hwf, { reset_bufferInv hwf with bufEager := fun _ _ => hwf.1, abufEager := fun _ => hwf.1 }, rfl, rfl⟩

/-- A session of INIT_MODE.ECB and DO_FINAL shows the output of the DO_FINAL and keeps the key. -/
theorem issueAll_ecb {s : State} (hs : s.engine.session ≠ .uninit) {dir : Dir} {pad : Bool} {msg : Bytes} :
    let r := doFinalRun s.params msg (Engine.configured s.params s.engine.key .ecb dir pad 0#8)
    r.err = .ok →
      ∃ t, issueAll [(.initModeEcb dir pad 0 0, []), (.doFinal msg.length, msg)] s = .next t ∧ allOk s t ∧
        outputSince s t = r.dout ∧ t.params = s.params ∧ t.engine.key = s.engine.key ∧ t.engine.session ≠ .uninit := by
  intro r hok
  let r₀ := Run.start (Engine.configured s.params s.engine.key .ecb dir pad 0#8)
  have hinit : issue (.initModeEcb dir pad 0 0) [] s = .next (s.ran r₀) := by
    rw [issue_supplied rfl, Instr.run, List.length_nil, initModeRun_ecb hs]
  have hfinal : issue (.doFinal msg.length) msg (s.ran r₀) = .next ((s.ran r₀).ran r) := issue_supplied rfl _
  have hpre := ran_responses_prefix s r₀
  have hpre' := ran_responses_prefix (s.ran r₀) r
  refine ⟨(s.ran r₀).ran r, by simp only [issueAll, hinit, hfinal], ?_, ?_, rfl, ?_, ?_⟩
  · rw [allOk_trans hpre hpre', allOk_ran, allOk_ran]
    exact ⟨rfl, hok⟩
  · rw [outputSince_trans hpre hpre', outputSince_ran, outputSince_ran]
    rfl
  · exact (dataRun_keeps (i := .doFinal msg.length) trivial s.params msg r₀.engine).key
  · change r.engine.session ≠ .uninit
    rcases doFinalRun_cases s.params msg r₀.engine with hr | ⟨-, hr, -⟩ | ⟨-, hr⟩
    · cases hok.symm.trans (congrArg Run.err hr)
    all_goals
      rw [show r.engine.session = _ from hr]
      simp

/-! ### Texts made of blocks -/

theorem pad_length {b : Nat} {src : Bytes} (h : src.length < b) : (pad b src).length = b := by
  rw [pad, List.length_append, List.length_replicate]
  omega

/-- Hold-back releases all but the last of n + 1 whole blocks. -/
theorem releasedBlocks_heldBack {b : Nat} (hb : 1 ≤ b) (n : Nat) : releasedBlocks true b (b * n + b) = n := by
  rw [releasedBlocks, if_pos rfl, Nat.add_sub_assoc hb, Nat.mul_add_div hb, Nat.div_eq_of_lt (by omega), Nat.add_zero]

theorem length_flatMap_blocks {b : Nat} {f : Nat → Bytes} (hf : ∀ i, (f i).length = b) (n : Nat) :
    ((List.range n).flatMap f).length = b * n := by
  simp [List.length_flatMap, hf, Nat.mul_comm]

/-- A text made of blocks, cut into blocks again. -/
theorem blockAt_flatMap {b : Nat} {f : Nat → Bytes} (hf : ∀ i, (f i).length = b) {n i : Nat} (hi : i < n) (y : Bytes) :
    blockAt b ((List.range n).flatMap f ++ y) i = f i := by
  induction n generalizing y with
  | zero => cases hi
  | succ n ih =>
    rw [List.range_succ, List.flatMap_append, List.flatMap_singleton, List.append_assoc]
    rcases Nat.lt_succ_iff_lt_or_eq.1 hi with hlt | rfl
    · exact ih hlt _
    · rw [blockAt, List.drop_left' (length_flatMap_blocks hf i), List.take_left' (hf i)]

/-- The blocks of a text, put together again. -/
theorem flatMap_blockAt {b : Nat} {text : Bytes} (n : Nat) : (List.range n).flatMap (blockAt b text) = text.take (b * n) := by
  induction n with
  | zero => simp
  | succ n ih => rw [List.range_succ, List.flatMap_append, ih, List.flatMap_singleton, blockAt, Nat.mul_succ, List.take_add]

/-- Decrypting the encrypted blocks of a text gives the text's blocks, whatever follows them (00_scope.md R7). -/
theorem flatMap_decrypt_encrypt {p : Params} (hrt : CipherRoundTrips p) {key : Bytes} (hkey : key.length ∈ p.keyLengths)
    {text ct : Bytes} {n : Nat} (hn : p.blockBytes * n ≤ text.length)
    (hct : ((List.range n).flatMap fun i => cipherEnc p key (blockAt p.blockBytes text i)) <+: ct) :
    ((List.range n).flatMap fun i => cipherDec p key (blockAt p.blockBytes ct i)) = text.take (p.blockBytes * n) := by
  obtain ⟨rest, rfl⟩ := hct
  rw [← flatMap_blockAt]
  refine List.flatMap_congr fun i hi => ?_
  have hi : i < n := List.mem_range.1 hi
  rw [blockAt_flatMap (fun _ => cipherEnc_length _ _ _) hi]
  exact hrt key _ hkey (blockAt_length _ _ _ ((Nat.mul_le_mul_left _ hi).trans hn))

/-! ### The round trip of two sessions (43_ecb.md R167) -/

section
variable {p : Params} {key : Option Bytes} (hwf : p.Wf)
include hwf

theorem doFinalRun_configured_noPad {dir : Dir} {msg : Bytes} (hmod : msg.length % p.blockBytes = 0) :
    let r := doFinalRun p msg (Engine.configured p key .ecb dir false 0#8)
    r.err = .ok ∧
      r.dout = (List.range (msg.length / p.blockBytes)).flatMap fun i =>
        cipherOf p dir (key.getD []) (blockAt p.blockBytes msg i) := by
  have hr := doFinalRun_noPad_whole (configured_ecbReady hwf key dir false) rfl msg hmod
  exact ⟨congrArg Run.err hr, (congrArg Run.dout hr).trans (List.append_nil _)⟩

theorem doFinalRun_configured_encPad (msg : Bytes) :
    let n := msg.length / p.blockBytes
    let r := doFinalRun p msg (Engine.configured p key .ecb .encrypt true 0#8)
    r.err = .ok ∧
      r.dout = ((List.range n).flatMap fun i => cipherEnc p (key.getD []) (blockAt p.blockBytes msg i)) ++
        cipherEnc p (key.getD []) (pad p.blockBytes (remainder p.blockBytes msg n)) := by
  have hr := doFinalRun_encPad (configured_ecbReady hwf key .encrypt true) rfl rfl msg
  exact ⟨congrArg Run.err hr, congrArg Run.dout hr⟩

theorem doFinalRun_configured_decPad {blocks last src : Bytes} {n : Nat} (hblocks : blocks.length = p.blockBytes * n)
    (hlast : last.length = p.blockBytes) (hdec : cipherDec p (key.getD []) last = pad p.blockBytes src)
    (hsrc : src.length < p.blockBytes) :
    let ct := blocks ++ last
    let r := doFinalRun p ct (Engine.configured p key .ecb .decrypt true 0#8)
    r.err = .ok ∧ r.dout = ((List.range n).flatMap fun i => cipherDec p (key.getD []) (blockAt p.blockBytes ct i)) ++ src := by
  intro ct r
  have hn : releasedBlocks true p.blockBytes ct.length = n := by
    rw [List.length_append, hblocks, hlast, releasedBlocks_heldBack hwf.1]
  have hheld : remainder p.blockBytes ct n = last := List.drop_left' hblocks
  have hu : unpad p.blockBytes (cipherDec p (key.getD []) last) = some src := by rw [hdec, unpad_pad hwf.2 hsrc]
  rw [← hheld, ← hn] at hlast hu
  have hr := doFinalRun_decPad_unpadded (configured_ecbReady hwf key .decrypt true) rfl rfl ct hlast hu
  rw [← hn]
  exact ⟨congrArg Run.err hr, congrArg Run.dout hr⟩

variable (hrt : CipherRoundTrips p) (hkey : (key.getD []).length ∈ p.keyLengths)
include hrt hkey

/-- Without padding the ciphertext has as many blocks as the message. -/
theorem doFinalRun_roundTrip_noPad {msg : Bytes} (hmod : msg.length % p.blockBytes = 0) :
    let r := doFinalRun p msg (Engine.configured p key .ecb .encrypt false 0#8)
    let r' := doFinalRun p r.dout (Engine.configured p key .ecb .decrypt false 0#8)
    r.err = .ok ∧ r'.err = .ok ∧ r'.dout = msg := by
  intro r r'
  let n := msg.length / p.blockBytes
  let ct := (List.range n).flatMap fun i => cipherEnc p (key.getD []) (blockAt p.blockBytes msg i)
  obtain ⟨hok, hout⟩ : r.err = .ok ∧ r.dout = ct := doFinalRun_configured_noPad hwf hmod
  have hmsg : p.blockBytes * n = msg.length := Nat.mul_div_cancel' (Nat.dvd_of_mod_eq_zero hmod)
  have hct : ct.length = msg.length := (length_flatMap_blocks (fun _ => cipherEnc_length _ _ _) n).trans hmsg
  have hdec := flatMap_decrypt_encrypt hrt hkey hmsg.le (List.prefix_refl ct)
  obtain ⟨hok', hout'⟩ := doFinalRun_configured_noPad (key := key) (dir := .decrypt) (msg := ct) hwf (by rwa [hct])
  rw [← hout] at hok' hout'
  refine ⟨hok, hok', hout'.trans ?_⟩
  rw [hout, hct]
  exact hdec.trans (by rw [hmsg, List.take_length])

/-- With padding the ciphertext has one block more, which the decrypt side holds back and unpads. -/
theorem doFinalRun_roundTrip_pad (msg : Bytes) :
    let r := doFinalRun p msg (Engine.configured p key .ecb .encrypt true 0#8)
    let r' := doFinalRun p r.dout (Engine.configured p key .ecb .decrypt true 0#8)
    r.err = .ok ∧ r'.err = .ok ∧ r'.dout = msg := by
  intro r r'
  let n := msg.length / p.blockBytes
  let src := remainder p.blockBytes msg n
  let last := cipherEnc p (key.getD []) (pad p.blockBytes src)
  let blocks := (List.range n).flatMap fun i => cipherEnc p (key.getD []) (blockAt p.blockBytes msg i)
  obtain ⟨hok, hout⟩ : r.err = .ok ∧ r.dout = blocks ++ last := doFinalRun_configured_encPad hwf msg
  have hblocks : blocks.length = p.blockBytes * n := length_flatMap_blocks (fun _ => cipherEnc_length _ _ _) n
  have hsrc : src.length < p.blockBytes := (length_remainder_div _ _).trans_lt (Nat.mod_lt _ hwf.1)
  have hdec : cipherDec p (key.getD []) last = pad p.blockBytes src := hrt _ _ hkey (pad_length hsrc)
  obtain ⟨hok', hout'⟩ := doFinalRun_configured_decPad (key := key) hwf hblocks (cipherEnc_length _ _ _) hdec hsrc
  rw [← hout] at hok' hout'
  have hpre : blocks <+: r.dout := hout ▸ List.prefix_append _ _
  refine ⟨hok, hok', hout'.trans ?_⟩
  rw [flatMap_decrypt_encrypt hrt hkey (Nat.mul_div_le _ _) hpre]
  exact List.take_append_drop _ _

end

/-- Settles O55: each run outputs what the other one takes, block by block, and `Unpad` undoes `Pad`. -/
theorem ecbSessionRoundTrip : Obligations.EcbSessionRoundTrip := by
  intro s pad msg hwf hrt hs hk hpad
  have hkey : (s.engine.key.getD []).length ∈ s.params.keyLengths := by
    obtain ⟨key, hkey⟩ := Option.ne_none_iff_exists'.1 (mt hk.bound.2 hs)
    rw [hkey]
    exact hk.length key hkey
  have hruns :
      let r := doFinalRun s.params msg (Engine.configured s.params s.engine.key .ecb .encrypt pad 0#8)
      let r' := doFinalRun s.params r.dout (Engine.configured s.params s.engine.key .ecb .decrypt pad 0#8)
      r.err = .ok ∧ r'.err = .ok ∧ r'.dout = msg := by
    cases pad with
    | false => exact doFinalRun_roundTrip_noPad hwf hrt hkey (hpad rfl)
    | true => exact doFinalRun_roundTrip_pad hwf hrt hkey msg
  obtain ⟨hok, hok', hmsg⟩ := hruns
  obtain ⟨t, hst, hallst, hout, hp, hkeep, hsession⟩ := issueAll_ecb hs hok
  rw [← hout, ← hp, ← hkeep] at hok' hmsg
  obtain ⟨u, htu, halltu, hout', -⟩ := issueAll_ecb hsession hok'
  exact ⟨t, u, hst, hallst, htu, halltu, hout'.trans hmsg⟩

end Sys2Proof.Machine
end

section
/-! PROOFS of the statements of 44_ctr.md. The counter's byte loop is read as an integer once (`intOf_increment`), so the counter after n
blocks has a closed form. A data command on a CTR session is described as a run (`ctrReleased`, `doFinalRun_ctr`), and its whole output is
the text XORed with one long keystream, which is its own inverse. -/

namespace Sys2Proof.Machine

/-! ### The counter (44_ctr.md R182, R186) -/

/-- The loop on the least significant byte: a byte that wraps carries into the bytes above it. -/
theorem increment_snoc (xs : Bytes) (x : Byte) :
    increment (xs ++ [x]) = if x + 1#8 = 0#8 then increment xs ++ [0#8] else xs ++ [x + 1#8] := by
  rw [increment, List.reverse_append, List.reverse_singleton, List.singleton_append, incrementLow]
  split
  · exact List.reverse_cons
  · rw [List.reverse_cons, List.reverse_reverse]

theorem intOf_snoc (xs : Bytes) (x : Byte) : intOf (xs ++ [x]) = intOf xs * 256 + x.toNat := by
  simp [intOf_append, intOf]

theorem intOf_increment (ctr : Bytes) : intOf (increment ctr) = (intOf ctr + 1) % 2 ^ (8 * ctr.length) := by
  induction ctr using List.reverseRecOn with
  | nil => rfl
  | append_singleton xs x ih =>
    have hx := x.isLt
    have hsucc : (x + 1#8).toNat = (x.toNat + 1) % 256 := BitVec.toNat_add _ _
    rw [increment_snoc]
    split
    next hwrap =>
      rw [hwrap, BitVec.toNat_ofNat] at hsucc
      have hcarry : intOf xs * 256 + x.toNat + 1 = (intOf xs + 1) * 256 := by omega
      have hpow : 2 ^ (8 * (xs ++ [x]).length) = 2 ^ (8 * xs.length) * 256 := by
        rw [List.length_append, List.length_singleton, Nat.mul_add, Nat.pow_add]
      rw [intOf_snoc, intOf_snoc, ih, hcarry, hpow, Nat.mul_mod_mul_right]
      exact Nat.add_zero _
    next hne =>
      have hne : (x + 1#8).toNat ≠ 0 := fun h => hne (BitVec.eq_of_toNat_eq h)
      have hadd : intOf (xs ++ [x]) + 1 = intOf (xs ++ [x + 1#8]) := by
        rw [intOf_snoc, intOf_snoc]
        omega
      have hlt := intOf_lt (xs ++ [x + 1#8])
      rw [List.length_append, List.length_singleton] at hlt
      rw [hadd, List.length_append, List.length_singleton, Nat.mod_eq_of_lt hlt]

theorem incrementLow_replicate_ff (b : Nat) : incrementLow (List.replicate b 0xFF#8) = zeros b := by
  induction b with
  | zero => rfl
  | succ b ih => rw [List.replicate_succ, incrementLow, if_pos (by decide), ih, zeros, zeros, List.replicate_succ]

/-- Settles O43: both sides have the same integer; all of FF carries through every byte. -/
theorem incrementAddsOne : Obligations.IncrementAddsOne := by
  refine ⟨fun ctr => ?_, fun b => ?_⟩
  · rw [← intOf_increment, ← increment_length, blkOf_intOf]
  · rw [increment, List.reverse_replicate, incrementLow_replicate_ff, zeros, List.reverse_replicate]

/-- The counter i blocks on, in closed form (44_ctr.md R187). -/
theorem iterate_increment {b : Nat} {ctr : Bytes} (h : ctr.length = b) (i : Nat) : increment^[i] ctr = counterAt b ctr i := by
  subst h
  induction i with
  | zero => exact (blkOf_intOf ctr).symm
  | succ i ih =>
    refine intOf_inj _ _ ?_ ?_ <;> rw [Function.iterate_succ_apply', ih, counterAt, counterAt]
    · rw [increment_length, blkOf_length, blkOf_length]
    · rw [intOf_increment, intOf_blkOf, intOf_blkOf, blkOf_length, Nat.mod_add_mod, Nat.add_assoc]

/-! ### INIT_MODE.CTR (44_ctr.md R180, R181) -/

/-- The registers of a fresh CTR session. -/
def ctrConfigured (p : Params) (key : Option Bytes) (dir : Dir) (iv : Bytes) : Engine :=
  { Engine.configured p key .ctr dir false 0#8 with ctr := iv ++ zeros (p.blockBytes - iv.length) }

theorem initModeRun_ctr {p : Params} {dir : Dir} {iv : Bytes} {e : Engine} (h : e.session ≠ .uninit)
    (hiv : iv.length ≤ p.blockBytes) :
    initModeRun p .ctr dir false 0 (initCtr p false 0 iv) e = Run.start (ctrConfigured p e.key dir iv) := by
  have haccept : ¬(false = true ∨ 0 ≠ 0 ∨ p.blockBytes < iv.length) := by simpa using hiv
  rw [initModeRun_keyed h, initCtr, if_neg haccept]
  rfl

theorem length_ctrConfigured_ctr {p : Params} {key : Option Bytes} {dir : Dir} {iv : Bytes} (hiv : iv.length ≤ p.blockBytes) :
    (ctrConfigured p key dir iv).ctr.length = p.blockBytes := by
  simp [ctrConfigured, hiv]

/-- Settles O20: the counter is the IV followed by zeros. -/
theorem initModeCtrConfigures : Obligations.InitModeCtrConfigures := by
  intro s dir iv rest hs hiv hin
  refine ⟨(ctrConfigured s.params s.engine.key dir iv).ctr, length_ctrConfigured_ctr hiv, List.take_left, ?_, ?_⟩
  · rw [ctrConfigured, intOf_append, intOf_zeros, zeros_length, Nat.add_zero]
  · rw [exec_supplied (.initModeCtr dir false 0 iv.length) s iv rest rfl hin, Instr.run, initModeRun_ctr hs hiv]
    rfl

/-! ### The byte loop (44_ctr.md R183, R184) -/

/-- A CTR session that accepts data, in an engine the spec defines. -/
structure Engine.CtrReady (p : Params) (e : Engine) : Prop where
  wf : p.Wf
  buf : e.BufferInv p
  ctr : e.ctr.length = p.blockBytes
  accepts : e.session.acceptsData = true
  mode : e.cfgMode = .ctr

/-- The run that has XORed the first n blocks of a text with the keystream, and holds the rest in BUF. -/
def ctrReleased (p : Params) (e : Engine) (text : Bytes) (n : Nat) : Run where
  engine := { e with buf := remainder p.blockBytes text n, ctr := counterAt p.blockBytes e.ctr n }
  dout := (List.range n).flatMap fun i =>
    xorBytes (blockAt p.blockBytes text i) (cipherEnc p e.boundKey (counterAt p.blockBytes e.ctr i))
  requests := (List.range n).map fun i => ⟨.enc, e.boundKey, counterAt p.blockBytes e.ctr i⟩
  err := .ok

theorem feedAll_ctr {p : Params} {e : Engine} (h : e.CtrReady p) (msg : Bytes) :
    let text := e.buf ++ msg
    feedAll p msg (Run.start e) = ctrReleased p e text (text.length / p.blockBytes) := by
  intro text
  have hhold : e.holdBack = false := by simp [Engine.holdBack, h.mode]
  have hloop := feedAll_eq p msg (Run.start e) h.wf.1 rfl h.buf.buf (h.buf.bufEager (ne_failed_of_acceptsData h.accepts))
  have hn : releasedBlocks e.holdBack p.blockBytes text.length = text.length / p.blockBytes := by rw [hhold]; rfl
  dsimp only [start_engine] at hloop
  rw [hn] at hloop
  generalize text.length / p.blockBytes = n at hloop ⊢
  have hblocks := releaseBlocks_ctr p (blockAt p.blockBytes text) n (remainder p.blockBytes text n) (Run.start e) rfl h.mode
  have hok : (releaseBlocks p ((List.range n).map (blockAt p.blockBytes text)) (Run.start e)).err = .ok :=
    congrArg Run.err hblocks
  rw [hloop, andThen_ok _ _ hok, hblocks]
  simp only [start_engine, iterate_increment h.ctr]
  rfl

/-- Settles O25: the byte loop's blocks, with the counter in closed form. -/
theorem updateCtrAppliesKeystream : Obligations.UpdateCtrAppliesKeystream := by
  intro s msg rest p e b text n hwf hbuf hwidth hs hm hin
  have hloop : msg.foldl (Stream.msg.feedByte p) (Run.start e) = ctrReleased p e text n :=
    feedAll_ctr ⟨hwf, hbuf, hwidth.ctr, hs, hm⟩ msg
  have hacc : Stream.msg.accepts e = true := hs
  refine (exec_instr .msg hin).trans ?_
  rw [streamRun_accepted hacc, hloop]
  rfl

/-! ### DO_FINAL (44_ctr.md R185) -/

/-- Final on whatever BUF holds: with BUF empty there is no output and no request. -/
theorem finalCtr_finalized {p : Params} {r : Run} (hr : r.err = .ok) :
    let ks := cipherEnc p r.engine.boundKey r.engine.ctr
    (finalCtr p r).andThen (Run.enter fun _ => .finalized) =
      r.finalized (xorBytes r.engine.buf (ks.take r.engine.buf.length))
        (if r.engine.buf = [] then [] else [⟨.enc, r.engine.boundKey, r.engine.ctr⟩]) := by
  intro ks
  unfold finalCtr
  split
  next hnil => rw [andThen_finalized hr hnil, hnil, xorBytes_nil_left]
  next => simp [Run.andThen, Run.enter, Run.finalized, Run.modify, Run.out, Run.ask, cipherAnswer, hr, ks]

theorem doFinalRun_ctr {p : Params} {e : Engine} (h : e.CtrReady p) (msg : Bytes) :
    let text := e.buf ++ msg
    let n := text.length / p.blockBytes
    let r := remainder p.blockBytes text n
    let last := counterAt p.blockBytes e.ctr n
    doFinalRun p msg e =
      (ctrReleased p e text n).finalized (xorBytes r ((cipherEnc p e.boundKey last).take r.length))
        (if r = [] then [] else [⟨.enc, e.boundKey, last⟩]) := by
  intro text n r last
  have hfinal : final p (ctrReleased p e text n) = finalCtr p (ctrReleased p e text n) := by
    simp [final, ctrReleased, h.mode]
  rw [doFinalRun_accepted h.accepts, feedAll_ctr h, andThen_ok _ (final p) rfl, hfinal, finalCtr_finalized rfl]
  rfl

/-- Settles O31: the blocks of the byte loop, and Final on the remainder. -/
theorem doFinalCtrAppliesKeystream : Obligations.DoFinalCtrAppliesKeystream := by
  intro s msg rest p e b text n r last hwf hbuf hwidth hs hm hin
  rw [exec_doFinal hin (doFinalRun_ctr ⟨hwf, hbuf, hwidth.ctr, hs, hm⟩ msg)]
  rfl

/-! ### The output as one XOR (44_ctr.md R187) -/

/-- The keystream of n blocks from a counter on. -/
def ctrKeystream (p : Params) (key ctr : Bytes) (n : Nat) : Bytes :=
  (List.range n).flatMap fun i => cipherEnc p key (counterAt p.blockBytes ctr i)

theorem length_ctrKeystream (p : Params) (key ctr : Bytes) (n : Nat) : (ctrKeystream p key ctr n).length = p.blockBytes * n :=
  length_flatMap_blocks (fun _ => cipherEnc_length _ _ _) n

theorem ctrKeystream_succ (p : Params) (key ctr : Bytes) (n : Nat) :
    ctrKeystream p key ctr (n + 1) = ctrKeystream p key ctr n ++ cipherEnc p key (counterAt p.blockBytes ctr n) := by
  rw [ctrKeystream, List.range_succ, List.flatMap_append, List.flatMap_singleton]
  rfl

theorem xorBytes_append {x y : Bytes} (h : x.length = y.length) (x' y' : Bytes) :
    xorBytes (x ++ x') (y ++ y') = xorBytes x y ++ xorBytes x' y' := List.zipWith_append h

theorem xorBytes_take (x y : Bytes) : xorBytes x (y.take x.length) = xorBytes x y := by
  induction x generalizing y with
  | nil => rfl
  | cons a x ih => cases y with
    | nil => rfl
    | cons b y => rw [List.length_cons, List.take_succ_cons, xorBytes_cons, xorBytes_cons, ih]

/-- Block by block or all at once. -/
theorem flatMap_xorBytes {b : Nat} {text : Bytes} {ks : Nat → Bytes} (hks : ∀ i, (ks i).length = b) {n : Nat}
    (hn : b * n ≤ text.length) :
    ((List.range n).flatMap fun i => xorBytes (blockAt b text i) (ks i)) =
      xorBytes (text.take (b * n)) ((List.range n).flatMap ks) := by
  induction n with
  | zero => simp
  | succ n ih =>
    have hle : b * n ≤ text.length := (Nat.mul_le_mul_left b n.le_succ).trans hn
    have hlen : (text.take (b * n)).length = ((List.range n).flatMap ks).length := by
      rw [length_flatMap_blocks hks, List.length_take_of_le hle]
    rw [List.range_succ, List.flatMap_append, List.flatMap_append, List.flatMap_singleton, List.flatMap_singleton, ih hle,
      Nat.mul_succ, List.take_add, xorBytes_append hlen]
    rfl

/-- The output of DO_FINAL in a session with nothing buffered: no byte is lost, and the keystream reaches to the last one. -/
theorem doFinalRun_ctr_dout {p : Params} {e : Engine} (h : e.CtrReady p) (hbuf : e.buf = []) (msg : Bytes) :
    (doFinalRun p msg e).dout = xorBytes msg (ctrKeystream p e.boundKey e.ctr (msg.length / p.blockBytes + 1)) := by
  have hrun := congrArg Run.dout (doFinalRun_ctr h msg)
  dsimp only [Run.finalized, ctrReleased] at hrun
  rw [hbuf, List.nil_append] at hrun
  have hn : p.blockBytes * (msg.length / p.blockBytes) ≤ msg.length := Nat.mul_div_le _ _
  generalize msg.length / p.blockBytes = n at hrun hn ⊢
  have hlen : (msg.take (p.blockBytes * n)).length = (ctrKeystream p e.boundKey e.ctr n).length := by
    rw [length_ctrKeystream, List.length_take_of_le hn]
  rw [hrun, flatMap_xorBytes (fun _ => cipherEnc_length _ _ _) hn, xorBytes_take, ← ctrKeystream, ← xorBytes_append hlen,
    ← ctrKeystream_succ, remainder, List.take_append_drop]

theorem length_le_ctrKeystream {p : Params} (hwf : p.Wf) (key ctr msg : Bytes) :
    msg.length ≤ (ctrKeystream p key ctr (msg.length / p.blockBytes + 1)).length := by
  rw [length_ctrKeystream]
  exact (Nat.lt_mul_div_succ _ hwf.1).le

/-! ### Two sessions (44_ctr.md R187) -/

theorem ctrConfigured_ctrReady {p : Params} (hwf : p.Wf) (key : Option Bytes) (dir : Dir) {iv : Bytes}
    (hiv : iv.length ≤ p.blockBytes) : (ctrConfigured p key dir iv).CtrReady p :=
  ⟨hwf, { reset_bufferInv hwf with bufEager := fun _ _ => hwf.1, abufEager := fun _ => hwf.1 },
    length_ctrConfigured_ctr hiv, rfl, rfl⟩

/-- A session of INIT_MODE.CTR and DO_FINAL succeeds, XORs the message with the keystream of key and IV, and keeps the key. -/
theorem issueAll_ctr {s : State} (hwf : s.params.Wf) (hs : s.engine.session ≠ .uninit) (dir : Dir) {iv : Bytes}
    (hiv : iv.length ≤ s.params.blockBytes) (msg : Bytes) :
    ∃ t, issueAll [(.initModeCtr dir false 0 iv.length, iv), (.doFinal msg.length, msg)] s = .next t ∧ allOk s t ∧
      outputSince s t = xorBytes msg (ctrKeystream s.params s.engine.boundKey (iv ++ zeros (s.params.blockBytes - iv.length))
        (msg.length / s.params.blockBytes + 1)) ∧
      t.params = s.params ∧ t.engine.key = s.engine.key ∧ t.engine.session ≠ .uninit := by
  let r₀ := Run.start (ctrConfigured s.params s.engine.key dir iv)
  let r := doFinalRun s.params msg r₀.engine
  have hready : r₀.engine.CtrReady s.params := ctrConfigured_ctrReady hwf s.engine.key dir hiv
  have hrun := doFinalRun_ctr hready msg
  have hinit : issue (.initModeCtr dir false 0 iv.length) iv s = .next (s.ran r₀) := by
    rw [issue_supplied rfl, Instr.run, initModeRun_ctr hs hiv]
  have hfinal : issue (.doFinal msg.length) msg (s.ran r₀) = .next ((s.ran r₀).ran r) := issue_supplied rfl _
  have hpre := ran_responses_prefix s r₀
  have hpre' := ran_responses_prefix (s.ran r₀) r
  refine ⟨(s.ran r₀).ran r, by simp only [issueAll, hinit, hfinal], ?_, ?_, rfl, ?_, ?_⟩
  · rw [allOk_trans hpre hpre', allOk_ran, allOk_ran]
    exact ⟨rfl, congrArg Run.err hrun⟩
  · rw [outputSince_trans hpre hpre', outputSince_ran, outputSince_ran]
    exact doFinalRun_ctr_dout hready rfl msg
  · exact congrArg (·.engine.key) hrun
  · have hsession : r.engine.session = .finalized := congrArg (·.engine.session) hrun
    simp [hsession]

/-- Settles O54: both sessions XOR with the same keystream, whose blocks depend on the key, the IV and the length alone. -/
theorem ctrSessionIsSelfInverse : Obligations.CtrSessionIsSelfInverse := by
  intro s dir dir' iv msg hwf hs hiv
  obtain ⟨t, hst, hallst, hout, hp, hkey, hsession⟩ := issueAll_ctr hwf hs dir hiv msg
  have hks := length_le_ctrKeystream hwf s.engine.boundKey (iv ++ zeros (s.params.blockBytes - iv.length)) msg
  have hlen : (outputSince s t).length = msg.length := by rw [hout, xorBytes_length, min_eq_left hks]
  rw [← hp] at hwf hiv
  obtain ⟨u, htu, halltu, hout', -⟩ := issueAll_ctr hwf hsession dir' hiv (outputSince s t)
  refine ⟨t, u, hst, hallst, htu, halltu, hlen, ?_⟩
  rw [hout', hlen, hp, Engine.boundKey, hkey, ← Engine.boundKey, hout, xorBytes_cancel _ _ hks]

end Sys2Proof.Machine
end

section
/-! PROOFS of the statements of 45_ocb3_nonce.md. A left shift of a whole byte string is read byte by byte once (`byte_shiftLeft`); the
doubling and the cut are both such shifts. The nonce block is then taken apart at its last byte, the only one that `bottom` and `top`
differ in, to give INIT_MODE.OCB3 as one run (`initModeRun_ocb3`). -/

namespace Sys2Proof.Machine

/-! ### Shifts of a byte string (20_memory.md R62, R63) -/

/-- Byte i of a block, counted from the most significant. -/
theorem getElem_blkOf {n v i : Nat} (h : i < (blkOf n v).length) : (blkOf n v)[i] = BitVec.ofNat 8 (v >>> (8 * (n - 1 - i))) := by
  induction n generalizing i with
  | zero => exact absurd h (Nat.not_lt_zero i)
  | succ n ih =>
    cases i with
    | zero => rfl
    | succ i =>
      simp only [blkOf, List.getElem_cons_succ]
      rw [ih, show n - 1 - i = n + 1 - 1 - (i + 1) by omega]

theorem blkOf_intOf_of_length {x : Bytes} {n : Nat} (h : x.length = n) : blkOf n (intOf x) = x := h ▸ blkOf_intOf x

/-- Bit k of byte i is a bit of the string's integer. -/
theorem getLsbD_getD {x : Bytes} {i k : Nat} (hi : i < x.length) (hk : k < 8) :
    (x.getD i 0#8).getLsbD k = (intOf x).testBit (8 * (x.length - 1 - i) + k) := by
  have hlen : i < (blkOf x.length (intOf x)).length := by rwa [blkOf_length]
  have hbyte : x.getD i 0#8 = BitVec.ofNat 8 (intOf x >>> (8 * (x.length - 1 - i))) := by
    rw [← getElem_blkOf hlen, List.getD_eq_getElem _ _ hi]
    simp only [blkOf_intOf]
  rw [hbyte, BitVec.getLsbD_ofNat, Nat.testBit_shiftRight, decide_eq_true hk, Bool.true_and]

/-- A byte of a left shift joins two neighbouring bytes; below the last byte come zeros. -/
theorem byte_shiftLeft {x : Bytes} {i n : Nat} (hi : i < x.length) (hn : n ≤ 8) :
    BitVec.ofNat 8 ((intOf x <<< n) >>> (8 * (x.length - 1 - i))) =
      (x.getD i 0#8 <<< n) ||| (x.getD (i + 1) 0#8 >>> (8 - n)) := by
  apply BitVec.eq_of_getLsbD_eq
  intro k hk
  rw [BitVec.getLsbD_ofNat, Nat.testBit_shiftRight, Nat.testBit_shiftLeft, BitVec.getLsbD_or, BitVec.getLsbD_shiftLeft,
    BitVec.getLsbD_ushiftRight, decide_eq_true hk, Bool.true_and, Bool.true_and]
  by_cases hkn : k < n
  · by_cases hlast : i + 1 < x.length
    · rw [getLsbD_getD hlast (by omega)]
      have hpos : 8 * (x.length - 1 - i) + k - n = 8 * (x.length - 1 - (i + 1)) + (8 - n + k) := by omega
      have hge : n ≤ 8 * (x.length - 1 - i) + k := by omega
      simp [hkn, hpos, hge]
    · have hz : x.getD (i + 1) 0#8 = 0#8 := List.getD_eq_default _ _ (by omega)
      have hlt : ¬n ≤ 8 * (x.length - 1 - i) + k := by omega
      rw [hz, decide_eq_false hlt]
      simp [hkn]
  · have hhigh : (x.getD (i + 1) 0#8).getLsbD (8 - n + k) = false := BitVec.getLsbD_of_ge _ _ (by omega)
    have hpos : 8 * (x.length - 1 - i) + k - n = 8 * (x.length - 1 - i) + (k - n) := by omega
    have hge : n ≤ 8 * (x.length - 1 - i) + k := by omega
    rw [getLsbD_getD hi (by omega), hhigh, hpos]
    simp [hkn, hge]

theorem getElem_shiftLeft {x : Bytes} {n i : Nat} (hn : n ≤ 8) (h : i < (shiftLeft x n).length) :
    (shiftLeft x n)[i] = (x.getD i 0#8 <<< n) ||| (x.getD (i + 1) 0#8 >>> (8 - n)) := by
  rw [← byte_shiftLeft (by simpa using h) hn]
  exact getElem_blkOf h

/-! ### The cut (45_ocb3_nonce.md R215) -/

/-- With `bits` 0 the byte below is shifted out whole, so the loop's first case is its second. -/
theorem getElem_cut {b bytes bits i : Nat} {stretch : Bytes} (h : i < (cut b stretch bytes bits).length) :
    (cut b stretch bytes bits)[i] =
      (stretch.getD (bytes + i) 0#8 <<< bits) ||| (stretch.getD (bytes + i + 1) 0#8 >>> (8 - bits)) := by
  simp only [cut, List.getElem_map, List.getElem_range]
  split
  next h0 => rw [h0, BitVec.shiftLeft_zero, BitVec.ushiftRight_eq_zero le_rfl, BitVec.or_zero]
  next => rfl

/-- Settles O46: byte i of either side is byte `bytes + i` of the stretch shifted left by `bits`. -/
theorem cutIsShift : Obligations.CutIsShift := by
  intro b stretch bytes bits hlen hbytes hbits
  rw [blkOf_mod _ _ _ le_rfl]
  refine List.ext_getElem (by simp) fun i hi _ => ?_
  have hib : i < b := by rwa [cut_length] at hi
  have hshift : 8 * (stretch.length - 1 - (bytes + i)) = bits + (8 * b - (8 * bytes + bits) + 8 * (b - 1 - i)) := by omega
  rw [getElem_cut, getElem_blkOf, ← byte_shiftLeft (by omega) (le_of_lt hbits), hshift, Nat.shiftRight_add,
    Nat.shiftLeft_shiftRight, ← Nat.shiftRight_add]

/-! ### The doubling (45_ocb3_nonce.md R203 to R205) -/

theorem blkOf_xor (n u v : Nat) : blkOf n (u ^^^ v) = xorBytes (blkOf n u) (blkOf n v) := by
  induction n with
  | zero => rfl
  | succ n ih => rw [blkOf, blkOf, blkOf, xorBytes_cons, ih, Nat.shiftRight_xor_distrib, BitVec.ofNat_xor]

theorem intOf_xorBytes {x y : Bytes} (h : x.length = y.length) : intOf (xorBytes x y) = intOf x ^^^ intOf y := by
  have hx := intOf_lt x
  have hy := intOf_lt y
  have hxy : xorBytes x y = blkOf x.length (intOf x ^^^ intOf y) := by
    rw [blkOf_xor, blkOf_intOf, blkOf_intOf_of_length h.symm]
  rw [hxy, intOf_blkOf, Nat.mod_eq_of_lt (Nat.xor_lt_two_pow hx (h ▸ hy))]

/-- The bit the doubling shifts out is bit 7 of byte 0. -/
theorem top_bit_iff {s : Bytes} (h : 1 ≤ s.length) : intOf s >>> (8 * s.length - 1) = 1 ↔ 0x80#8 ≤ s.getD 0 0#8 := by
  obtain ⟨x, xs, rfl⟩ := List.exists_cons_of_length_pos h
  have hlow := intOf_lt xs
  have hx := x.isLt
  have hexp : 8 * (x :: xs).length - 1 = 8 * xs.length + 7 := by rw [List.length_cons]; omega
  have hbyte : intOf (x :: xs) >>> (8 * xs.length) = x.toNat := by
    rw [intOf, Nat.shiftRight_eq_div_pow, Nat.mul_comm, Nat.mul_add_div (Nat.two_pow_pos _), Nat.div_eq_of_lt hlow, Nat.add_zero]
  rw [hexp, Nat.shiftRight_add, hbyte, Nat.shiftRight_eq_div_pow, List.getD_cons_zero, BitVec.le_def, BitVec.toNat_ofNat]
  omega

theorem double_eq {b : Nat} {s : Bytes} (h : s.length = b) (hb : 1 ≤ b) :
    double b s =
      if 0x80#8 ≤ s.getD 0 0#8 then xorBytes (shiftLeft s 1) (blkOf b (constants b).residue) else shiftLeft s 1 := by
  subst h
  simp only [double, top_bit_iff hb, shiftLeft]
  split
  · rw [blkOf_xor, blkOf_mod _ _ _ le_rfl]
  · exact blkOf_mod _ _ _ le_rfl

theorem getElem_double {b : Nat} {s : Bytes} (h : s.length = b) {i : Nat} (hi : i < (double b s).length) :
    (double b s)[i] =
      ((s.getD i 0#8 <<< 1) ||| (s.getD (i + 1) 0#8 >>> 7)) ^^^
        (if 0x80#8 ≤ s.getD 0 0#8 then BitVec.ofNat 8 ((constants b).residue >>> (8 * (b - 1 - i))) else 0x00#8) := by
  have hb : 1 ≤ b := by rw [double_length] at hi; omega
  simp only [double_eq h hb]
  split
  · simp only [xorBytes, List.getElem_zipWith, getElem_shiftLeft (by decide : 1 ≤ 8), getElem_blkOf]
  · rw [getElem_shiftLeft (by omega), BitVec.xor_zero]

/-- Bytes above the residue are shifted alone. -/
theorem getElem_double_above {b : Nat} {s : Bytes} (h : s.length = b) {i : Nat} (hi : i < (double b s).length)
    (hres : (constants b).residue < 2 ^ (8 * (b - 1 - i))) :
    (double b s)[i] = (s.getD i 0#8 <<< 1) ||| (s.getD (i + 1) 0#8 >>> 7) := by
  rw [getElem_double h hi, Nat.shiftRight_eq_zero _ _ hres]
  exact (congrArg _ (ite_self _)).trans BitVec.xor_zero

/-- The last byte has none below it. -/
theorem getElem_double_last {b : Nat} {s : Bytes} (h : s.length = b) (hi : b - 1 < (double b s).length) :
    (double b s)[b - 1] =
      (s.getD (b - 1) 0#8 <<< 1) ^^^ (if 0x80#8 ≤ s.getD 0 0#8 then BitVec.ofNat 8 (constants b).residue else 0x00#8) := by
  have hbelow : s.getD (b - 1 + 1) 0#8 = 0#8 := List.getD_eq_default _ _ (by omega)
  rw [getElem_double h hi, hbelow, BitVec.zero_ushiftRight, BitVec.or_zero, Nat.sub_self]
  rfl

/-- Settles O44: the residue 0x87 reaches byte 15 alone. -/
theorem doubleByteForm16 : Obligations.DoubleByteForm16 := by
  intro s hs
  refine List.ext_getElem (by simp) fun i hi _ => ?_
  have hi16 : i < 16 := by simpa using hi
  rw [List.getElem_map, List.getElem_range]
  by_cases habove : i < 15
  · have hres : (constants 16).residue < 2 ^ (8 * (16 - 1 - i)) :=
      lt_of_lt_of_le (by decide) (Nat.pow_le_pow_right (by decide) (by omega : 8 ≤ 8 * (16 - 1 - i)))
    rw [if_pos habove, getElem_double_above hs hi hres]
  · obtain rfl : i = 15 := by omega
    rw [if_neg habove]
    exact getElem_double_last hs hi

/-- Settles O45: the residue 0x0425 reaches bytes 30 and 31 alone. -/
theorem doubleByteForm32 : Obligations.DoubleByteForm32 := by
  intro s hs
  refine List.ext_getElem (by simp) fun i hi _ => ?_
  have hi32 : i < 32 := by simpa using hi
  rw [List.getElem_map, List.getElem_range]
  by_cases habove : i < 30
  · have hres : (constants 32).residue < 2 ^ (8 * (32 - 1 - i)) :=
      lt_of_lt_of_le (by decide) (Nat.pow_le_pow_right (by decide) (by omega : 16 ≤ 8 * (32 - 1 - i)))
    rw [if_pos habove, getElem_double_above hs hi hres]
  · obtain rfl | rfl : i = 30 ∨ i = 31 := by omega
    · exact getElem_double hs hi
    · exact getElem_double_last hs hi

/-! ### The nonce block (45_ocb3_nonce.md R210 to R212) -/

theorem nonceBlock_length {p : Params} {nonce : Bytes} (hn : nonce.length ≤ p.blockBytes - 1) (hb : 1 ≤ p.blockBytes)
    (taglen : Nat) : (nonceBlock p nonce taglen).length = p.blockBytes := by
  have hlen : (zeros (p.blockBytes - 1 - nonce.length) ++ 0x01#8 :: nonce).length = p.blockBytes := by
    rw [List.length_append, zeros_length, List.length_cons]
    omega
  unfold nonceBlock
  dsimp only
  split
  · rw [List.length_set, hlen]
  · exact hlen

/-- Without NONCE_TAGLEN_FIELD the tag length does not show in the nonce block. -/
theorem nonceBlock_noField {p : Params} (hf : p.nonceTaglenField = false) (nonce : Bytes) (taglen : Nat) :
    nonceBlock p nonce taglen = zeros (p.blockBytes - 1 - nonce.length) ++ 0x01#8 :: nonce := by
  rw [nonceBlock, hf, Bool.false_and, if_neg Bool.false_ne_true]

theorem exists_snoc {b : Nat} {n : Bytes} (hn : n.length = b) (hb : 1 ≤ b) : ∃ xs x, xs.length = b - 1 ∧ n = xs ++ [x] :=
  have hne : n ≠ [] := List.ne_nil_of_length_pos (by omega)
  ⟨n.dropLast, n.getLast hne, by rw [List.length_dropLast, hn], (List.dropLast_append_getLast hne).symm⟩

theorem getD_snoc {xs : Bytes} {k : Nat} (hxs : xs.length = k) (x : Byte) : (xs ++ [x]).getD k 0#8 = x := by
  rw [List.getD_append_right _ _ _ _ (le_of_eq hxs), hxs, Nat.sub_self, List.getD_cons_zero]

theorem intOf_snoc_mod {m : Nat} (hm : m ∣ 256) (xs : Bytes) (x : Byte) : intOf (xs ++ [x]) % m = x.toNat % m := by
  obtain ⟨k, hk⟩ := hm
  rw [intOf_snoc, hk, Nat.mul_left_comm, Nat.mul_add_mod]

/-- A mask splits a byte in two. -/
theorem toNat_and_add_toNat_and_not (x m : Byte) : (x &&& m).toNat + (x &&& ~~~m).toNat = x.toNat := by
  have hdisj : (x &&& m) &&& (x &&& ~~~m) = 0#8 := by
    have hswap : (x &&& m) &&& (x &&& ~~~m) = (x &&& x) &&& (m &&& ~~~m) := by ac_rfl
    rw [hswap, BitVec.and_not_self]
    exact BitVec.and_zero
  have hjoin : (x &&& m) ||| (x &&& ~~~m) = x := by
    rw [← BitVec.and_or_distrib_left, BitVec.or_not_self, BitVec.and_allOnes]
  rw [← BitVec.toNat_add_of_and_eq_zero hdisj, BitVec.add_eq_or_of_and_eq_zero _ _ hdisj, hjoin]

section
variable {b : Nat} (hb : b = 16 ∨ b = 32)
include hb

theorem constants_m0 : (constants b).m0 = 0#8 := by
  obtain rfl | rfl := hb <;> rfl

theorem constants_shift : (constants b).shift = shiftBits b := by
  obtain rfl | rfl := hb <;> rfl

/-- M1 selects the low bits that `bottomModulus` counts (45_ocb3_nonce.md R202). -/
theorem toNat_and_m1 (x : Byte) : (x &&& (constants b).m1).toNat = x.toNat % bottomModulus b := by
  rw [BitVec.toNat_and]
  obtain rfl | rfl := hb
  · exact Nat.and_two_pow_sub_one_eq_mod x.toNat 6
  · exact Nat.and_two_pow_sub_one_eq_mod x.toNat 8

theorem bottomModulus_dvd : bottomModulus b ∣ 256 := by
  obtain rfl | rfl := hb <;> decide

theorem bottomModulus_le : bottomModulus b ≤ 8 * b := by
  obtain rfl | rfl := hb <;> decide

/-- M0 is 0, so the last byte alone makes `bottom`. -/
theorem nonceBottom_snoc {xs : Bytes} (hxs : xs.length = b - 1) (x : Byte) :
    nonceBottom b (xs ++ [x]) = x.toNat % bottomModulus b := by
  rw [nonceBottom, getD_snoc hxs, constants_m0 hb, BitVec.and_zero, toNat_and_m1 hb]
  exact Nat.zero_or _

/-- Only the last byte of `top` differs from the nonce block's. -/
theorem nonceTop_snoc {xs : Bytes} (hxs : xs.length = b - 1) (x : Byte) :
    nonceTop b (xs ++ [x]) = xs ++ [x &&& ~~~(constants b).m1] := by
  have hkeep : (xs ++ [x]).set (b - 2) ((xs ++ [x]).getD (b - 2) 0#8) = xs ++ [x] := by
    have hlt : b - 2 < (xs ++ [x]).length := by rw [List.length_append, List.length_singleton]; omega
    rw [List.getD_eq_getElem _ _ hlt, List.set_getElem_self]
  rw [nonceTop, getD_snoc hxs, constants_m0 hb, BitVec.not_zero, BitVec.and_allOnes, hkeep,
    List.set_append_right _ _ (by omega), hxs, Nat.sub_self, List.set_cons_zero]

/-- `bottom` as an integer (45_ocb3_nonce.md R211). -/
theorem nonceBottom_eq {n : Bytes} (hn : n.length = b) : nonceBottom b n = intOf n % bottomModulus b := by
  obtain ⟨xs, x, hxs, rfl⟩ := exists_snoc hn (by omega)
  rw [nonceBottom_snoc hb hxs, intOf_snoc_mod (bottomModulus_dvd hb)]

/-- `top` as an integer (45_ocb3_nonce.md R212). -/
theorem nonceTop_eq {n : Bytes} (hn : n.length = b) : nonceTop b n = blkOf b (intOf n - intOf n % bottomModulus b) := by
  obtain ⟨xs, x, hxs, rfl⟩ := exists_snoc hn (by omega)
  have hsplit := toNat_and_add_toNat_and_not x (constants b).m1
  rw [toNat_and_m1 hb] at hsplit
  have hlen : (xs ++ [x &&& ~~~(constants b).m1]).length = b := by rwa [List.length_append] at hn ⊢
  have htop : intOf (xs ++ [x]) - intOf (xs ++ [x]) % bottomModulus b = intOf (xs ++ [x &&& ~~~(constants b).m1]) := by
    rw [intOf_snoc_mod (bottomModulus_dvd hb), intOf_snoc, intOf_snoc]
    omega
  rw [nonceTop_snoc hb hxs, htop, blkOf_intOf_of_length hlen]

/-! ### The initial offset (45_ocb3_nonce.md R213 to R216) -/

theorem intOf_stretchOf {ktop : Bytes} (hk : ktop.length = b) :
    intOf (stretchOf b ktop) =
      intOf ktop * 2 ^ (8 * b) + (intOf ktop ^^^ (intOf ktop <<< shiftBits b) % 2 ^ (8 * b)) := by
  have hlow : (xorBytes ktop (shiftLeft ktop (constants b).shift)).length = b := by simp [hk]
  rw [stretchOf, intOf_append, hlow, intOf_xorBytes (by simp), shiftLeft, intOf_blkOf, hk, constants_shift hb]

/-- R214 splits bottom into bytes and bits, and the cut puts them together again. -/
theorem initialOffset_eq {ktop : Bytes} (hk : ktop.length = b) {bottom : Nat} (hbot : bottom < bottomModulus b) :
    initialOffset b ktop bottom = blkOf b ((intOf (stretchOf b ktop) >>> (8 * b - bottom)) % 2 ^ (8 * b)) := by
  have hlen : (stretchOf b ktop).length = 2 * b := by
    simp only [stretchOf, List.length_append, xorBytes_length, shiftLeft_length, hk]
    omega
  have hbytes : bottom >>> 3 = bottom / 8 := Nat.shiftRight_eq_div_pow bottom 3
  have hbits : bottom &&& 7 = bottom % 8 := Nat.and_two_pow_sub_one_eq_mod bottom 3
  have hsmall : bottom / 8 < b := Nat.div_lt_of_lt_mul (lt_of_lt_of_le hbot (bottomModulus_le hb))
  rw [initialOffset, hbytes, hbits, cutIsShift b _ _ _ hlen hsmall (Nat.mod_lt _ (by decide)), Nat.div_add_mod]

end

/-- The offset the engine computes from the nonce block's bytes is the one given by integers. -/
theorem initialOffset_nonce {p : Params} (hb : p.blockBytes = 16 ∨ p.blockBytes = 32) (key : Bytes) {n : Bytes}
    (hn : n.length = p.blockBytes) :
    initialOffset p.blockBytes (cipherEnc p key (nonceTop p.blockBytes n)) (nonceBottom p.blockBytes n) = delta0 p key n := by
  have hpos : 0 < bottomModulus p.blockBytes := Nat.pos_of_dvd_of_pos (bottomModulus_dvd hb) (by decide)
  rw [nonceBottom_eq hb hn, nonceTop_eq hb hn, initialOffset_eq hb (cipherEnc_length _ _ _) (Nat.mod_lt _ hpos),
    intOf_stretchOf hb (cipherEnc_length _ _ _), delta0]

/-! ### INIT_MODE.OCB3 (45_ocb3_nonce.md R200) -/

/-- The registers of a fresh OCB3 session under the nonce block n. -/
def ocb3Configured (p : Params) (e : Engine) (dir : Dir) (taglen : Nat) (n : Bytes) : Engine :=
  let lstar := cipherEnc p e.boundKey (zeros p.blockBytes)
  { Engine.configured p e.key .ocb3 dir false (BitVec.ofNat 8 taglen) with
    lstar := lstar
    ldollar := double p.blockBytes lstar
    lt := [double p.blockBytes (double p.blockBytes lstar)]
    delta := delta0 p e.boundKey n }

/-- The two cipher requests, whatever the direction (45_ocb3_nonce.md R217). -/
def ocb3InitRequests (p : Params) (key n : Bytes) : List CipherRequest :=
  [⟨.enc, key, zeros p.blockBytes⟩, ⟨.enc, key, blkOf p.blockBytes (intOf n - intOf n % bottomModulus p.blockBytes)⟩]

theorem refusesOcb3_eq_false {b taglen ivlen : Nat} (hb : b = 16 ∨ b = 32) (ht : 1 ≤ taglen) (htb : taglen ≤ b)
    (hiv : ivlen ≤ b - 1) : refusesOcb3 b false taglen ivlen = false := by
  have ht0 : taglen ≠ 0 := by omega
  have hsize : (b == 16 || b == 32) = true := by simpa using hb
  simp [refusesOcb3, ht0, htb, hiv, hsize]

theorem initModeRun_ocb3 {p : Params} {dir : Dir} {taglen : Nat} {nonce : Bytes} {e : Engine} (h : e.session ≠ .uninit)
    (hb : p.blockBytes = 16 ∨ p.blockBytes = 32) (ht : 1 ≤ taglen) (htb : taglen ≤ p.blockBytes)
    (hiv : nonce.length ≤ p.blockBytes - 1) :
    initModeRun p .ocb3 dir false taglen (initOcb3 p false taglen nonce) e =
      ⟨ocb3Configured p e dir taglen (nonceBlock p nonce taglen), [],
        ocb3InitRequests p e.boundKey (nonceBlock p nonce taglen), .ok⟩ := by
  have hn := nonceBlock_length hiv (by omega) taglen
  have haccept : ¬refusesOcb3 p.blockBytes false taglen nonce.length = true := by
    rw [refusesOcb3_eq_false hb ht htb hiv]
    exact Bool.false_ne_true
  rw [initModeRun_keyed h, initOcb3, if_neg haccept, ocb3Configured, ocb3InitRequests, ← initialOffset_nonce hb _ hn,
    ← nonceTop_eq hb hn]
  rfl

/-- Settles O21: the byte code's `bottom`, `top` and cut are those of the integers. -/
theorem initModeOcb3Configures : Obligations.InitModeOcb3Configures := by
  intro s dir taglen nonce rest p b key n lstar hs hb ht htb hiv hin
  refine ⟨nonceBlock_length hiv (by omega) taglen, fun hf => nonceBlock_noField hf nonce taglen, ?_⟩
  rw [exec_supplied (.initModeOcb3 dir false taglen nonce.length) s nonce rest rfl hin, Instr.run,
    initModeRun_ocb3 hs hb ht htb hiv]
  rfl

end Sys2Proof.Machine
end

section
/-! PROOFS of the statements of 46_ocb3_data.md. The message loop has one closed form while no block index overflows and one for the
block that has none left (`feedAll_ocb3`, `feedAll_ocb3_overflow`). That the streams commute rests on one relation: a change of the
registers that a stream's loop does not see (`Unseen`), which every write of the other stream is, and so its whole loop. The round
trip goes through the closed form of a whole session (`issueAll_ocb3`), whose tag is one function of the plaintext in both
directions. -/

namespace Sys2Proof.Machine

/-! ### The message loop (46_ocb3_data.md R231 to R240) -/

/-- An OCB3 session that accepts data, with room in BUF and a table of masks. -/
structure Engine.Ocb3Ready (p : Params) (e : Engine) : Prop where
  size : 1 ≤ p.blockBytes
  buf : e.buf.length < p.blockBytes
  entries : e.lt = masks p.blockBytes e.lstar e.lt.length
  nonempty : 1 ≤ e.lt.length
  accepts : e.session.acceptsData = true
  mode : e.cfgMode = .ocb3

theorem holdBack_ocb3 {e : Engine} (hm : e.cfgMode = .ocb3) : e.holdBack = false := by simp [Engine.holdBack, hm]

theorem ocb3Ready_of_inv {p : Params} {e : Engine} (hwf : p.Wf) (hbuf : e.BufferInv p) (htab : e.TableInv p)
    (hs : e.session.acceptsData = true) (hm : e.cfgMode = .ocb3) : e.Ocb3Ready p where
  size := hwf.1
  buf := hbuf.bufEager (ne_failed_of_acceptsData hs) (holdBack_ocb3 hm)
  entries := htab.entries hm
  nonempty := htab.nonempty hm
  accepts := hs
  mode := hm

/-- The run that has put the first n blocks of a text through the masked cipher, in order, and holds `held` in BUF. -/
def ocb3Released (p : Params) (e : Engine) (text : Bytes) (n : Nat) (held : Bytes) : Run :=
  let off := offsetFrom p.blockBytes e.lstar e.delta e.midx.toNat
  { engine := { e.afterBlocks p (blockAt p.blockBytes text) e.lt.length n with buf := held }
    dout := (List.range n).flatMap fun i => ocb3Out p e.cfgDir e.boundKey (off (i + 1)) (blockAt p.blockBytes text i)
    requests := (List.range n).map fun i =>
      ⟨opOf e.cfgDir, e.boundKey, xorBytes (blockAt p.blockBytes text i) (off (i + 1))⟩
    err := .ok }

/-- The last index a block can have, reached from one that leaves room for k blocks (46_ocb3_data.md R233). -/
theorem index_add_room {x : BitVec 64} {k : Nat} (h : x.toNat + k = 2 ^ 64 - 1) : x + BitVec.ofNat 64 k = BitVec.allOnes 64 := by
  apply BitVec.eq_of_toNat_eq
  rw [index_add x k (by omega), h, BitVec.toNat_allOnes]

section
variable {p : Params} {e : Engine} (h : e.Ocb3Ready p) (msg : Bytes)
include h

theorem feedAll_ocb3_blocks :
    let text := e.buf ++ msg
    let n := text.length / p.blockBytes
    feedAll p msg (Run.start e) =
      (releaseBlocks p ((List.range n).map (blockAt p.blockBytes text)) (Run.start e)).andThen
        (Run.setBuf (remainder p.blockBytes text n)) := by
  have hloop := feedAll_eq p msg (Run.start e) h.size rfl h.buf.le fun _ => h.buf
  rw [start_engine, holdBack_ocb3 h.mode] at hloop
  exact hloop

theorem feedAll_ocb3 :
    let text := e.buf ++ msg
    let n := text.length / p.blockBytes
    e.midx.toNat + n < 2 ^ 64 →
      feedAll p msg (Run.start e) = ocb3Released p e text n (remainder p.blockBytes text n) := by
  intro text n hidx
  have hblocks := releaseBlocks_ocb3 p (blockAt p.blockBytes text) n (remainder p.blockBytes text n) (Run.start e) e.lt.length
    rfl h.mode h.nonempty h.entries hidx
  have hok : (releaseBlocks p ((List.range n).map (blockAt p.blockBytes text)) (Run.start e)).err = .ok :=
    congrArg Run.err hblocks
  rw [feedAll_ocb3_blocks h, andThen_ok _ _ hok, hblocks]
  rfl

/-- The block that has no index left is in BUF when the loop fails (46_ocb3_data.md R233). -/
theorem feedAll_ocb3_overflow {k : Nat} (hk : e.midx.toNat + k = 2 ^ 64 - 1) :
    let text := e.buf ++ msg
    k < text.length / p.blockBytes →
      feedAll p msg (Run.start e) = (ocb3Released p e text k (blockAt p.blockBytes text k)).raise .illegalLength := by
  intro text hn
  have hblocks := releaseBlocks_overflow p (blockAt p.blockBytes text) k _ (Run.start e) e.lt.length rfl h.mode
    h.nonempty h.entries hk hn
  rw [feedAll_ocb3_blocks h, hblocks, andThen_err _ _ (by simp)]
  rfl

end

/-- Settles O26: the byte loop is a loop over blocks, whose closed form is known while no index overflows. -/
theorem updateOcb3MasksBlocks : Obligations.UpdateOcb3MasksBlocks := by
  intro s msg rest p e b text n off out hwf hbuf htab hs hm hidx hin
  have hloop : msg.foldl (Stream.msg.feedByte p) (Run.start e) = ocb3Released p e text n (remainder b text n) :=
    feedAll_ocb3 (ocb3Ready_of_inv hwf hbuf htab hs hm) msg hidx
  have hacc : Stream.msg.accepts e = true := hs
  refine (exec_instr .msg hin).trans ?_
  rw [streamRun_accepted hacc, hloop]
  rfl

/-- Settles O33: UPDATE fails on the block without an index, and DO_FINAL fails as UPDATE does (R126). -/
theorem messageIndexOverflowFails : Obligations.MessageIndexOverflowFails := by
  intro s msg rest p e b text k off out failed hwf hbuf htab hs hm hn hin
  have hk : e.midx.toNat + k = 2 ^ 64 - 1 := Nat.add_sub_cancel' (Nat.le_sub_one_of_lt e.midx.isLt)
  have hloop : msg.foldl (Stream.msg.feedByte p) (Run.start e) =
      (ocb3Released p e text k (blockAt b text k)).raise .illegalLength :=
    feedAll_ocb3_overflow (ocb3Ready_of_inv hwf hbuf htab hs hm) msg hk hn
  have hacc : Stream.msg.accepts e = true := hs
  have hrun : streamRun p .msg msg e = (ocb3Released p e text k (blockAt b text k)).raise .illegalLength := by
    rw [streamRun_accepted hacc, hloop, andThen_err _ _ (by rw [raise_err]; simp)]
  have herr : (updateRun p msg e).err ≠ .ok := by
    rw [show updateRun p msg e = _ from hrun, raise_err]
    simp
  have hfinal : doFinalRun p msg e = (ocb3Released p e text k (blockAt b text k)).raise .illegalLength :=
    (doFinalRun_of_update_err herr).trans hrun
  have hlast : e.midx + BitVec.ofNat 64 k = BitVec.allOnes 64 := index_add_room hk
  constructor
  · refine (exec_instr .msg hin).trans ?_
    rw [hrun]
    simp only [failed, ← hlast]
    rfl
  · rw [exec_doFinal hin hfinal]
    simp only [failed, ← hlast]
    rfl

/-! ### The AAD loop at its last index (46_ocb3_data.md R233, R236) -/

/-- Settles O34: the loop over blocks fails on the block without an index, which is in ABUF. -/
theorem aadIndexOverflowFails : Obligations.AadIndexOverflowFails := by
  intro s aad rest p e b text k off hwf hbuf htab hs hm hn hin
  have hk : e.aidx.toNat + k = 2 ^ 64 - 1 := Nat.add_sub_cancel' (Nat.le_sub_one_of_lt e.aidx.isLt)
  have hloop : aad.foldl (Stream.aad.feedByte p) (Run.start e) =
      (foldAadBlocks p ((List.range (text.length / b)).map (blockAt b text)) (Run.start e)).andThen
        (Run.setAbuf (remainder b text (text.length / b))) :=
    aadFeedAll_eq p aad (Run.start e) hwf.1 rfl (hbuf.abufEager (ne_failed_of_acceptsData hs))
  have hblocks := foldAadBlocks_overflow p (blockAt b text) k _ (Run.start e) e.lt.length rfl (htab.nonempty hm)
    (htab.entries hm) hk hn
  have hacc : Stream.aad.accepts e = true := by simp [Stream.accepts, hs, hm]
  rw [hblocks, andThen_err _ _ (by simp)] at hloop
  refine (exec_instr .aad hin).trans ?_
  rw [streamRun_accepted hacc, hloop, andThen_err _ _ (by simp), ← index_add_room hk]
  rfl

/-! ### The table is shared, and its growth has no order (46_ocb3_data.md R232) -/

theorem growTable_growTable (b m n : Nat) (lt : List Bytes) : growTable b n (growTable b m lt) = growTable b (m + n) lt := by
  induction m generalizing lt with
  | zero => rw [Nat.zero_add, growTable]
  | succ m ih => rw [Nat.succ_add, growTable, growTable, ih]

theorem growTo_growTo (b j k : Nat) (lt : List Bytes) : growTo b k (growTo b j lt) = growTo b (max j k) lt := by
  have hlen := growTo_length b j lt
  rw [growTo, hlen, growTo, growTable_growTable, growTo]
  congr 1
  omega

theorem growTo_comm (b j k : Nat) (lt : List Bytes) : growTo b j (growTo b k lt) = growTo b k (growTo b j lt) := by
  rw [growTo_growTo, growTo_growTo, max_comm]

theorem tableEntry_of_prefix {b k : Nat} {lt lt' : List Bytes} (h : lt <+: lt') (hk : k < lt.length) :
    tableEntry b lt' k = tableEntry b lt k := by
  obtain ⟨more, rfl⟩ := h
  exact List.getD_append _ _ _ _ hk

/-- The entry an index update reads is the same, whatever the other stream's updates have added. -/
theorem tableEntry_growTo (b j k : Nat) (lt : List Bytes) :
    tableEntry b (growTo b k (growTo b j lt)) k = tableEntry b (growTo b k lt) k := by
  rw [growTo_comm]
  exact tableEntry_of_prefix (growTo_prefix b j _) (by rw [growTo_length]; omega)

theorem advance_comm (p : Params) (e : Engine) : (e.advance p .aad).advance p .msg = (e.advance p .msg).advance p .aad := by
  simp only [Engine.advance, Engine.index, tableEntry_growTo]
  rw [growTo_comm]

theorem increaseDelta_eq_advance (p : Params) (st : Stream) (r : Run) :
    increaseDelta p st r =
      if r.engine.index st = BitVec.allOnes 64 then r.raise .illegalLength else r.modify (Engine.advance p st) := by
  rcases increaseDelta_cases p st r with ⟨hi, hr⟩ | ⟨hi, _, _, rfl, rfl, hr⟩
  · rw [if_pos hi, hr]
  · rw [if_neg hi, hr]
    rfl

/-! ### The writes of one stream and those of the other (46_ocb3_data.md R237) -/

/-- A register write of a stream's byte loop: every kind there is. -/
inductive StreamWrite (p : Params) : Stream → (Engine → Engine) → Prop
  | fail (st : Stream) : StreamWrite p st fun e => { e with session := .failed }
  | advance (st : Stream) : StreamWrite p st (Engine.advance p st)
  | push (x : Byte) : StreamWrite p .msg fun e => { e with buf := e.buf ++ [x] }
  | clear : StreamWrite p .msg fun e => { e with buf := [] }
  | ctr : StreamWrite p .msg fun e => { e with ctr := increment e.ctr }
  | checksum (x : Bytes) : StreamWrite p .msg fun e => { e with checksum := xorBytes e.checksum x }
  | pushAad (x : Byte) : StreamWrite p .aad fun e => { e with abuf := e.abuf ++ [x] }
  | fold (x : Bytes) : StreamWrite p .aad fun e => { e with authAcc := xorBytes e.authAcc x, abuf := [] }

theorem StreamWrite.keeps {p : Params} {st : Stream} {w : Engine → Engine} (hw : StreamWrite p st w) (e : Engine) :
    e.Keeps (w e) := by
  cases hw with
  | advance => cases st <;> exact ⟨rfl, rfl, rfl, rfl, rfl, rfl, rfl, growTo_prefix _ _ _⟩
  | _ => exact ⟨rfl, rfl, rfl, rfl, rfl, rfl, rfl, List.prefix_refl _⟩

theorem StreamWrite.view {p : Params} {st : Stream} {w : Engine → Engine} (hw : StreamWrite p st w) (e : Engine) :
    (w e).streamView st.other = e.streamView st.other := by
  cases hw with
  | fail | advance => cases st <;> rfl
  | _ => rfl

/-- The two streams' writes meet only in the table and in FAILED, where their order does not show. -/
theorem StreamWrite.comm {p : Params} {v w : Engine → Engine} (hv : StreamWrite p .msg v) (hw : StreamWrite p .aad w)
    (e : Engine) : v (w e) = w (v e) := by
  cases hv <;> cases hw
  case advance.advance => exact advance_comm p e
  all_goals rfl

/-- A change of the registers that a stream's byte loop does not see: it commutes with the stream's writes and keeps what the loop
reads. -/
structure Unseen (p : Params) (st : Stream) (h : Engine → Engine) : Prop where
  commutes : ∀ w, StreamWrite p st w → ∀ e, h (w e) = w (h e)
  view : ∀ e, (h e).streamView st = e.streamView st
  keeps : ∀ e : Engine, e.Keeps (h e)

theorem other_other (st : Stream) : st.other.other = st := by cases st <;> rfl

theorem StreamWrite.unseen {p : Params} {st : Stream} {w : Engine → Engine} (hw : StreamWrite p st w) :
    Unseen p st.other w where
  commutes v hv e := by
    cases st
    · exact hw.comm hv e
    · exact (hv.comm hw e).symm
  view := hw.view
  keeps := hw.keeps

/-! ### The byte loops do not see the other stream -/

theorem andThen_modify {h : Engine → Engine} {r : Run} {k : Run → Run} (hk : k (r.modify h) = (k r).modify h) :
    (r.modify h).andThen k = (r.andThen k).modify h := by
  by_cases hr : r.err = .ok
  · rw [andThen_ok r k hr, ← hk, andThen_ok (r.modify h) k hr]
  · rw [andThen_err r k hr, andThen_err (r.modify h) k hr]

theorem ite_modify {h : Engine → Engine} {c : Prop} [Decidable c] {r r' s s' : Run} (hr : r' = r.modify h)
    (hs : s' = s.modify h) : (if c then r' else s') = (if c then r else s).modify h := by
  rw [hr, hs]
  exact (apply_ite (Run.modify · h) c r s).symm

section
variable {p : Params} {st : Stream} {h : Engine → Engine} (hh : Unseen p st h)
include hh

theorem unseen_index (e : Engine) : (h e).index st = e.index st := by
  have hv := congrArg Prod.snd (hh.view e)
  cases st <;> exact hv

theorem modify_unseen {w : Engine → Engine} (hw : StreamWrite p st w) (r : Run) :
    (r.modify h).modify w = (r.modify w).modify h := by
  simp only [Run.modify, hh.commutes w hw]

theorem raise_unseen (r : Run) : (r.modify h).raise .illegalLength = (r.raise .illegalLength).modify h := by
  have hf := hh.commutes _ (.fail st) r.engine
  simp only [Run.raise, Run.modify, hf]

theorem ask_unseen (op : CipherOp) (blk : Bytes) (r : Run) :
    (r.modify h).ask p op blk = ((r.ask p op blk).1, (r.ask p op blk).2.modify h) := by
  have hk : (h r.engine).boundKey = r.engine.boundKey := congrArg (·.getD []) (hh.keeps r.engine).key
  simp only [Run.ask, Run.modify, hk]

theorem increaseDelta_unseen (r : Run) : increaseDelta p st (r.modify h) = (increaseDelta p st r).modify h := by
  rw [increaseDelta_eq_advance, increaseDelta_eq_advance, modify_engine, unseen_index hh, raise_unseen hh,
    modify_unseen hh (.advance st)]
  exact ite_modify rfl rfl

end

theorem unseen_aadView {p : Params} {h : Engine → Engine} (hh : Unseen p .aad h) (e : Engine) :
    (h e).abuf = e.abuf ∧ (h e).deltaAad = e.deltaAad := by
  have hv := hh.view e
  simp only [Engine.streamView, Prod.mk.injEq, List.cons.injEq] at hv
  obtain ⟨⟨habuf, hdelta, -⟩, -⟩ := hv
  exact ⟨habuf, hdelta⟩

theorem aadFeed_unseen {p : Params} {h : Engine → Engine} (hh : Unseen p .aad h) (r : Run) (x : Byte) :
    aadFeed p (r.modify h) x = (aadFeed p r x).modify h := by
  have habuf (e : Engine) : (h e).abuf = e.abuf := (unseen_aadView hh e).1
  have hdelta (e : Engine) : (h e).deltaAad = e.deltaAad := (unseen_aadView hh e).2
  refine andThen_modify ?_
  dsimp only
  rw [modify_unseen hh (.pushAad x), increaseDelta_unseen hh, modify_engine, habuf]
  refine ite_modify (andThen_modify ?_) rfl
  rw [modify_engine, habuf, hdelta, ask_unseen hh]
  exact modify_unseen hh (.fold _) _

section
variable {p : Params} {h : Engine → Engine} (hh : Unseen p .msg h)
include hh

theorem unseen_msgView (e : Engine) :
    (h e).buf = e.buf ∧ (h e).ctr = e.ctr ∧ (h e).delta = e.delta := by
  have hv := hh.view e
  simp only [Engine.streamView, Prod.mk.injEq, List.cons.injEq] at hv
  obtain ⟨⟨hbuf, hctr, hdelta, -⟩, -⟩ := hv
  exact ⟨hbuf, hctr, hdelta⟩

theorem unseen_buf (e : Engine) : (h e).buf = e.buf := (unseen_msgView hh e).1

theorem ocb3Block_unseen (blk : Bytes) (r : Run) :
    ocb3Block p blk (r.modify h) = ((ocb3Block p blk r).1, (ocb3Block p blk r).2.modify h) := by
  unfold ocb3Block
  dsimp only
  rw [increaseDelta_unseen hh]
  generalize increaseDelta p .msg r = r
  obtain ⟨-, -, hdelta⟩ := unseen_msgView hh r.engine
  rw [modify_err, modify_engine, (hh.keeps r.engine).cfgDir, hdelta, ask_unseen hh, ask_unseen hh]
  split
  · exact congrArg _ (modify_unseen hh (.checksum _) _)
  · exact congrArg _ (modify_unseen hh (.checksum _) _)
  · rfl

theorem blockOp_unseen (blk : Bytes) (r : Run) :
    blockOp p blk (r.modify h) = ((blockOp p blk r).1, (blockOp p blk r).2.modify h) := by
  unfold blockOp
  rw [modify_engine, (hh.keeps r.engine).cfgMode]
  split
  · unfold ecbBlock
    rw [modify_engine, (hh.keeps r.engine).cfgDir]
    split <;> exact ask_unseen hh _ blk r
  · obtain ⟨-, hctr, -⟩ := unseen_msgView hh r.engine
    unfold ctrBlock
    rw [modify_engine, hctr, ask_unseen hh]
    exact congrArg _ (modify_unseen hh .ctr _)
  · exact ocb3Block_unseen hh blk r

theorem release_unseen (r : Run) : release p (r.modify h) = (release p r).modify h := by
  unfold release
  rw [modify_engine, unseen_buf hh, blockOp_unseen hh]
  exact andThen_modify (modify_unseen hh .clear (Run.out _ _))

theorem feed_unseen (r : Run) (x : Byte) : feed p (r.modify h) x = (feed p r x).modify h := by
  have hroom : makeRoom p (r.modify h) = (makeRoom p r).modify h := by
    unfold makeRoom
    rw [modify_engine, (hh.keeps _).holdBack, unseen_buf hh]
    exact ite_modify (release_unseen hh r) rfl
  have hpush (r : Run) : pushByte p x (r.modify h) = (pushByte p x r).modify h := by
    unfold pushByte
    dsimp only
    rw [modify_unseen hh (.push x), modify_engine, (hh.keeps _).holdBack, unseen_buf hh]
    exact ite_modify (release_unseen hh _) rfl
  refine andThen_modify ?_
  rw [hroom]
  exact andThen_modify (hpush _)

end

theorem loop_unseen {p : Params} {st : Stream} {h : Engine → Engine} (hh : Unseen p st h) (bs : Bytes) (e : Engine) :
    bs.foldl (st.feedByte p) (Run.start (h e)) = (bs.foldl (st.feedByte p) (Run.start e)).modify h := by
  refine (List.foldl_hom (Run.modify · h) (init := Run.start e) fun r x => ?_)
  cases st
  · exact feed_unseen hh r x
  · exact aadFeed_unseen hh r x

/-- What a stream's byte loop does to the registers. -/
def loopEffect (p : Params) (st : Stream) (bs : Bytes) (e : Engine) : Engine :=
  (bs.foldl (st.feedByte p) (Run.start e)).engine

theorem loopEffect_view (p : Params) (st : Stream) (bs : Bytes) (e : Engine) :
    (loopEffect p st bs e).streamView st.other = e.streamView st.other := by
  refine List.foldlRecOn bs _ (motive := fun r : Run => r.engine.streamView st.other = e.streamView st.other) rfl
    fun r hr x _ => Eq.trans ?_ hr
  cases st
  · exact feed_view p r x
  · exact aadFeed_view p r x

theorem loopEffect_keeps (p : Params) (st : Stream) (bs : Bytes) (e : Engine) : e.Keeps (loopEffect p st bs e) := by
  cases st
  · exact feedAll_keeps p bs (Run.start e)
  · exact aadFeedAll_keeps p bs (Run.start e)

/-- A whole byte loop of one stream is not seen by the other stream's. -/
theorem loopEffect_unseen (p : Params) (st : Stream) (bs : Bytes) : Unseen p st.other (loopEffect p st bs) where
  commutes w hw e := by
    have hunseen : Unseen p st w := other_other st ▸ hw.unseen
    exact congrArg Run.engine (loop_unseen hunseen bs e)
  view := loopEffect_view p st bs
  keeps := loopEffect_keeps p st bs

/-- The two byte loops in the other order, where both succeed. -/
theorem loop_comm {p : Params} {aad msg : Bytes} {e : Engine} (hs : e.session ≠ .failed) :
    let a := aad.foldl (Stream.aad.feedByte p) (Run.start e)
    let last := msg.foldl (Stream.msg.feedByte p) (Run.start a.engine)
    let m := msg.foldl (Stream.msg.feedByte p) (Run.start e)
    let a' := aad.foldl (Stream.aad.feedByte p) (Run.start m.engine)
    a.err = .ok → last.err = .ok → m.err = .ok ∧ a'.err = .ok ∧ a'.engine = last.engine ∧ m.dout = last.dout := by
  intro a last m a' ha hlast
  have hswap : last = m.modify (loopEffect p .aad aad) := loop_unseen (loopEffect_unseen p .aad aad) msg e
  have heng : a'.engine = last.engine := (congrArg Run.engine hswap).symm
  have hsession : last.engine.session = e.session :=
    ((loop_streams p .msg msg a.engine).session hlast).trans ((loop_streams p .aad aad e).session ha)
  refine ⟨(congrArg Run.err hswap).symm.trans hlast, ?_, heng, (congrArg Run.dout hswap).symm⟩
  by_contra herr
  have hfail := ((loop_streams p .aad aad m.engine).failed herr).2
  exact hs (hsession.symm.trans ((congrArg Engine.session heng).symm.trans hfail))

/-! ### The commands in the other order -/

section
variable {p : Params} {st : Stream} {bs : Bytes} {e : Engine} {x : Session}

/-- A byte loop that succeeds does the same whatever STATE holds. -/
theorem loop_session (hs : e.session ≠ .failed) :
    let r := bs.foldl (st.feedByte p) (Run.start e)
    r.err = .ok → bs.foldl (st.feedByte p) (Run.start { e with session := x }) = r.enter fun _ => x := by
  intro r hr
  let a := Run.start { e with session := x }
  have ha : a.after (Run.start e) = a := after_start (a := a) rfl hs
  have hloop : bs.foldl (st.feedByte p) a = a.after r :=
    (congrArg (bs.foldl (st.feedByte p)) ha.symm).trans (loop_after a p st bs _)
  have hrs : r.engine.session ≠ .failed := by rwa [(loop_streams p st bs e).session hr]
  have hresume : x.resume r.engine.session = x := if_neg hrs
  refine hloop.trans ?_
  change Run.mk { r.engine with session := x.resume r.engine.session } r.dout r.requests r.err = r.enter fun _ => x
  rw [hresume]
  rfl

theorem streamRun_session (hs : e.session ≠ .failed) (hacc : st.accepts { e with session := x } = true) :
    let r := bs.foldl (st.feedByte p) (Run.start e)
    r.err = .ok → streamRun p st bs { e with session := x } = r.enter fun _ => st.next x := by
  intro r hr
  rw [streamRun_accepted hacc, loop_session hs hr]
  exact andThen_ok (r.enter fun _ => x) _ hr

theorem loop_ok_of_streamRun_session (h : (streamRun p st bs { e with session := x }).err = .ok) :
    st.accepts { e with session := x } = true ∧ (bs.foldl (st.feedByte p) (Run.start e)).err = .ok := by
  obtain ⟨hacc, hr, -⟩ := streamRun_of_ok h
  have hx : x ≠ .failed := ne_failed_of_acceptsData (acceptsData_of_accepts hacc)
  exact ⟨hacc, (congrArg Run.err (loop_session (e := { e with session := x }) (x := e.session) hx hr)).trans hr⟩

end

/-- UPDATE_AAD and UPDATE in the other order (46_ocb3_data.md R237, 92_eei_decisions.md D37). -/
theorem streamRun_comm {p : Params} {aad msg : Bytes} {e : Engine} :
    let a := streamRun p .aad aad e
    let last := streamRun p .msg msg a.engine
    let m := streamRun p .msg msg e
    let a' := streamRun p .aad aad m.engine
    a.err = .ok → last.err = .ok → m.err = .ok ∧ a'.err = .ok ∧ a'.engine = last.engine ∧ m.dout = last.dout := by
  intro a last m a' ha hlast
  obtain ⟨hacc, hA, hrunA⟩ := streamRun_of_ok ha
  have hdata := acceptsData_of_accepts hacc
  have hs := ne_failed_of_acceptsData hdata
  let A := aad.foldl (Stream.aad.feedByte p) (Run.start e)
  let M := msg.foldl (Stream.msg.feedByte p) (Run.start e)
  let x := Stream.aad.next A.engine.session
  have hAs : A.engine.session ≠ .failed := by rwa [(loop_streams p .aad aad e).session hA]
  have ha : a.engine = { A.engine with session := x } := congrArg Run.engine hrunA
  have hlast' : last = streamRun p .msg msg { A.engine with session := x } := by rw [← ha]
  rw [hlast'] at hlast
  obtain ⟨hacc', hL⟩ := loop_ok_of_streamRun_session (e := A.engine) (x := x) hlast
  obtain ⟨hM, hA', heng, hdout⟩ := loop_comm hs hA hL
  have hMs : M.engine.session ≠ .failed := by rwa [(loop_streams p .msg msg e).session hM]
  have hm : m = M.enter Stream.msg.next := (streamRun_accepted (st := .msg) hdata).trans (andThen_ok _ _ hM)
  have hmode : M.engine.cfgMode = .ocb3 := by
    have hmode : e.cfgMode = .ocb3 := by simpa [Stream.accepts, hdata] using hacc
    exact (loopEffect_keeps p .msg msg e).cfgMode.trans hmode
  have haccM : Stream.aad.accepts { M.engine with session := .messageAccepting } = true := by
    simp [Stream.accepts, hmode, Session.acceptsData]
  have ha' : a' = (aad.foldl (Stream.aad.feedByte p) (Run.start M.engine)).enter fun _ => .messageAccepting := by
    change streamRun p .aad aad m.engine = _
    rw [hm]
    exact streamRun_session hMs haccM hA'
  rw [hlast', streamRun_session hAs hacc' hL, hm, ha']
  refine ⟨hM, hA', ?_, hdout⟩
  exact congrArg (fun e : Engine => { e with session := .messageAccepting }) heng

theorem allOk_ran_of_prefix {s t : State} (h : s.responses <+: t.responses) (r : Run) :
    allOk s (t.ran r) ↔ allOk s t ∧ r.err = .ok := by
  rw [allOk_trans h (ran_responses_prefix t r), allOk_ran]

theorem outputSince_ran_of_prefix {s t : State} (h : s.responses <+: t.responses) (r : Run) :
    outputSince s (t.ran r) = outputSince s t ++ r.dout := by
  rw [outputSince_trans h (ran_responses_prefix t r), outputSince_ran]

/-- Settles O41: the runs of the two commands, in either order, end in the same registers. -/
theorem aadAndMessageCommute : Obligations.AadAndMessageCommute := by
  intro s t aad msg h hok
  let a := streamRun s.params .aad aad s.engine
  let last := streamRun s.params .msg msg a.engine
  let m := streamRun s.params .msg msg s.engine
  let a' := streamRun s.params .aad aad m.engine
  have haad (s : State) : issue (.updateAad aad.length) aad s = .next (s.ran (streamRun s.params .aad aad s.engine)) :=
    issue_instr .aad aad s
  have hmsg (s : State) : issue (.update msg.length) msg s = .next (s.ran (streamRun s.params .msg msg s.engine)) :=
    issue_instr .msg msg s
  obtain rfl : (s.ran a).ran last = t := by
    simp only [issueAll, haad, hmsg, Host.Outcome.next.injEq] at h
    exact h
  have hpre := ran_responses_prefix s
  rw [allOk_ran_of_prefix (hpre a), allOk_ran] at hok
  obtain ⟨hm, ha', heng, hdout⟩ := streamRun_comm hok.1 hok.2
  refine ⟨(s.ran m).ran a', by simp only [issueAll, haad, hmsg]; rfl, ?_, heng, ?_⟩
  · rw [allOk_ran_of_prefix (hpre m), allOk_ran]
    exact ⟨hm, ha'⟩
  · rw [outputSince_ran_of_prefix (hpre m), outputSince_ran_of_prefix (hpre a), outputSince_ran, outputSince_ran,
      streamRun_aad_dout, streamRun_aad_dout, List.append_nil, List.nil_append]
    exact hdout

/-! ### Final (47_ocb3_tag.md R250 to R256) -/

/-- The offset of a stream's partial block; with no partial block the last block's stays (47_ocb3_tag.md R251, R253). -/
def partOffset (lstar part off : Bytes) : Bytes := if part = [] then off else xorBytes off lstar

/-- A partial block's output under its offset (47_ocb3_tag.md R253). -/
def partOut (p : Params) (key off part : Bytes) : Bytes := xorBytes part ((cipherEnc p key off).take part.length)

/-- Step (a): with ABUF empty nothing is folded and nothing asked. -/
theorem foldAad_eq (p : Params) (r : Run) :
    let e := r.engine
    let off := partOffset e.lstar e.abuf e.deltaAad
    let blk := xorBytes (padOne p.blockBytes e.abuf) off
    foldAad p r =
      { r with
        engine :=
          { e with
            abuf := []
            deltaAad := off
            authAcc := if e.abuf = [] then e.authAcc else xorBytes e.authAcc (cipherEnc p e.boundKey blk) }
        requests := r.requests ++ if e.abuf = [] then [] else [⟨.enc, e.boundKey, blk⟩] } := by
  intro e off blk
  unfold foldAad
  split
  next hnil =>
    have hnil : e.abuf = [] := hnil
    simp only [off, partOffset, if_pos hnil, List.append_nil]
    exact (setAbuf_nil r hnil).symm
  next hne =>
    have hne : e.abuf ≠ [] := hne
    simp only [off, blk, partOffset, if_neg hne]
    rfl

/-- Step (b): with BUF empty there is no output and nothing is asked. -/
theorem foldMessage_eq (p : Params) (r : Run) :
    let e := r.engine
    let off := partOffset e.lstar e.buf e.delta
    let x := partOut p e.boundKey off e.buf
    foldMessage p r =
      { r with
        engine :=
          { e with
            buf := []
            delta := off
            checksum := if e.buf = [] then e.checksum
              else xorBytes e.checksum (padOne p.blockBytes (plainOf e.cfgDir e.buf x)) }
        dout := r.dout ++ x
        requests := r.requests ++ if e.buf = [] then [] else [⟨.enc, e.boundKey, off⟩] } := by
  intro e off x
  unfold foldMessage
  split
  next hnil =>
    have hnil : e.buf = [] := hnil
    have hx : x = [] := by rw [show x = partOut p e.boundKey off e.buf from rfl, hnil, partOut, xorBytes_nil_left]
    simp only [hx, off, partOffset, if_pos hnil, List.append_nil]
    exact (setBuf_nil r hnil).symm
  next hne =>
    have hne : e.buf ≠ [] := hne
    simp only [off, x, partOffset, if_neg hne]
    rfl

/-- DO_FINAL in OCB3 while no block index overflows: the byte loop, the two partial blocks, the tag (47_ocb3_tag.md R250). -/
theorem doFinalRun_ocb3 {p : Params} {e : Engine} (h : e.Ocb3Ready p) (msg : Bytes) :
    let text := e.buf ++ msg
    let n := text.length / p.blockBytes
    let part := remainder p.blockBytes text n
    let r := ocb3Released p e text n part
    let offAad := partOffset e.lstar e.abuf e.deltaAad
    let blkAad := xorBytes (padOne p.blockBytes e.abuf) offAad
    let acc := if e.abuf = [] then e.authAcc else xorBytes e.authAcc (cipherEnc p e.boundKey blkAad)
    let offPart := partOffset e.lstar part r.engine.delta
    let out := partOut p e.boundKey offPart part
    let check := if part = [] then r.engine.checksum
      else xorBytes r.engine.checksum (padOne p.blockBytes (plainOf e.cfgDir part out))
    let offTag := xorBytes offPart e.ldollar
    e.midx.toNat + n < 2 ^ 64 →
      doFinalRun p msg e =
        { engine :=
            { r.engine with
              session := .finalized, buf := [], abuf := [], delta := offTag, deltaAad := offAad, checksum := check, authAcc := acc }
          dout := r.dout ++ out ++ (xorBytes (cipherEnc p e.boundKey (xorBytes check offTag)) acc).take e.cfgTaglen.toNat
          requests := r.requests ++ (if e.abuf = [] then [] else [⟨.enc, e.boundKey, blkAad⟩]) ++
            (if part = [] then [] else [⟨.enc, e.boundKey, offPart⟩]) ++ [⟨.enc, e.boundKey, xorBytes check offTag⟩]
          err := .ok } := by
  intro text n part r offAad blkAad acc offPart out check offTag hidx
  have hm : r.engine.cfgMode = .ocb3 := h.mode
  have hfinal : final p r = finalOcb3 p r := by simp [final, hm]
  have hloop : feedAll p msg (Run.start e) = r := feedAll_ocb3 h msg hidx
  rw [doFinalRun_accepted h.accepts, hloop, andThen_ok _ (final p) rfl, hfinal, finalOcb3, foldAad_eq, foldMessage_eq]
  rfl

/-! ### The pieces of a whole session's output (46_ocb3_data.md R238, 47_ocb3_tag.md R253) -/

theorem maskL_length (b : Nat) (lstar : Bytes) (k : Nat) : (maskL b lstar k).length = b := by
  rw [maskL, Function.iterate_succ_apply', double_length]

theorem offsetFrom_length {b : Nat} {base : Bytes} (hbase : base.length = b) (lstar : Bytes) (idx n : Nat) :
    (offsetFrom b lstar base idx n).length = b := by
  induction n with
  | zero => exact hbase
  | succ n ih => rw [offsetFrom, xorBytes_length, ih, maskL_length, min_self]

theorem ocb3Out_length {p : Params} {off : Bytes} (hoff : off.length = p.blockBytes) (dir : Dir) (key blk : Bytes) :
    (ocb3Out p dir key off blk).length = p.blockBytes := by
  rw [ocb3Out, xorBytes_length, cipherOf_length, hoff, min_self]

/-- Output block i of a whole session. -/
def ocb3OutBlock (p : Params) (dir : Dir) (key lstar d0 msg : Bytes) (i : Nat) : Bytes :=
  ocb3Out p dir key (offsetFrom p.blockBytes lstar d0 0 (i + 1)) (blockAt p.blockBytes msg i)

/-- What the full blocks of a message leave over. -/
def partOf (b : Nat) (msg : Bytes) : Bytes := remainder b msg (msg.length / b)

/-- The output of a whole session's partial block. -/
def ocb3OutPart (p : Params) (key lstar d0 msg : Bytes) : Bytes :=
  let part := partOf p.blockBytes msg
  partOut p key (partOffset lstar part (offsetFrom p.blockBytes lstar d0 0 (msg.length / p.blockBytes))) part

theorem ocb3Text_eq (p : Params) (dir : Dir) (key lstar d0 msg : Bytes) :
    ocb3Text p dir key lstar d0 msg =
      (List.range (msg.length / p.blockBytes)).flatMap (ocb3OutBlock p dir key lstar d0 msg) ++
        ocb3OutPart p key lstar d0 msg := by
  unfold ocb3OutPart
  by_cases hnil : partOf p.blockBytes msg = []
  · have hpart : remainder p.blockBytes msg (msg.length / p.blockBytes) = [] := hnil
    rw [ocb3Text, hpart, hnil]
    rfl
  · simp only [partOffset, if_neg hnil]
    rfl

theorem partOf_length (b : Nat) (msg : Bytes) : (partOf b msg).length = msg.length % b := length_remainder_div b msg

theorem ocb3OutPart_length {p : Params} (hb : 1 ≤ p.blockBytes) (key lstar d0 msg : Bytes) :
    (ocb3OutPart p key lstar d0 msg).length = (partOf p.blockBytes msg).length := by
  have hlt := Nat.mod_lt msg.length hb
  simp only [ocb3OutPart, partOut, xorBytes_length, List.length_take, cipherEnc_length, partOf_length]
  omega

section
variable {p : Params} {d0 : Bytes} (hb : 1 ≤ p.blockBytes) (hd : d0.length = p.blockBytes) (dir : Dir) (key lstar msg : Bytes)
include hd

theorem ocb3OutBlock_length (i : Nat) : (ocb3OutBlock p dir key lstar d0 msg i).length = p.blockBytes :=
  ocb3Out_length (offsetFrom_length hd _ _ _) _ _ _

theorem blockAt_ocb3Text {i : Nat} (hi : i < msg.length / p.blockBytes) :
    blockAt p.blockBytes (ocb3Text p dir key lstar d0 msg) i = ocb3OutBlock p dir key lstar d0 msg i := by
  rw [ocb3Text_eq, blockAt_flatMap (ocb3OutBlock_length hd dir key lstar msg) hi]

include hb

theorem ocb3Text_length : (ocb3Text p dir key lstar d0 msg).length = msg.length := by
  rw [ocb3Text_eq, List.length_append, length_flatMap_blocks (ocb3OutBlock_length hd dir key lstar msg),
    ocb3OutPart_length hb, partOf_length, Nat.div_add_mod]

theorem partOf_ocb3Text : partOf p.blockBytes (ocb3Text p dir key lstar d0 msg) = ocb3OutPart p key lstar d0 msg := by
  rw [partOf, ocb3Text_length hb hd, ocb3Text_eq, remainder,
    List.drop_left' (length_flatMap_blocks (ocb3OutBlock_length hd dir key lstar msg) _)]

/-! ### The tag from the plaintext (46_ocb3_data.md R239, 47_ocb3_tag.md R260) -/

/-- The plaintext of a session is as long as its input, and is cut alike. -/
theorem plainOf_ocb3Text :
    let plain := plainOf dir msg (ocb3Text p dir key lstar d0 msg)
    plain.length = msg.length ∧
      (∀ i, i < msg.length / p.blockBytes →
        blockAt p.blockBytes plain i = plainOf dir (blockAt p.blockBytes msg i) (ocb3OutBlock p dir key lstar d0 msg i)) ∧
      partOf p.blockBytes plain = plainOf dir (partOf p.blockBytes msg) (ocb3OutPart p key lstar d0 msg) := by
  cases dir
  · exact ⟨rfl, fun _ _ => rfl, rfl⟩
  · exact ⟨ocb3Text_length hb hd _ key lstar msg, fun _ hi => blockAt_ocb3Text hd _ key lstar msg hi,
      partOf_ocb3Text hb hd _ key lstar msg⟩

end

theorem xorUpTo_congr {base : Bytes} {f g : Nat → Bytes} {n : Nat} (h : ∀ i, i < n → f i = g i) :
    xorUpTo base f n = xorUpTo base g n := by
  induction n with
  | zero => rfl
  | succ n ih => rw [xorUpTo, xorUpTo, ih fun i hi => h i (Nat.lt_succ_of_lt hi), h n n.lt_succ_self]

/-- The checksum of a whole session, as the engine comes by it: from the plaintext of each block, whatever the direction. -/
def ocb3Check (p : Params) (dir : Dir) (key lstar d0 msg : Bytes) : Bytes :=
  let b := p.blockBytes
  let part := partOf b msg
  let full := xorUpTo (zeros b) (fun i => plainOf dir (blockAt b msg i) (ocb3OutBlock p dir key lstar d0 msg i)) (msg.length / b)
  if part = [] then full else xorBytes full (padOne b (plainOf dir part (ocb3OutPart p key lstar d0 msg)))

/-- The tag of a session's plaintext, by the engine's own checksum and last offset. -/
theorem ocb3Tag_plainOf {p : Params} {d0 : Bytes} (hb : 1 ≤ p.blockBytes) (hd : d0.length = p.blockBytes) (dir : Dir)
    (key lstar aad msg : Bytes) :
    let off := partOffset lstar (partOf p.blockBytes msg) (offsetFrom p.blockBytes lstar d0 0 (msg.length / p.blockBytes))
    ocb3Tag p key lstar d0 aad (plainOf dir msg (ocb3Text p dir key lstar d0 msg)) =
      xorBytes (cipherEnc p key (xorBytes (ocb3Check p dir key lstar d0 msg) (xorBytes off (double p.blockBytes lstar))))
        (ocb3Sum p key lstar aad) := by
  obtain ⟨hlen, hblocks, hpart⟩ := plainOf_ocb3Text hb hd dir key lstar msg
  generalize plainOf dir msg (ocb3Text p dir key lstar d0 msg) = plain at hlen hblocks hpart ⊢
  have hnil : partOf p.blockBytes plain = [] ↔ partOf p.blockBytes msg = [] := by
    rw [← List.length_eq_zero_iff, ← List.length_eq_zero_iff, partOf_length, partOf_length, hlen]
  have hcheck : ocb3Checksum p.blockBytes plain = ocb3Check p dir key lstar d0 msg := by
    rw [ocb3Check, ← xorUpTo_congr hblocks, ← hpart, ← hlen]
    simp only [← hnil]
    rfl
  have hoff : (if partOf p.blockBytes plain = [] then offsetFrom p.blockBytes lstar d0 0 (plain.length / p.blockBytes)
      else xorBytes (offsetFrom p.blockBytes lstar d0 0 (plain.length / p.blockBytes)) lstar) =
      partOffset lstar (partOf p.blockBytes msg) (offsetFrom p.blockBytes lstar d0 0 (msg.length / p.blockBytes)) := by
    simp only [partOffset, hnil, hlen]
  dsimp only
  rw [← hcheck, ← hoff]
  rfl

/-- The AAD part of the tag, with the engine's offset for the partial block. -/
theorem ocb3Sum_eq (p : Params) (key lstar aad : Bytes) :
    let b := p.blockBytes
    let off := offsetFrom b lstar (zeros b) 0
    let part := partOf b aad
    let full := xorUpTo (zeros b) (fun i => cipherEnc p key (xorBytes (blockAt b aad i) (off (i + 1)))) (aad.length / b)
    ocb3Sum p key lstar aad =
      if part = [] then full
      else xorBytes full (cipherEnc p key (xorBytes (padOne b part) (partOffset lstar part (off (aad.length / b))))) := by
  intro b off part full
  split
  next hnil => exact if_pos hnil
  next hne =>
    rw [show partOffset lstar part _ = _ from if_neg hne]
    exact if_neg hne

/-! ### A whole session (47_ocb3_tag.md R257, R260) -/

/-- The registers after UPDATE_AAD in a fresh OCB3 session (46_ocb3_data.md R236). -/
def ocb3AfterAad (p : Params) (e : Engine) (aad : Bytes) : Engine :=
  { e.afterAadBlocks p (blockAt p.blockBytes aad) e.lt.length (aad.length / p.blockBytes) with
    session := .aadAccepting
    abuf := partOf p.blockBytes aad }

section
variable {p : Params} {e : Engine} {dir : Dir} {taglen : Nat} {n : Bytes}
  (hb : p.blockBytes = 16 ∨ p.blockBytes = 32)
include hb

theorem wf_of_ocb3Size : p.Wf := by constructor <;> omega

theorem ocb3Configured_bufferInv : (ocb3Configured p e dir taglen n).BufferInv p :=
  have hwf := wf_of_ocb3Size hb
  { reset_bufferInv hwf with bufEager := fun _ _ => hwf.1, abufEager := fun _ => hwf.1 }

theorem ocb3Configured_tableInv (ht : 1 ≤ taglen) (htb : taglen ≤ p.blockBytes) :
    (ocb3Configured p e dir taglen n).TableInv p :=
  have hstep : EngineStep p (Engine.keyed p e.key) (ocb3Configured p e dir taglen n) :=
    .ocb3 (by simp [Engine.keyed]) dir taglen _ _ hb ⟨ht, htb⟩ (cipherEnc_length _ _ _) (by simp [delta0])
  hstep.tableInv (.of_mode (by simp [Engine.keyed]))

theorem ocb3AfterAad_ready (aad : Bytes) : (ocb3AfterAad p (ocb3Configured p e dir taglen n) aad).Ocb3Ready p where
  size := by omega
  buf := by
    change 0 < p.blockBytes
    omega
  entries := by simp [ocb3AfterAad, Engine.afterAadBlocks]
  nonempty := by
    simp only [ocb3AfterAad, Engine.afterAadBlocks, masks_length]
    exact one_le_tableLength _ _ _ (le_refl 1)
  accepts := rfl
  mode := rfl

/-- The last command of a whole session: the text, then the leading bytes of the tag of the plaintext. -/
theorem doFinalRun_ocb3Session (htb : taglen ≤ p.blockBytes) (aad : Bytes) {msg : Bytes}
    (hm : msg.length / p.blockBytes < 2 ^ 64) :
    let lstar := cipherEnc p e.boundKey (zeros p.blockBytes)
    let d0 := delta0 p e.boundKey n
    let text := ocb3Text p dir e.boundKey lstar d0 msg
    let r := doFinalRun p msg (ocb3AfterAad p (ocb3Configured p e dir taglen n) aad)
    r.err = .ok ∧ r.engine.key = e.key ∧ r.engine.session = .finalized ∧
      r.dout = text ++ (ocb3Tag p e.boundKey lstar d0 aad (plainOf dir msg text)).take taglen := by
  intro lstar d0 text r
  have hidx : (0#64).toNat + msg.length / p.blockBytes < 2 ^ 64 := by simpa using hm
  have hrun := doFinalRun_ocb3 (ocb3AfterAad_ready (e := e) (dir := dir) (taglen := taglen) (n := n) hb aad) msg hidx
  have htag : (BitVec.ofNat 8 taglen).toNat = taglen := Nat.mod_eq_of_lt (by omega)
  refine ⟨congrArg Run.err hrun, congrArg (·.engine.key) hrun, congrArg (·.engine.session) hrun, ?_⟩
  have htext : text = _ := ocb3Text_eq p dir e.boundKey lstar d0 msg
  have htagEq : ocb3Tag p e.boundKey lstar d0 aad (plainOf dir msg text) = _ :=
    ocb3Tag_plainOf (by omega) (blkOf_length _ _) dir e.boundKey lstar aad msg
  rw [htagEq, htext, ocb3Sum_eq, ← htag]
  exact congrArg Run.dout hrun

end

/-- A session of INIT_MODE.OCB3, UPDATE_AAD and DO_FINAL succeeds, shows the text and the tag, and keeps the key. -/
theorem issueAll_ocb3 {s : State} {p : Params} {key : Bytes} (hs : s.engine.session ≠ .uninit) (hp : s.params = p)
    (hkey : s.engine.boundKey = key) (dir : Dir) {taglen : Nat} {nonce aad msg : Bytes}
    (hb : p.blockBytes = 16 ∨ p.blockBytes = 32) (ht : 1 ≤ taglen) (htb : taglen ≤ p.blockBytes)
    (hiv : nonce.length ≤ p.blockBytes - 1) (ha : aad.length / p.blockBytes < 2 ^ 64)
    (hm : msg.length / p.blockBytes < 2 ^ 64) :
    let lstar := cipherEnc p key (zeros p.blockBytes)
    let d0 := delta0 p key (nonceBlock p nonce taglen)
    let text := ocb3Text p dir key lstar d0 msg
    ∃ t,
      issueAll [(.initModeOcb3 dir false taglen nonce.length, nonce), (.updateAad aad.length, aad), (.doFinal msg.length, msg)] s
        = .next t ∧
      allOk s t ∧ outputSince s t = text ++ (ocb3Tag p key lstar d0 aad (plainOf dir msg text)).take taglen ∧
      t.params = p ∧ t.engine.boundKey = key ∧ t.engine.session ≠ .uninit := by
  subst hp hkey
  intro lstar d0 text
  let p := s.params
  let key := s.engine.boundKey
  let n := nonceBlock p nonce taglen
  let e := ocb3Configured p s.engine dir taglen n
  let r₀ : Run := ⟨e, [], ocb3InitRequests p key n, .ok⟩
  let off := offsetFrom p.blockBytes e.lstar e.deltaAad e.aidx.toNat
  let r₁ : Run := ⟨ocb3AfterAad p e aad, [],
    (List.range (aad.length / p.blockBytes)).map fun i =>
      ⟨.enc, key, xorBytes (blockAt p.blockBytes aad i) (off (i + 1))⟩, .ok⟩
  let r₂ := doFinalRun p msg (ocb3AfterAad p e aad)
  obtain ⟨hok, hkey, hsession, hout⟩ :=
    doFinalRun_ocb3Session (e := s.engine) (dir := dir) (n := n) hb htb aad hm
  have hinit : issue (.initModeOcb3 dir false taglen nonce.length) nonce s = .next (s.ran r₀) := by
    rw [issue_supplied rfl, Instr.run, initModeRun_ocb3 hs hb ht htb hiv]
  have haad : issue (.updateAad aad.length) aad (s.ran r₀) = .next ((s.ran r₀).ran r₁) := by
    have hidx : (0#64).toNat + aad.length / p.blockBytes < 2 ^ 64 := by simpa using ha
    exact updateAadFoldsBlocks { s.ran r₀ with input := sendBytes aad } aad [] (wf_of_ocb3Size hb)
      (ocb3Configured_bufferInv hb) (ocb3Configured_tableInv hb ht htb) rfl rfl hidx (List.append_nil _).symm
  have hfinal : issue (.doFinal msg.length) msg ((s.ran r₀).ran r₁) = .next (((s.ran r₀).ran r₁).ran r₂) :=
    issue_supplied rfl _
  have hpre := ran_responses_prefix s r₀
  have hpre' := hpre.trans (ran_responses_prefix (s.ran r₀) r₁)
  refine ⟨((s.ran r₀).ran r₁).ran r₂, by simp only [issueAll, hinit, haad, hfinal], ?_, ?_, rfl,
    congrArg (·.getD []) hkey, ?_⟩
  · rw [allOk_ran_of_prefix hpre', allOk_ran_of_prefix hpre, allOk_ran]
    exact ⟨⟨rfl, rfl⟩, hok⟩
  · rw [outputSince_ran_of_prefix hpre', outputSince_ran_of_prefix hpre, outputSince_ran]
    exact hout
  · rw [ran_engine, show r₂.engine.session = _ from hsession]
    simp

/-! ### The round trip of two sessions (46_ocb3_data.md R240, 00_scope.md R7) -/

/-- Decrypting a block under the offset it was encrypted under. -/
theorem ocb3Out_decrypt_encrypt {p : Params} (hrt : CipherRoundTrips p) {key off blk : Bytes} (hkey : key.length ∈ p.keyLengths)
    (hoff : off.length = p.blockBytes) (hblk : blk.length = p.blockBytes) :
    ocb3Out p .decrypt key off (ocb3Out p .encrypt key off blk) = blk := by
  simp only [ocb3Out, cipherOf]
  rw [xorBytes_cancel _ off (by rw [cipherEnc_length, hoff]), hrt key _ hkey (by rw [xorBytes_length, hblk, hoff, min_self]),
    xorBytes_cancel _ _ (by rw [hblk, hoff])]

/-- The partial block's keystream, XORed in twice. -/
theorem partOut_partOut {p : Params} {part : Bytes} (hpart : part.length ≤ p.blockBytes) (key off : Bytes) :
    partOut p key off (partOut p key off part) = part := by
  rw [partOut, xorBytes_take, partOut, xorBytes_take, xorBytes_cancel _ _ (by rwa [cipherEnc_length])]

theorem ocb3Text_roundTrip {p : Params} (hb : 1 ≤ p.blockBytes) (hrt : CipherRoundTrips p) {key d0 : Bytes}
    (hkey : key.length ∈ p.keyLengths) (hd : d0.length = p.blockBytes) (lstar msg : Bytes) :
    ocb3Text p .decrypt key lstar d0 (ocb3Text p .encrypt key lstar d0 msg) = msg := by
  let ct := ocb3Text p .encrypt key lstar d0 msg
  let m := msg.length / p.blockBytes
  have hlen : ct.length = msg.length := ocb3Text_length hb hd .encrypt key lstar msg
  have hpart : partOf p.blockBytes ct = ocb3OutPart p key lstar d0 msg := partOf_ocb3Text hb hd .encrypt key lstar msg
  have hblocks : (List.range m).flatMap (ocb3OutBlock p .decrypt key lstar d0 ct) = msg.take (p.blockBytes * m) := by
    rw [← flatMap_blockAt]
    refine List.flatMap_congr fun i hi => ?_
    have hi : i < m := List.mem_range.1 hi
    have hle : p.blockBytes * (i + 1) ≤ msg.length := (Nat.mul_le_mul_left _ hi).trans (Nat.mul_div_le _ _)
    rw [ocb3OutBlock, blockAt_ocb3Text hd .encrypt key lstar msg hi]
    exact ocb3Out_decrypt_encrypt hrt hkey (offsetFrom_length hd _ _ _) (blockAt_length _ _ _ hle)
  have hnil : ocb3OutPart p key lstar d0 msg = [] ↔ partOf p.blockBytes msg = [] := by
    rw [← List.length_eq_zero_iff, ocb3OutPart_length hb, List.length_eq_zero_iff]
  have hoff : partOffset lstar (ocb3OutPart p key lstar d0 msg) = partOffset lstar (partOf p.blockBytes msg) := by
    funext off
    simp only [partOffset, hnil]
  have hlast : ocb3OutPart p key lstar d0 ct = partOf p.blockBytes msg := by
    change partOut p key (partOffset lstar (partOf p.blockBytes ct) (offsetFrom _ _ _ _ (ct.length / _))) (partOf _ ct) = _
    rw [hpart, hoff, hlen]
    exact partOut_partOut ((partOf_length _ _).trans_le (Nat.mod_lt _ hb).le) key _
  rw [ocb3Text_eq, show ct.length = _ from hlen, hlast]
  exact (congrArg (· ++ _) hblocks).trans (List.take_append_drop _ _)

theorem boundKey_length {p : Params} {e : Engine} (hk : e.KeyInv p) (hs : e.session ≠ .uninit) :
    e.boundKey.length ∈ p.keyLengths := by
  obtain ⟨key, hkey⟩ := Option.ne_none_iff_exists'.1 (mt hk.bound.2 hs)
  rw [Engine.boundKey, hkey]
  exact hk.length key hkey

/-- Settles O57: the Decrypt session turns the text back into the message, so both tags are of the same plaintext. -/
theorem ocb3SessionRoundTrip : Obligations.Ocb3SessionRoundTrip := by
  intro s taglen nonce aad msg b run hb hrt hs hk ht htb hiv ha hm
  let p := s.params
  let key := s.engine.boundKey
  let lstar := cipherEnc p key (zeros b)
  let d0 := delta0 p key (nonceBlock p nonce taglen)
  let ct := ocb3Text p .encrypt key lstar d0 msg
  let tag := (ocb3Tag p key lstar d0 aad msg).take taglen
  have hd : d0.length = b := blkOf_length _ _
  have hct : ct.length = msg.length := ocb3Text_length (by omega) hd .encrypt key lstar msg
  have hplain : ocb3Text p .decrypt key lstar d0 ct = msg :=
    ocb3Text_roundTrip (by omega) hrt (boundKey_length hk hs) hd lstar msg
  obtain ⟨t, hst, hallst, hout, hp, hkey, hsession⟩ := issueAll_ocb3 hs rfl rfl .encrypt hb ht htb hiv ha hm
  have hout : outputSince s t = ct ++ tag := hout
  obtain ⟨u, htu, halltu, hout', -⟩ := issueAll_ocb3 hsession hp hkey .decrypt (msg := ct) hb ht htb hiv ha (by rwa [hct])
  have hout' : outputSince t u = msg ++ tag := by
    refine hout'.trans ?_
    rw [hplain]
    rfl
  have htake : (outputSince s t).take msg.length = ct := by rw [hout, List.take_left' hct]
  refine ⟨t, u, hst, hallst, ?_, halltu, ?_, ?_⟩
  · rw [htake]
    exact htu
  · rw [hout', List.take_left]
  · rw [hout, hout', List.drop_left, List.drop_left' hct]

end Sys2Proof.Machine
end

section
/-! PROOFS of the statements of 47_ocb3_tag.md. The run of DO_FINAL and that of a whole session are known from 46_ocb3_data.md
(`doFinalRun_ocb3`, `issueAll_ocb3`); what is left is that a tag before its truncation is one block, so that taglen bytes of it are
output. -/

namespace Sys2Proof.Machine

/-! ### Final (47_ocb3_tag.md R250 to R259) -/

/-- Settles O32: the byte loop, the two partial blocks and the tag are one run, and the machine answers with it. -/
theorem doFinalOcb3EmitsTag : Obligations.DoFinalOcb3EmitsTag := by
  intro s msg rest p e b text n off out r deltaAad aadBlock acc deltaR partOut full check deltaT hwf hbuf htab hs hm hidx hin
  rw [exec_doFinal hin (doFinalRun_ocb3 (ocb3Ready_of_inv hwf hbuf htab hs hm) msg hidx)]
  rfl

/-! ### The width of the tag (47_ocb3_tag.md R256, R260) -/

/-- XOR of blocks into a block gives a block. -/
theorem xorUpTo_length {b : Nat} {base : Bytes} {f : Nat → Bytes} (hbase : base.length = b) (hf : ∀ i, (f i).length = b)
    (n : Nat) : (xorUpTo base f n).length = b := by
  induction n with
  | zero => exact hbase
  | succ n ih => rw [xorUpTo, xorBytes_length, ih, hf, min_self]

theorem ocb3Sum_length (p : Params) (key lstar aad : Bytes) : (ocb3Sum p key lstar aad).length = p.blockBytes := by
  have hfull := fun f : Nat → Bytes =>
    xorUpTo_length (zeros_length p.blockBytes) (fun i => cipherEnc_length p key (f i)) (aad.length / p.blockBytes)
  rw [ocb3Sum_eq]
  split
  · exact hfull _
  · rw [xorBytes_length, hfull, cipherEnc_length, min_self]

theorem ocb3Tag_length (p : Params) (key lstar d0 aad plain : Bytes) :
    (ocb3Tag p key lstar d0 aad plain).length = p.blockBytes := by
  rw [ocb3Tag, xorBytes_length, cipherEnc_length, ocb3Sum_length, min_self]

/-! ### A whole session's output (47_ocb3_tag.md R257, R260) -/

/-- Settles O56: the session's output is the text and the truncated tag, which is taglen bytes since the tag is one block. -/
theorem ocb3SessionComputesTag : Obligations.Ocb3SessionComputesTag := by
  intro s dir taglen nonce aad msg p b key lstar d0 text hb hs ht htb hiv ha hm
  obtain ⟨t, hst, hok, hout, -⟩ := issueAll_ocb3 hs rfl rfl dir hb ht htb hiv ha hm
  have hout : outputSince s t = text ++ (ocb3Tag p key lstar d0 aad (plainOf dir msg text)).take taglen := hout
  have htext : text.length = msg.length := ocb3Text_length (wf_of_ocb3Size hb).1 (blkOf_length _ _) dir key lstar msg
  refine ⟨t, hst, hok, htext, ?_, hout⟩
  rw [hout, List.length_append, htext, List.length_take_of_le (htb.trans (ocb3Tag_length ..).ge)]

end Sys2Proof.Machine
end

section
/-! PROOFS of the statements of 60_exceptions.md. A mode that refuses its fields leaves one run whatever the mode
(`initModeRun_configError`), so each of the three clauses on INIT_MODE is that the mode's own check fails. -/

namespace Sys2Proof.Machine

/-! ### The refused configurations (60_exceptions.md R271, R276) -/

/-- A mode that refuses its fields leaves the cleared session with the key still bound. -/
theorem initModeRun_configError {p : Params} {mode : Mode} {dir : Dir} {pad : Bool} {taglen : Nat} {init : Run → Run} {e : Engine}
    (h : e.session ≠ .uninit) (hinit : ∀ r, init r = r.raise .configError) :
    initModeRun p mode dir pad taglen init e = (Run.start (Engine.keyed p e.key)).raise .configError := by
  rw [initModeRun_keyed h, hinit]
  rfl

theorem exec_configError {i : Instr} {s : State} {din : Bytes} {rest : List HostInput} (hl : din.length = i.dataLength)
    (hin : s.input = sendBytes din ++ rest)
    (hrun : Instr.run i s.params din s.engine = (Run.start (Engine.keyed s.params s.engine.key)).raise .configError) :
    exec i s = .next (s.answered rest (Engine.keyed s.params s.engine.key) .configError [] []) := by
  rw [exec_supplied i s din rest hl hin, hrun]
  rfl

theorem refusesOcb3_iff {b taglen ivlen : Nat} {pad : Bool} :
    refusesOcb3 b pad taglen ivlen = true ↔
      taglen = 0 ∨ b < taglen ∨ b - 1 < ivlen ∨ pad = true ∨ (b ≠ 16 ∧ b ≠ 32) := by
  simp [refusesOcb3, or_assoc]

/-- Settles O22: each listed field fails the check that comes first in its mode's own part. -/
theorem initModeConfigErrors : Obligations.InitModeConfigErrors := by
  intro s dir pad taglen iv rest b refused hs hin
  refine ⟨fun hecb => ?_, fun hctr => ?_, fun hocb3 => ?_⟩
  · exact exec_configError rfl hin (initModeRun_configError hs fun _ => if_pos hecb)
  · exact exec_configError rfl hin (initModeRun_configError hs fun _ => if_pos hctr)
  · exact exec_configError rfl hin (initModeRun_configError hs fun _ => if_pos (refusesOcb3_iff.mpr hocb3))

/-! ### Illegal words (60_exceptions.md R275) -/

/-- Settles O8: the fetch takes the word's four bytes off the channel, and the answer to an illegal word is a run that does nothing. -/
theorem illegalWordIsAnswered : Obligations.IllegalWordIsAnswered := by
  intro s w why rest hin hw
  rw [step, fetch_word s w rest hin, hw]
  exact congrArg Host.Outcome.next (answer_eq_answered s rest ((Run.start s.engine).raise .illegalCommand))

/-! ### The idle engine (60_exceptions.md R288) -/

theorem fetch_idle {s : State} (h : s.input = []) : s.fetch = .idle := by
  rw [State.fetch, h]

/-- Settles O9: an empty channel is fetched as idle. -/
theorem idleEngineHoldsState : Obligations.IdleEngineHoldsState := by
  intro s h
  rw [step, fetch_idle h]

/-! ### The cipher's answers (60_exceptions.md R285) -/

/-- Settles O47: the request is for the one or the other direction of the cipher, and both answer one block. -/
theorem cipherAnswersOneBlock : Obligations.CipherAnswersOneBlock := by
  rintro p ⟨op, key, blk⟩
  cases op with
  | enc => exact cipherEnc_length p key blk
  | dec => exact cipherDec_length p key blk

end Sys2Proof.Machine
end

section
/-! PROOFS of the statements of 70_reset_and_hazards.md. One step serves one command that is all there (`step_send`), and a reset is
met by the fetch or by the command. For R313 the difference of two ciphertexts is followed to the tag: through the decrypted block
(`blockAt_decrypt_eq_iff`), the checksum (`ocb3Checksum_ne`) and the cipher (`ocb3Checksum_eq_of_ocb3Tag_eq`). -/

namespace Sys2Proof.Machine

/-! ### Data-in that is not all there (70_reset_and_hazards.md R300, R301, R311) -/

/-- Fewer than four bytes and then a reset are no word. -/
theorem fetch_resetInWord {s : State} {sent : Bytes} {rest : List HostInput} (hin : s.input = sendBytes sent ++ .reset :: rest)
    (hl : sent.length < 4) : s.fetch = .partialWord := by
  have ht : takeBytes 4 s.input = none := hin ▸ takeBytes_reset 4 sent rest hl
  unfold State.fetch
  split
  next hnil => simp [hin] at hnil
  next => rw [ht]

theorem starved_reset {s : State} {sent : Bytes} {rest : List HostInput} (hin : s.input = sendBytes sent ++ .reset :: rest)
    (why : Fault) : s.starved why = .next (s.hardReset rest) := by
  rw [State.starved, hin, afterReset_reset]

/-- Settles O11: a reset inside the word starves the fetch, and one inside the data-in starves the command. -/
theorem resetAbandonsCommand : Obligations.ResetAbandonsCommand := by
  rintro s sent rest hin (hl | ⟨w, i, d, rfl, hw, hd⟩)
  · rw [step, fetch_resetInWord hin hl]
    exact starved_reset hin _
  · rw [sendBytes_append, List.append_assoc] at hin
    rw [stepRunsDecodedCommand s w i _ hin hw, exec_eq_command]
    exact command_abandoned _ _ _ d rest rfl hd

/-- Settles O12: the word is fetched, and its command finds the channel empty. -/
theorem shortDataLeavesCommandStuck : Obligations.ShortDataLeavesCommandStuck := by
  intro s w i d hin hw hd
  rw [sendBytes_append] at hin
  rw [stepRunsDecodedCommand s w i _ hin hw, exec_eq_command]
  exact command_stuck _ _ _ d rfl hd

/-! ### After reset (70_reset_and_hazards.md R302) -/

theorem run_uninit {i : Instr} (hi : ∀ k, i ≠ .initCipher k) (p : Params) (din : Bytes) {e : Engine} (he : e.session = .uninit) :
    Instr.run i p din e = (Run.start e).raise .sequenceError := by
  have hclosed : e.session.acceptsData = false := by rw [he]; rfl
  cases i with
  | initCipher k => exact absurd rfl (hi k)
  | initModeEcb | initModeCtr | initModeOcb3 => exact initModeRun_refused he
  | updateAad len => exact (run_instr .aad len p din e).trans (streamRun_refused (by simp [Stream.accepts, hclosed]))
  | update len => exact (run_instr .msg len p din e).trans (streamRun_refused hclosed)
  | doFinal => exact doFinalRun_refused hclosed

/-- The machine right after reset with bytes on the host's channel. -/
def State.resetSent (p : Params) (sent : Bytes) (rest : List HostInput) : State :=
  { State.resetWith p with input := sendBytes sent ++ rest }

/-- STATUS without a configured session: STATE and ERR, all other fields 0 (10_state.md R28). -/
theorem statusWord_unconfigured (p : Params) (session : Session) (key : Option Bytes) (err : Err) :
    statusWord err { Engine.reset p with session := session, key := key } =
      BitVec.ofNat 32 session.code ||| BitVec.ofNat 32 err.code <<< 4 := by
  simp [statusWord, Engine.buflen, Mode.code, dirCode]

/-- The first answer after reset, by a command that configures no session and outputs nothing. -/
theorem answered_resetSent (p : Params) (sent : Bytes) (rest : List HostInput) (session : Session) (key : Option Bytes) (err : Err) :
    let e : Engine := { Engine.reset p with session := session, key := key }
    Host.Outcome.next (φ := Fault) (ρ := Refusal) ((State.resetSent p sent rest).answered rest e err [] []) =
      .next { State.resetWith p with
        engine := e
        input := rest
        responses := [⟨BitVec.ofNat 32 session.code ||| BitVec.ofNat 32 err.code <<< 4, 0#32, []⟩] } := by
  rw [← statusWord_unconfigured p session key err]
  rfl

/-- Settles O13: after reset the session is UNINIT, where every command but INIT_CIPHER is out of sequence. -/
theorem afterResetOnlyInitCipherSucceeds : Obligations.AfterResetOnlyInitCipherSucceeds := by
  refine fun p din rest => ⟨fun i hi hl => ?_, fun w why hw => ?_, fun key hk => ?_⟩
  · have hexec := exec_outOfSequence (s := State.resetSent p din rest) hl rfl (run_uninit hi p din rfl)
    exact hexec.trans (answered_resetSent p din rest .uninit none .sequenceError)
  · have hstep := illegalWordIsAnswered (State.resetSent p (wordBytes p.wordOrder w) rest) w why rest rfl hw
    exact hstep.trans (answered_resetSent p _ rest .uninit none .illegalCommand)
  · have hexec := initCipherBindsKey (State.resetSent p key rest) key rest hk rfl
    exact hexec.trans (answered_resetSent p key rest .keyBound (some key) .ok)

/-! ### Every command is answered (70_reset_and_hazards.md R315) -/

theorem run_core_succ {s t : State} (h : step s = .next t) (n : Nat) :
    Host.Core.run Sys2Proof.core (n + 1) s = Host.Core.run Sys2Proof.core n t := by
  simp only [Host.Core.run, show Sys2Proof.core.step s = .next t from h]

/-- One step serves one well-formed command, legal or not: it takes what was sent of it and adds one response. -/
theorem step_send {s : State} {c : Command} {rest : List HostInput} (hc : c.wf = true)
    (hin : s.input = c.send s.params.wordOrder ++ rest) :
    ∃ e err dout asked, step s = .next (s.answered rest e err dout asked) := by
  have hlen : c.din.length = dataInLength c.word := beq_iff_eq.1 hc
  rw [Command.send, sendBytes_append, List.append_assoc] at hin
  unfold dataInLength at hlen
  split at hlen
  next i hw =>
    rw [stepRunsDecodedCommand s c.word i _ hin hw]
    exact ⟨_, _, _, _, exec_supplied i _ c.din rest hlen rfl⟩
  next why hw =>
    rw [List.eq_nil_of_length_eq_zero hlen] at hin
    exact ⟨_, _, _, _, illegalWordIsAnswered s c.word why rest hin hw⟩

/-- Settles O14, by induction on the commands: each is served by one step, which leaves the rest on the channel. -/
theorem everyCommandIsAnswered : Obligations.EveryCommandIsAnswered := by
  intro s cs rest hcs hin
  induction cs generalizing s with
  | nil => exact ⟨s, rfl, hin, List.prefix_refl _, rfl⟩
  | cons c cs ih =>
    obtain ⟨hc, hcs⟩ := List.forall_mem_cons.1 hcs
    rw [List.flatMap_cons, List.append_assoc] at hin
    obtain ⟨e, err, dout, asked, hstep⟩ := step_send hc hin
    let s' := s.answered (cs.flatMap (Command.send s.params.wordOrder) ++ rest) e err dout asked
    obtain ⟨t, hrun, hrest, hpre, hlen⟩ := ih s' hcs rfl
    refine ⟨t, (run_core_succ hstep _).trans hrun, hrest, (List.prefix_append _ _).trans hpre, ?_⟩
    rw [hlen, answered_responses, List.length_append, List.length_singleton, List.length_cons]
    omega

/-! ### The cipher permutes the blocks (00_scope.md R7) -/

section
variable {p : Params} (hrt : CipherRoundTrips p) {key : Bytes} (hkey : key.length ∈ p.keyLengths)
include hrt hkey

theorem cipherDec_leftInvOn : {blk : Bytes | blk.length = p.blockBytes}.LeftInvOn (cipherDec p key) (cipherEnc p key) :=
  fun blk hblk => hrt key blk hkey hblk

/-- Dec is injective because Enc, injective on the finitely many blocks, reaches them all. -/
theorem cipherDec_injOn : {blk : Bytes | blk.length = p.blockBytes}.InjOn (cipherDec p key) := by
  have hleft := cipherDec_leftInvOn hrt hkey
  have hfin : {blk : Bytes | blk.length = p.blockBytes}.Finite := List.finite_length_eq Byte _
  have hbij := (hfin.injOn_iff_bijOn_of_mapsTo fun blk _ => cipherEnc_length p key blk).1 hleft.injOn
  exact (hbij.surjOn.leftInvOn_of_rightInvOn hleft).injOn

theorem ocb3Out_decrypt_inj {off x y : Bytes} (hoff : off.length = p.blockBytes) (hx : x.length = p.blockBytes)
    (hy : y.length = p.blockBytes) (h : ocb3Out p .decrypt key off x = ocb3Out p .decrypt key off y) : x = y := by
  have hmasked {z : Bytes} (hz : z.length = p.blockBytes) : (xorBytes z off).length = p.blockBytes := by
    rw [xorBytes_length, hz, hoff, min_self]
  have hdec := xorBytes_left_inj _ _ off (by simp [cipherOf, hoff]) (by simp [cipherOf, hoff]) h
  exact xorBytes_left_inj x y off (hx.trans hoff.symm).le (hy.trans hoff.symm).le
    (cipherDec_injOn hrt hkey (hmasked hx) (hmasked hy) hdec)

end

/-! ### Blocks that differ before and after decryption (46_ocb3_data.md R240, 47_ocb3_tag.md R253) -/

/-- The partial block is the one behind the full blocks. -/
theorem blockAt_div {b n : Nat} (hb : 1 ≤ b) {text : Bytes} (hl : text.length = n) : blockAt b text (n / b) = partOf b text :=
  hl ▸ List.take_of_length_le ((partOf_length b text).trans_le (Nat.mod_lt _ hb).le)

theorem blockAt_eq_nil {b : Nat} {text : Bytes} {i : Nat} (hi : text.length ≤ b * i) : blockAt b text i = [] := by
  rw [blockAt, List.drop_eq_nil_of_le hi, List.take_nil]

/-- Texts of one length have partial blocks of one length, and so offsets alike for them. -/
theorem partOffset_of_length {b : Nat} {x y : Bytes} (hl : y.length = x.length) (lstar off : Bytes) :
    partOffset lstar (partOf b y) off = partOffset lstar (partOf b x) off := by
  have hnil : partOf b y = [] ↔ partOf b x = [] := by
    rw [← List.length_eq_zero_iff, ← List.length_eq_zero_iff, partOf_length, partOf_length, hl]
  simp only [partOffset, hnil]

theorem ocb3OutPart_eq_iff {p : Params} (hb : 1 ≤ p.blockBytes) {key lstar d0 x y : Bytes} (hl : y.length = x.length) :
    ocb3OutPart p key lstar d0 x = ocb3OutPart p key lstar d0 y ↔ partOf p.blockBytes x = partOf p.blockBytes y := by
  have hlen (z : Bytes) : (partOf p.blockBytes z).length ≤ p.blockBytes :=
    (partOf_length _ _).trans_le (Nat.mod_lt _ hb).le
  simp only [ocb3OutPart, hl, partOffset_of_length hl]
  refine ⟨fun h => ?_, fun h => by rw [h]⟩
  rw [← partOut_partOut (hlen x), h, partOut_partOut (hlen y)]

/-- Decryption keeps apart, block by block, what differs. -/
theorem blockAt_decrypt_eq_iff {p : Params} (hb : 1 ≤ p.blockBytes) (hrt : CipherRoundTrips p) {key d0 ct ct' : Bytes}
    (hkey : key.length ∈ p.keyLengths) (hd : d0.length = p.blockBytes) (hl : ct'.length = ct.length) (lstar : Bytes) (i : Nat) :
    let text := ocb3Text p .decrypt key lstar d0
    blockAt p.blockBytes (text ct) i = blockAt p.blockBytes (text ct') i ↔
      blockAt p.blockBytes ct i = blockAt p.blockBytes ct' i := by
  intro text
  have hlen (x : Bytes) : (text x).length = x.length := ocb3Text_length hb hd .decrypt key lstar x
  rcases lt_trichotomy i (ct.length / p.blockBytes) with hi | rfl | hi
  · have hfull : p.blockBytes * (i + 1) ≤ ct.length := (Nat.mul_le_mul_left _ hi).trans (Nat.mul_div_le _ _)
    rw [blockAt_ocb3Text hd _ _ _ _ hi, blockAt_ocb3Text hd _ _ _ _ (by rwa [hl])]
    refine ⟨ocb3Out_decrypt_inj hrt hkey (offsetFrom_length hd _ _ _) (blockAt_length _ _ _ hfull)
      (blockAt_length _ _ _ (by rwa [hl])), fun h => ?_⟩
    rw [ocb3OutBlock, ocb3OutBlock, h]
  · rw [blockAt_div hb (hlen ct), blockAt_div hb ((hlen ct').trans hl), blockAt_div hb rfl, blockAt_div hb hl,
      partOf_ocb3Text hb hd, partOf_ocb3Text hb hd]
    exact ocb3OutPart_eq_iff hb hl
  · have hend : ct.length ≤ p.blockBytes * i := (Nat.mul_comm i _ ▸ Nat.lt_mul_of_div_lt hi hb).le
    simp only [blockAt_eq_nil, hlen, hl, hend]

/-! ### The checksum of texts that differ in one block (47_ocb3_tag.md R260) -/

/-- What a block of plaintext adds to the checksum: itself, padded when it is a partial one, nothing when it is empty. -/
def checkTerm (b : Nat) (blk : Bytes) : Bytes :=
  if blk = [] then zeros b else if blk.length < b then padOne b blk else blk

theorem checkTerm_length {b : Nat} {blk : Bytes} (h : blk.length ≤ b) : (checkTerm b blk).length = b := by
  unfold checkTerm
  split
  next => exact zeros_length b
  next =>
    split
    next hlt => exact padOne_length b blk hlt
    next hge => omega

theorem checkTerm_inj {b : Nat} {x y : Bytes} (hl : x.length = y.length) (h : checkTerm b x = checkTerm b y) : x = y := by
  have hnil : x = [] ↔ y = [] := by rw [← List.length_eq_zero_iff, ← List.length_eq_zero_iff, hl]
  unfold checkTerm at h
  simp only [hl, hnil] at h
  split at h
  next hy => rw [hy, hnil.2 hy]
  next =>
    split at h
    next => exact List.append_inj_left h hl
    next => exact h

/-- The sum tells two families of blocks apart that differ in one member. -/
theorem xorUpTo_ne {b : Nat} {base : Bytes} {f g : Nat → Bytes} (hbase : base.length = b) (hf : ∀ i, (f i).length = b)
    (hg : ∀ i, (g i).length = b) {j n : Nat} (hj : j < n) (hne : f j ≠ g j) (hother : ∀ i, i ≠ j → f i = g i) :
    xorUpTo base f n ≠ xorUpTo base g n := by
  induction n with
  | zero => cases hj
  | succ n ih =>
    have hsum := xorUpTo_length hbase hf n
    have hsum' := xorUpTo_length hbase hg n
    rw [xorUpTo, xorUpTo]
    rcases Nat.lt_succ_iff_lt_or_eq.1 hj with hlt | rfl
    · rw [hother n hlt.ne']
      exact mt (xorBytes_left_inj _ _ _ (by rw [hsum, hg]) (by rw [hsum', hg])) (ih hlt)
    · rw [xorUpTo_congr fun i hi => hother i hi.ne, xorBytes_comm, xorBytes_comm _ (g j)]
      exact mt (xorBytes_left_inj _ _ _ (by rw [hsum', hf]) (by rw [hsum', hg])) hne

section
variable {b : Nat}

theorem checkTerm_blockAt_length (plain : Bytes) (i : Nat) : (checkTerm b (blockAt b plain i)).length = b :=
  checkTerm_length (List.length_take_le _ _)

variable (hb : 1 ≤ b)
include hb

/-- The checksum as one sum, the partial block the last of its terms. -/
theorem ocb3Checksum_eq (plain : Bytes) :
    ocb3Checksum b plain = xorUpTo (zeros b) (fun i => checkTerm b (blockAt b plain i)) (plain.length / b + 1) := by
  have hblock (i : Nat) (hi : i < plain.length / b) : checkTerm b (blockAt b plain i) = blockAt b plain i := by
    have hlen : (blockAt b plain i).length = b :=
      blockAt_length _ _ _ ((Nat.mul_le_mul_left _ hi).trans (Nat.mul_div_le _ _))
    rw [checkTerm, if_neg (List.ne_nil_of_length_pos (by omega)), if_neg (by omega)]
  have hpart : (partOf b plain).length < b := (partOf_length _ _).trans_lt (Nat.mod_lt _ hb)
  have hfull := xorUpTo_length (zeros_length b) (checkTerm_blockAt_length plain) (plain.length / b)
  rw [xorUpTo_congr hblock] at hfull
  rw [xorUpTo, xorUpTo_congr hblock, blockAt_div hb rfl, checkTerm]
  by_cases hnil : partOf b plain = []
  · rw [if_pos hnil, xorBytes_zeros _ b hfull.le]
    exact if_pos hnil
  · rw [if_neg hnil, if_pos hpart]
    exact if_neg hnil

theorem ocb3Checksum_length (plain : Bytes) : (ocb3Checksum b plain).length = b := by
  rw [ocb3Checksum_eq hb]
  exact xorUpTo_length (zeros_length b) (checkTerm_blockAt_length plain) _

theorem ocb3Checksum_ne {plain plain' : Bytes} (hl : plain'.length = plain.length) {j : Nat}
    (hj : blockAt b plain j ≠ blockAt b plain' j) (hother : ∀ i, i ≠ j → blockAt b plain i = blockAt b plain' i) :
    ocb3Checksum b plain ≠ ocb3Checksum b plain' := by
  have hlen : (blockAt b plain j).length = (blockAt b plain' j).length := by simp [blockAt, hl]
  have hlast : j < plain.length / b + 1 := by
    by_contra hge
    have hend : plain.length ≤ b * j := Nat.mul_comm j b ▸ (Nat.lt_mul_of_div_lt (Nat.not_lt.1 hge) hb).le
    exact hj (by rw [blockAt_eq_nil hend, blockAt_eq_nil (by rwa [hl])])
  rw [ocb3Checksum_eq hb, ocb3Checksum_eq hb, hl]
  exact xorUpTo_ne (zeros_length b) (checkTerm_blockAt_length plain) (checkTerm_blockAt_length plain') hlast
    (mt (checkTerm_inj hlen) hj) fun i hi => by rw [hother i hi]

end

/-! ### The tag of texts that differ in one block (70_reset_and_hazards.md R313) -/

/-- The offset the tag is made under, from the one behind the full blocks (47_ocb3_tag.md R255). -/
def tagOffset (b : Nat) (lstar d0 text : Bytes) : Bytes :=
  xorBytes (partOffset lstar (partOf b text) (offsetFrom b lstar d0 0 (text.length / b))) (double b lstar)

theorem tagOffset_length {b : Nat} {lstar d0 : Bytes} (hstar : lstar.length = b) (hd : d0.length = b) (text : Bytes) :
    (tagOffset b lstar d0 text).length = b := by
  have hoff := offsetFrom_length hd lstar 0 (text.length / b)
  rw [tagOffset, partOffset]
  split <;> simp [hoff, hstar]

theorem ocb3Tag_eq (p : Params) (key lstar d0 aad plain : Bytes) :
    ocb3Tag p key lstar d0 aad plain =
      xorBytes (cipherEnc p key (xorBytes (ocb3Checksum p.blockBytes plain) (tagOffset p.blockBytes lstar d0 plain)))
        (ocb3Sum p key lstar aad) := rfl

/-- The tag masks the checksum and encrypts it, so it tells checksums of texts of one length apart. -/
theorem ocb3Checksum_eq_of_ocb3Tag_eq {p : Params} (hb : 1 ≤ p.blockBytes) (hrt : CipherRoundTrips p)
    {key lstar d0 aad plain plain' : Bytes} (hkey : key.length ∈ p.keyLengths) (hstar : lstar.length = p.blockBytes)
    (hd : d0.length = p.blockBytes) (hl : plain'.length = plain.length)
    (htag : ocb3Tag p key lstar d0 aad plain = ocb3Tag p key lstar d0 aad plain') :
    ocb3Checksum p.blockBytes plain = ocb3Checksum p.blockBytes plain' := by
  have hoff : tagOffset p.blockBytes lstar d0 plain' = tagOffset p.blockBytes lstar d0 plain := by
    rw [tagOffset, partOffset_of_length hl, hl, tagOffset]
  have hofflen := tagOffset_length hstar hd plain
  have hcheck (x : Bytes) := ocb3Checksum_length hb x
  have hmasked (x : Bytes) :
      (xorBytes (ocb3Checksum p.blockBytes x) (tagOffset p.blockBytes lstar d0 plain)).length = p.blockBytes := by
    rw [xorBytes_length, hcheck, hofflen, min_self]
  have hblock (x : Bytes) : (cipherEnc p key x).length ≤ (ocb3Sum p key lstar aad).length := by
    rw [cipherEnc_length, ocb3Sum_length]
  rw [ocb3Tag_eq, ocb3Tag_eq, hoff] at htag
  have henc := xorBytes_left_inj _ _ _ (hblock _) (hblock _) htag
  have hmask := (cipherDec_leftInvOn hrt hkey).injOn (hmasked plain) (hmasked plain') henc
  exact xorBytes_left_inj _ _ _ ((hcheck _).trans hofflen.symm).le ((hcheck _).trans hofflen.symm).le hmask

/-- Settles O58: the plaintexts differ in the block where the ciphertexts do, so their checksums and tags differ. -/
theorem tamperedBlockChangesTag : Obligations.TamperedBlockChangesTag := by
  intro s nonce aad ct ct' j b run hb hrt hs hk hiv ha hm hl hj hother
  let p := s.params
  let key := s.engine.boundKey
  let lstar := cipherEnc p key (zeros b)
  let d0 := delta0 p key (nonceBlock p nonce b)
  let text := ocb3Text p .decrypt key lstar d0
  have hb1 : 1 ≤ b := (wf_of_ocb3Size hb).1
  have hd : d0.length = b := blkOf_length _ _
  have hkey : key.length ∈ p.keyLengths := boundKey_length hk hs
  have htext (data : Bytes) : (text data).length = data.length := ocb3Text_length hb1 hd .decrypt key lstar data
  have htag (data : Bytes) (t : State)
      (hout : outputSince s t = text data ++ (ocb3Tag p key lstar d0 aad (text data)).take b) :
      (outputSince s t).drop data.length = ocb3Tag p key lstar d0 aad (text data) := by
    rw [hout, List.drop_left' (htext data), List.take_of_length_le (ocb3Tag_length ..).le]
  obtain ⟨t, hst, hok, hout, -⟩ := issueAll_ocb3 hs rfl rfl .decrypt hb hb1 le_rfl hiv ha hm
  obtain ⟨t', hst', hok', hout', -⟩ := issueAll_ocb3 hs rfl rfl .decrypt (msg := ct') hb hb1 le_rfl hiv ha (by rwa [hl])
  have hblocks := blockAt_decrypt_eq_iff hb1 hrt hkey hd hl lstar
  have hlen : (text ct').length = (text ct).length := by rw [htext, htext, hl]
  refine ⟨t, t', hst, hok, hst', hok', ?_⟩
  rw [htag ct t hout, ← hl, htag ct' t' hout']
  have hcheck := ocb3Checksum_ne hb1 hlen (mt (hblocks j).1 hj) fun i hi => (hblocks i).2 (hother i hi)
  exact mt (ocb3Checksum_eq_of_ocb3Tag_eq hb1 hrt hkey (cipherEnc_length _ _ _) hd hlen) hcheck

end Sys2Proof.Machine
end
